-- ==== Sys2Proof/Word.lean ====
section
/-! DEFINITION. Words: the 32-bit word every port moves (00_scope R11, 20_memory R96), and the binary interchange
formats a word or a value of the working format is read in (R11, R16). -/

namespace Sys2Proof

/-- A word is 32 bits (R11). -/
abbrev Word := BitVec 32

/-- One byte of a serialised word (R100). -/
abbrev Byte := BitVec 8

/-- A binary floating-point format of IEEE 754: from the top, a sign bit, a biased exponent, and `frac` bits of
fraction (R11). -/
structure Format where
  width : Nat
  frac : Nat
deriving DecidableEq, Repr

/-- Bit 31 sign, bits 30:23 biased exponent, bits 22:0 fraction (R11). -/
abbrev binary32 : Format := { width := 32, frac := 23 }

/-- The other format R16 and 92 D2 ask to be able to put in. -/
abbrev binary64 : Format := { width := 64, frac := 52 }

end Sys2Proof
end

