-- ==== Sys2Proof/Machine/Float.lean ====
section
/-! DEFINITION. Floating-point arithmetic in any binary format (00_scope R16 to R20). Each operation is computed
exactly on integers and rounded once, to nearest, ties to even (R17). The unit of the exact integers is the least
positive number of the format, `2^-scale` (2^-149 in binary32): every finite value is a whole number of units. -/

namespace Sys2Proof.Fp

/-- An encoding in the format `F`. -/
abbrev Value (F : Format) := BitVec F.width

/-- The exponent bias, `2^(exponent bits - 1) - 1`. -/
def bias (F : Format) : Nat := 2 ^ (F.width - F.frac - 2) - 1

/-- 1.0 is `2^scale` units. -/
def scale (F : Format) : Nat := bias F + F.frac - 1

/-- The weight of the sign bit (R11). -/
def signWeight (F : Format) : Nat := 2 ^ (F.width - 1)

/-- The magnitude bits of infinity: biased exponent all ones, fraction 0. -/
def infMag (F : Format) : Nat := signWeight F - 2 ^ F.frac

/-- The sign bit, the most significant (R11). -/
def sign (F : Format) (a : Value F) : Bool := a.msb

/-- The bits below the sign: the magnitude's bits, which order as the magnitudes do. -/
def mag (F : Format) (a : Value F) : Nat := a.toNat % signWeight F

/-- R18: true of NaN only. -/
def isNaN (F : Format) (a : Value F) : Bool := decide (infMag F < mag F a)

/-- An infinity of either sign. -/
def isInf (F : Format) (a : Value F) : Bool := mag F a == infMag F

/-- R18: true of every value but the infinities and NaN. -/
def isFinite (F : Format) (a : Value F) : Bool := decide (mag F a < infMag F)

/-- The value with the given sign and magnitude bits. -/
def make (F : Format) (neg : Bool) (m : Nat) : Value F := BitVec.ofNat F.width (if neg then signWeight F + m else m)

/-- The NaN an invalid operation returns: the quiet NaN with no other fraction bit (binary32 0x7FC00000).
DESIGN CHOICE (log 8): the spec names no payload; no rule reads one, and a NaN is never stored. -/
def nan (F : Format) : Value F := make F false (infMag F + 2 ^ (F.frac - 1))

/-- The magnitude of a finite value in units: exponent field 0 holds the subnormals. -/
def units (F : Format) (a : Value F) : Nat :=
  let e := mag F a / 2 ^ F.frac
  let f := mag F a % 2 ^ F.frac
  if e = 0 then f else (2 ^ F.frac + f) * 2 ^ (e - 1)

/-- A finite value as a signed number of units. -/
def int (F : Format) (a : Value F) : Int := if sign F a then -(units F a : Int) else (units F a : Int)

/-- `num / den` rounded to a natural, to nearest, ties to even (R17). -/
def roundNat (num den : Nat) : Nat :=
  let q := num / den
  let r := num % den
  if den < 2 * r || (2 * r == den && q % 2 == 1) then q + 1 else q

/-- The magnitude bits of the value nearest to `num / den` units (R17): the exponent `e` is the one that leaves
`frac + 1` significant bits, 0 below the normal range (subnormals are kept), and a result past the largest finite
number is infinity. `e * 2^frac + m` is the encoding whether or not the rounding carried into the next exponent. -/
def roundMag (F : Format) (num den : Nat) : Nat :=
  let e := Nat.log2 (num / den) - F.frac
  min (e * 2 ^ F.frac + roundNat num (den * 2 ^ e)) (infMag F)

/-- The value nearest to `num / den` units with the given sign. -/
def round (F : Format) (neg : Bool) (num den : Nat) : Value F := make F neg (roundMag F num den)

/-- R18: `abs` clears the sign bit. -/
def abs (F : Format) (a : Value F) : Value F := make F false (mag F a)

/-- R18: negation flips the sign bit. -/
def neg (F : Format) (a : Value F) : Value F := make F (!sign F a) (mag F a)

/-- R17: the rounded sum. An exact sum of zero is `+0` unless both operands are `-0`. -/
def add (F : Format) (a b : Value F) : Value F :=
  if isNaN F a || isNaN F b then nan F
  else if isInf F a then (if isInf F b && sign F a != sign F b then nan F else a)
  else if isInf F b then b
  else
    let x := int F a + int F b
    if x = 0 then make F (sign F a && sign F b) 0 else round F (decide (x < 0)) x.natAbs 1

/-- R17: the rounded difference. -/
def sub (F : Format) (a b : Value F) : Value F := add F a (neg F b)

/-- R17: the rounded product. -/
def mul (F : Format) (a b : Value F) : Value F :=
  let s := sign F a != sign F b
  if isNaN F a || isNaN F b then nan F
  else if isInf F a || isInf F b then (if mag F a == 0 || mag F b == 0 then nan F else make F s (infMag F))
  else round F s (units F a * units F b) (2 ^ scale F)

/-- R17: the rounded quotient. -/
def div (F : Format) (a b : Value F) : Value F :=
  let s := sign F a != sign F b
  if isNaN F a || isNaN F b then nan F
  else if isInf F a then (if isInf F b then nan F else make F s (infMag F))
  else if isInf F b then make F s 0
  else if mag F b == 0 then (if mag F a == 0 then nan F else make F s (infMag F))
  else round F s (units F a * 2 ^ scale F) (units F b)

/-- The greatest `r` below `2^k` more than `r0` with `r * r ≤ n`, one bit at a time. -/
def isqrtFrom (n : Nat) : Nat → Nat → Nat
  | 0, r => r
  | k + 1, r => isqrtFrom n k (if (r + 2 ^ k) * (r + 2 ^ k) ≤ n then r + 2 ^ k else r)

/-- The integer square root. -/
def isqrt (n : Nat) : Nat := isqrtFrom n (Nat.log2 n / 2 + 1) 0

/-- R17: the rounded square root. The integer root of a number of more than `scale` bits has more bits than the format
keeps, so the root and one sticky bit (is it inexact?) round as the real root does. -/
def sqrt (F : Format) (a : Value F) : Value F :=
  if isNaN F a then nan F
  else if mag F a == 0 then a
  else if sign F a then nan F
  else if isInf F a then a
  else
    let n := units F a * 2 ^ scale F
    let r := isqrt n
    round F false (2 * r + (if r * r = n then 0 else 1)) 2

/-- The order of the non-NaN values as integers: both zeros are 0. -/
def key (F : Format) (a : Value F) : Int := if sign F a then -(mag F a : Int) else (mag F a : Int)

/-- R18: `a < b`, false with a NaN. -/
def lt (F : Format) (a b : Value F) : Bool := !isNaN F a && !isNaN F b && decide (key F a < key F b)

/-- R18: `a ≤ b`, false with a NaN. -/
def le (F : Format) (a b : Value F) : Bool := !isNaN F a && !isNaN F b && decide (key F a ≤ key F b)

/-- R18: IEEE equality, `+0 == -0`, false with a NaN. -/
def eq (F : Format) (a b : Value F) : Bool := !isNaN F a && !isNaN F b && decide (key F a = key F b)

/-- R19: the value nearest to the decimal `num / den`. -/
def lit (F : Format) (s : Bool) (num den : Nat) : Value F := round F s (num * 2 ^ scale F) den

/-- R20: `floor(v + 1/2)` of a finite `v ≥ 0`, on its exact value. -/
def rnd (F : Format) (v : Value F) : Nat := (units F v + 2 ^ (scale F - 1)) / 2 ^ scale F

/-- A value of the format `F` in the format `G`, rounded once where `G` is the narrower (exact where it is not). -/
def convert (F G : Format) (a : Value F) : Value G :=
  if isNaN F a then nan G
  else if isInf F a then make G (sign F a) (infMag G)
  else round G (sign F a) (units F a * 2 ^ scale G) (2 ^ scale F)

end Sys2Proof.Fp
end

