-- ==== Sys2Proof/Config.lean ====
section
/-! DEFINITION. The configuration: the numerics (00_scope R16 to R21), the structural parameters (R5) and the parameter
tables (R6 to R10). A number of the working format is written as the decimal of its table; its value is the nearest
one (R19). A parameter the spec marks "choice" is one definition here, so that another value can be put in. -/

namespace Sys2Proof

/-! ### The numerics (R16) -/

/-- The numerics configuration (R16, 92 D2): the working format, with which every operation of R17 to R20 is
determined, the words of a port as values of it, and the elementary functions (R21). -/
structure Numerics where
  /-- The working format. -/
  format : Format
  /-- The encodings of the working format, their width written out. -/
  Carrier : Type
  carrier_eq : Carrier = Fp.Value format
  /-- The value of a word that holds a number (R11: its binary32 encoding), and the word a value is sent as. -/
  ofWord : Word → Carrier
  toWord : Carrier → Word
  sin : Carrier → Carrier
  cos : Carrier → Carrier
  pow10 : Carrier → Carrier
  log10 : Carrier → Carrier

namespace Config

/-- The elementary functions (R21): uninterpreted, of their operand alone (NP1).
FREE VALUES (log 6): nothing in Lean evaluates them; Machine/Numerics keeps the bounds NP2 to NP6 the spec sets. -/
opaque sinRaw (F : Format) : Fp.Value F → Fp.Value F
opaque cosRaw (F : Format) : Fp.Value F → Fp.Value F
opaque pow10Raw (F : Format) : Fp.Value F → Fp.Value F
opaque log10Raw (F : Format) : Fp.Value F → Fp.Value F

/-- Binary32 (R16): "one format for ports and internals", so a word is its own value. -/
abbrev inBinary32 : Numerics :=
  { format := binary32
    Carrier := BitVec 32
    carrier_eq := rfl
    ofWord := fun w => w
    toWord := fun v => v
    sin := sinRaw binary32
    cos := cosRaw binary32
    pow10 := pow10Raw binary32
    log10 := log10Raw binary32 }

/-- Binary64 (R16): the ports keep their binary32 words (R11), which widen exactly and narrow by one rounding
(log 8). -/
abbrev inBinary64 : Numerics :=
  { format := binary64
    Carrier := BitVec 64
    carrier_eq := rfl
    ofWord := Fp.convert binary32 binary64
    toWord := Fp.convert binary64 binary32
    sin := sinRaw binary64
    cos := cosRaw binary64
    pow10 := pow10Raw binary64
    log10 := log10Raw binary64 }

/-- The numerics of this model: the spec's choice, binary32 (R16). -/
abbrev numerics : Numerics := inBinary32

end Config

/-- A value of the working format (R16). -/
abbrev V := Config.numerics.Carrier

/-- The instance's straps (R5, R331): OPEN parameters, latched at reset and constant until the next one. -/
structure Params where
  /-- `FS`, the session sample rate in Hz. -/
  fs : Nat
  /-- `BLOCK`, frames per audio block. -/
  block : Nat
  /-- `CQ_DEPTH`, packets the control queue holds. -/
  cqDepth : Nat
deriving DecidableEq, Repr

namespace Config

/-! ### Structural parameters -/

/-- R5: the defaults of the three OPEN parameters. -/
def defaults : Params := { fs := 48000, block := 128, cqDepth := 16 }

/-- R5: the legal ranges of `FS` and `BLOCK`. -/
def fsMin : Nat := 8000
def fsMax : Nat := 384000

/-- `NBANDS` (R5): number of biquad sections. -/
abbrev nBands : Nat := 11
/-- `F` (R5): FFT size and spectrum window length. -/
abbrev fftSize : Nat := 8192
/-- `LOG2F` (R5). -/
abbrev log2F : Nat := 13

/-! ### Parameters of the working format -/

/-- The value of `V` nearest to `num / den` (R19). -/
def lit (num : Nat) (den : Nat := 1) : V := Fp.lit numerics.format false num den
/-- The value of `V` nearest to `-num / den` (R19). -/
def negLit (num : Nat) (den : Nat := 1) : V := Fp.lit numerics.format true num den

/-- `CENTER` (R6), Hz. -/
def center : Vector V nBands :=
  #v[lit 32, lit 64, lit 125, lit 250, lit 500, lit 1000, lit 2000, lit 4000, lit 8000, lit 12000, lit 16000]
def qDefault : V := lit 1                 -- Q_DEFAULT 1.0 (R6)
def qScaleEfficient : V := lit 8 10       -- 0.8 (R6)
def qScaleQuality : V := lit 1            -- 1.0 (R6)
def qScaleHifi : V := lit 12 10           -- 1.2 (R6)

def fLo : V := lit 1                      -- F_LO 1.0 Hz (R7)
def qLo : V := lit 2 10                   -- Q_LO 0.2 (R7)
def qHi : V := lit 11                     -- Q_HI 11.0 (R7)
def gLo : V := negLit 30                  -- G_LO -30.0 dB (R7)
def gHi : V := lit 30                     -- G_HI 30.0 dB (R7)

def thMin : V := lit 1 1024               -- TH_MIN 2^-10 (R8)
def thMax : V := lit 1                    -- TH_MAX 1.0 (R8)
def attMin : V := lit 0                   -- ATT_MIN 0.0 s (R8)
def attMax : V := lit 1                   -- ATT_MAX 1.0 s (R8)
def kneeMin : V := lit 0                  -- KNEE_MIN 0.0 dB (R8)
def kneeMax : V := lit 40                 -- KNEE_MAX 40.0 dB (R8)
def relSec : V := lit 1 10                -- REL_SEC 0.1 s (R8)
def ratio : V := lit 20                   -- RATIO 20.0 (R8)
def laMinMs : V := lit 0                  -- 0.0 ms, the lower bound of lookaheadMs (10_state R47)
def laMaxMs : V := lit 20                 -- LA_MAX_MS 20.0 (R8)
def rmsMinMs : V := lit 0                 -- RMS_MIN_MS 0.0 (R8)
def rmsMaxMs : V := lit 1000              -- RMS_MAX_MS 1000.0 (R8)
def redFloorDb : V := negLit 120          -- RED_FLOOR_DB -120.0 (R8)

def hpAlpha : V := lit 6 10               -- HP_ALPHA 0.6 (R9)
def aFast : V := lit 85 100               -- A_FAST 0.85 (R9)
def aSlow : V := lit 992 1000             -- A_SLOW 0.992 (R9)
def trigK : V := lit 16 10                -- TRIG_K 1.6 (R9)
def tailDecay : V := lit 9994 10000       -- TAIL_DECAY 0.9994 (R9)
def synK : V := lit 15                    -- SYN_K 15.0 (R9)
def nzAlpha : V := lit 3 10               -- NZ_ALPHA 0.3 (R9)
def nzMix : V := lit 15 100               -- NZ_MIX 0.15 (R9)
def makeupK : V := lit 8 10               -- MAKEUP_K 0.8 (R9)
def holdSec : Nat := 5                    -- HOLD_SEC (R9)
def rampUpSec : V := lit 5 100            -- RAMP_UP_SEC 0.05 (R9)
def rampDownSec : V := lit 5 10           -- RAMP_DOWN_SEC 0.5 (R9)
def refLoHz : Nat := 2000                 -- REF_LO_HZ (R9)
def refHiHz : Nat := 4500                 -- REF_HI_HZ (R9)
def cutLoHz : Nat := 8000                 -- CUT_LO_HZ (R9)
def cutHiHz : Nat := 12000                -- CUT_HI_HZ (R9)
def highLoHz : Nat := 14000               -- HIGH_LO_HZ (R9)
def highHiHz : Nat := 18000               -- HIGH_HI_HZ (R9)
def noiseFloor : V := lit 1               -- NOISE_FLOOR 1.0 (R9)
def rHigh : V := lit 1 1000               -- R_HIGH 0.001 (R9)
def rCut : V := lit 1 100                 -- R_CUT 0.01 (R9)
def rngSeed : Word := 0x2545F491          -- RNG_SEED (R9)

def dbLo : V := negLit 100                -- DB_LO -100.0 (R10)
def dbHi : V := lit 0                     -- DB_HI 0.0 (R10)
def eps : V := lit 1 10000000000          -- EPS 1e-10 (R10)
def fpsMin : V := lit 1                   -- FPS_MIN 1.0 (R10)
def fpsMax : V := lit 240                 -- FPS_MAX 240.0 (R10)

def twoPi : V := lit 6283185307179586 1000000000000000   -- TWO_PI 6.283185307179586 (R19)

end Config

end Sys2Proof
end

