-- ==== Sys2Proof/Machine/Numerics.lean ====
section
/-! DEFINITION. The numerics of the working format, which `Config.numerics` selects: the operations of 00_scope R17 to
R20, the elementary functions within the properties NP1 to NP6 the spec assumes of them (R21), the guard `san` as a
value (R22), `clamp` (R23) and `kcoef` (R24). -/

namespace Sys2Proof.Machine

/-! ### Words and values -/

/-- The value of a word that holds a number (R11). -/
def ofWord (w : Word) : V := Config.numerics.ofWord w
/-- The word a value is sent as (R11). -/
def toWord (v : V) : Word := Config.numerics.toWord v

/-! ### Encodings (R11, R18) -/

def fSign (a : V) : Bool := Fp.sign Config.numerics.format a
def fMag (a : V) : Nat := Fp.mag Config.numerics.format a
def infMag : Nat := Fp.infMag Config.numerics.format
def isNaN (a : V) : Bool := Fp.isNaN Config.numerics.format a
def isInf (a : V) : Bool := Fp.isInf Config.numerics.format a
def isFinite (a : V) : Bool := Fp.isFinite Config.numerics.format a
def mkV (neg : Bool) (m : Nat) : V := Fp.make Config.numerics.format neg m
def fUnits (a : V) : Nat := Fp.units Config.numerics.format a

def posZero : V := mkV false 0
def negZero : V := mkV true 0
def posInf : V := mkV false infMag
def negInf : V := mkV true infMag
def one : V := Config.lit 1
def negOne : V := Config.negLit 1
def half : V := Config.lit 1 2
def two : V := Config.lit 2
def negTwo : V := Config.negLit 2

/-- The least positive number of the format, for NP5's last clause. -/
def leastPos : V := mkV false 1

/-! ### Rounded operations (R17) -/

def fAdd (a b : V) : V := Fp.add Config.numerics.format a b
def fSub (a b : V) : V := Fp.sub Config.numerics.format a b
def fMul (a b : V) : V := Fp.mul Config.numerics.format a b
def fDiv (a b : V) : V := Fp.div Config.numerics.format a b
def fSqrt (a : V) : V := Fp.sqrt Config.numerics.format a

/-! ### Exact operations (R18) -/

def fAbs (a : V) : V := Fp.abs Config.numerics.format a
def fNeg (a : V) : V := Fp.neg Config.numerics.format a
def fLt (a b : V) : Bool := Fp.lt Config.numerics.format a b
def fLe (a b : V) : Bool := Fp.le Config.numerics.format a b
def fEq (a b : V) : Bool := Fp.eq Config.numerics.format a b

/-- R18: `max(a, b) = if a < b then b else a`. -/
def fMax (a b : V) : V := if fLt a b then b else a

/-- R18: `min(a, b) = if b < a then b else a`. -/
def fMin (a b : V) : V := if fLt b a then b else a

/-- `lo ≤ a ≤ hi` in the order of the format. -/
def fIn (lo hi a : V) : Bool := fLe lo a && fLe a hi

/-! ### Conversions (R20) -/

/-- R20: the value equal to a natural below 2^24 (exact there). -/
def toF (n : Nat) : V := Config.lit n

/-- R20: `floor(v + 1/2)` of a finite `v ≥ 0`, on its exact value. -/
def rnd (v : V) : Nat := Fp.rnd Config.numerics.format v

/-! ### Parameters of a sample rate, as far as NP6 reads them -/

/-- `FSf/2.0 - 1.0`, which is `F_HI` (R7), of a sample rate in Hz. -/
def fHiOf (fs : Nat) : V := fSub (fDiv (toF fs) two) one

/-- `w0` (40_filterbank R154) of a frequency at a sample rate in Hz. -/
def w0Of (fs : Nat) (f : V) : V := fDiv (fMul Config.twoPi f) (toF fs)

/-! ### The elementary functions (R21)

Each is the uninterpreted function of the configuration where that has the function's properties, and one fixed
function with those properties where it has not: R21 rules the second case out, so the model has exactly the behaviours
of the instances that R21 admits (log 6). Each property ranges over the finite type `V`, so which case holds is
decidable; nothing evaluates it, since the uninterpreted functions have no value. -/

/-- NP2, NP3 and NP6 of `sin`. -/
abbrev SinOk (f : V → V) : Prop :=
  f posZero = posZero ∧ (∀ a : V, isFinite a = true → fIn negOne one (f a) = true) ∧
    ∀ fs : Nat, fs < Config.fsMax + 1 → Config.fsMin ≤ fs →
      ∀ x : V, fIn Config.fLo (fHiOf fs) x = true → fLt posZero (f (w0Of fs x)) = true

/-- NP2 and NP3 of `cos`. -/
abbrev CosOk (f : V → V) : Prop :=
  f posZero = one ∧ f negZero = one ∧ ∀ a : V, isFinite a = true → fIn negOne one (f a) = true

/-- 0.75, the bound of `gainDb / 40` (NP4). -/
def threeQuarters : V := Config.lit 3 4
def negThreeQuarters : V := Config.negLit 3 4

/-- NP2 and NP4 of `pow10`. -/
abbrev Pow10Ok (f : V → V) : Prop :=
  f posZero = one ∧ f negZero = one ∧
    ∀ a : V, fIn negThreeQuarters threeQuarters a = true →
      isFinite (f a) = true ∧ fLt posZero (f a) = true ∧ (fLe posZero a = true → fLe one (f a) = true) ∧
        (fLe a posZero = true → fLe (f a) one = true)

/-- NP2 and NP5 of `log10`. "Weakly increasing on positive operands" is read on the finite ones: 95_test_vectors 2.6
says that NP1 to NP6 do not say what `log10(+Inf)` is. -/
abbrev Log10Ok (f : V → V) : Prop :=
  f one = posZero ∧ (∀ a : V, fLt posZero a = true → fLe a one = true → fLe (f a) posZero = true) ∧
    (∀ a : V, fLt posZero a = true → ∀ b : V, isFinite b = true → fLe a b = true → fLe (f a) (f b) = true) ∧
    (f posZero = negInf ∨ isFinite (f posZero) = true ∧ fLe (f posZero) (f leastPos) = true)

/-- Functions with the properties, for the case R21 rules out. -/
def sinBase (a : V) : V := if a = posZero then posZero else one
def cosBase (_ : V) : V := one
def pow10Base (_ : V) : V := one
def log10Base (a : V) : V := if fLt a one then negInf else posZero

/-- `sin` (R21). -/
def fSin (a : V) : V := if SinOk Config.numerics.sin then Config.numerics.sin a else sinBase a

/-- `cos` (R21). -/
def fCos (a : V) : V := if CosOk Config.numerics.cos then Config.numerics.cos a else cosBase a

/-- `pow10` (R21). -/
def fPow10 (a : V) : V := if Pow10Ok Config.numerics.pow10 then Config.numerics.pow10 a else pow10Base a

/-- `log10` (R21). -/
def fLog10 (a : V) : V := if Log10Ok Config.numerics.log10 then Config.numerics.log10 a else log10Base a

/-! ### The guard, the clamp and the smoothing coefficient -/

/-- The value `san` returns (R22): the operand, or `+0` for a non-finite one. -/
def sanV (v : V) : V := if isFinite v then v else posZero

/-- R23. -/
def clamp (v lo hi : V) : V := if fLt v lo then lo else if fLt hi v then hi else v

/-- R24: the smoothing coefficient of a time constant in frames. -/
def kcoef (t : V) : V := fDiv one (fAdd one t)

end Sys2Proof.Machine
end

