-- ==== Sys2Proof/Syntax.lean ====
section
/-! DEFINITION. The packets, one constructor of `Instr` for each row of spec/opcode_table.json, the outcomes of the
control decoder (30_encoding R130), the events (60_exceptions R300) and the moves of the host (44_orchestrator R281). -/

namespace Sys2Proof

/-- The mnemonics of 30_encoding R122 and R123. -/
inductive Op where
  | init | modf | modg | rstf | setq | setx | setl | setv | proc | aout | tlm
deriving DecidableEq, Repr

/-- `detectorMode` (R127): 0 = peak, 1 = rms. -/
inductive DetectorMode where
  | peak | rms
deriving DecidableEq, Repr

/-- The three operands of MODF, and of one of INIT's `filters[i]`, in the order of R122 and R126. -/
structure FilterParams where
  frequency : V
  gain : V
  q : V
deriving DecidableEq, Repr

/-- The numeric operands of SETL, in the order of R122. -/
structure LimiterParams where
  attack : V
  threshold : V
  knee : V
  lookaheadMs : V
  rmsTimeMs : V
deriving DecidableEq, Repr

/-- INIT: the fields of its `a` byte (R124) and its operand words (R126). -/
structure InitPacket where
  qualityMode : BitVec 2
  sbrEnabled : Bool
  limiterEnabled : Bool
  detectorMode : DetectorMode
  gain : V
  filters : List FilterParams
  sbrGain : V
  limiter : LimiterParams
  fps : V
deriving DecidableEq, Repr

/-- Format HA (R123, R128): the channel count of the `a` byte and the planar samples, channel 0 first. -/
structure AudioPacket where
  nch : BitVec 8
  samples : List V
deriving DecidableEq, Repr

/-- Format HT (R129). -/
structure TlmPacket where
  sbrActive : Bool
  seq : Word
  red : V
  data : List V
deriving DecidableEq, Repr

/-- The packets of spec/opcode_table.json. -/
inductive Instr where
  | init (p : InitPacket)
  | modf (index : BitVec 8) (p : FilterParams)
  | modg (gain : V)
  | rstf
  | setq (mode : BitVec 2)
  | setx (enabled : Bool) (gain : V)
  | setl (enabled : Bool) (detectorMode : DetectorMode) (p : LimiterParams)
  | setv (fps : V)
  | proc (p : AudioPacket)
  | aout (p : AudioPacket)
  | tlm (p : TlmPacket)
deriving DecidableEq, Repr

/-- The reasons of `CmdIgnored` with what each records (60_exceptions R300). How positions count, and the mnemonic for a
part of INIT, is log 13; which of several NaN operands is recorded, log 34. -/
inductive IgnoreReason where
  | unknownOpcode (header : Word)
  | badLength (header : Word)
  | reservedBits (header : Word)
  | badIndex (index : BitVec 8)
  | badMode (mode : BitVec 2)
  | nanOperand (mnemonic : Op) (position : Nat)
  | nonFiniteGain (mnemonic : Op)
  | nonFiniteCoef (section_ : Nat)
deriving DecidableEq, Repr

/-- The outcomes of the control decoder (R130): a packet to apply, a matched packet that R131 finds invalid, or a
header that R132 refuses. -/
inductive CtrlOutcome where
  | apply (i : Instr)
  | ignorePacket (i : Instr) (reason : IgnoreReason)
  | ignoreRaw (header : Word) (reason : IgnoreReason)
deriving DecidableEq, Repr

/-- The operands that have a clamp (R131, R300). RSTF, which has no operands, records `frequency` (log 35). -/
inductive ParamName where
  | frequency | gain | q | attack | threshold | knee | lookaheadMs | rmsTimeMs | fps
deriving DecidableEq, Repr

/-- Channel 0 is the left, or the only, channel; channel 1 the right (R128). -/
inductive Chan where
  | c0 | c1
deriving DecidableEq, Repr

/-- The places where `san` stands (44_orchestrator R277). -/
inductive Site where
  | input
  | section_ (i : Nat)
  | masterGain
  | excHighpass | excEnvFast | excEnvSlow | excNoise | excOut
  | dynMeanSquare | dynGain | dynOut
  | mix
deriving DecidableEq, Repr

/-- The events (R300). `SampleReplaced` records the site, the channel where the site has one, and the frame. -/
inductive Event where
  | cmdIgnored (reason : IgnoreReason)
  | paramClamped (name : ParamName) (before : V)
  | sampleReplaced (site : Site) (channel : Option Chan) (frame : Nat)
deriving DecidableEq, Repr

/-- The code of an event (R300). -/
def Event.code : Event → BitVec 8
  | .cmdIgnored (.unknownOpcode _) => 0x01
  | .cmdIgnored (.badLength _) => 0x02
  | .cmdIgnored (.reservedBits _) => 0x03
  | .cmdIgnored (.badIndex _) => 0x04
  | .cmdIgnored (.badMode _) => 0x05
  | .cmdIgnored (.nanOperand _ _) => 0x06
  | .cmdIgnored (.nonFiniteGain _) => 0x07
  | .cmdIgnored (.nonFiniteCoef _) => 0x08
  | .paramClamped _ _ => 0x10
  | .sampleReplaced _ _ _ => 0x20

/-- What the host does next (44_orchestrator R280, R281; log 1): offer a word on `CTRL` or `AIN`, take the packet on
`AOUT`, take or only read the packet on `TLMO`, pulse reset with the straps sampled, or let the block move. -/
inductive HostMove where
  | ctrl (w : Word)
  | ain (w : Word)
  | takeAout
  | takeTlm
  | readTlm
  | reset (straps : Params)
  | wait
deriving DecidableEq, Repr

end Sys2Proof
end

