-- ==== Sys2Proof/WellFormed.lean ====
section
/-! DEFINITION. Which terms of `Instr` are packets of their format (30_encoding R120 to R129): those whose operand
words the header can count and whose list fields have the lengths the format gives. Validity (R131) and the fit of a
PROC to the instance's BLOCK (R133) are not well-formedness: a packet that fails them is still a packet. -/

namespace Sys2Proof

/-- Format HA (R120, R123, R128): one or two channels, planar, of one length, counted by the 16-bit field `n`. -/
def AudioPacket.wellFormed (p : AudioPacket) : Bool :=
  (p.nch == 1 || p.nch == 2) && p.samples.length % p.nch.toNat == 0 && decide (p.samples.length < 65536)

/-- The packets of the formats of R120: INIT has `filters[11]` (R126), TLM has `F/2` values (R129). -/
def Instr.wellFormed : Instr → Bool
  | .init p => p.filters.length == Config.nBands
  | .modf _ _ => true
  | .modg _ => true
  | .rstf => true
  | .setq _ => true
  | .setx _ _ => true
  | .setl _ _ _ => true
  | .setv _ => true
  | .proc p => p.wellFormed
  | .aout p => p.wellFormed
  | .tlm p => p.data.length == Config.fftSize / 2

end Sys2Proof
end

