-- ==== Sys2Proof/Decode.lean ====
section
/-! DEFINITION. The decoder and the encoder (30_encoding R120 to R133). `decode` reads one packet of any row of the
opcode table; `decodeCtrl` is the control port's view of it (R130 to R132), `ainStatus` the audio port's (R133). -/

namespace Sys2Proof

open Sys2Proof.Machine

/-! ### The header word (R121) -/

/-- Bits 31:24. -/
def hdrOp (h : Word) : BitVec 8 := h.extractLsb' 24 8
/-- Bits 23:16. -/
def hdrA (h : Word) : BitVec 8 := h.extractLsb' 16 8
/-- Bits 15:0, the number of operand words. -/
def hdrN (h : Word) : Nat := (h.extractLsb' 0 16).toNat

/-- The header with the given fields. -/
def mkHeader (op a : BitVec 8) (n : Nat) : Word := op ++ a ++ BitVec.ofNat 16 n

/-! ### The opcode map (R122, R123) -/

def opCode : Op → BitVec 8
  | .init => 0x01
  | .modf => 0x02
  | .modg => 0x03
  | .rstf => 0x04
  | .setq => 0x05
  | .setx => 0x06
  | .setl => 0x07
  | .setv => 0x08
  | .proc => 0x10
  | .aout => 0x11
  | .tlm => 0x20

/-- The row of an opcode; the other values are unassigned (R132). -/
def opOf (c : BitVec 8) : Option Op :=
  if c = 0x01 then some .init
  else if c = 0x02 then some .modf
  else if c = 0x03 then some .modg
  else if c = 0x04 then some .rstf
  else if c = 0x05 then some .setq
  else if c = 0x06 then some .setx
  else if c = 0x07 then some .setl
  else if c = 0x08 then some .setv
  else if c = 0x10 then some .proc
  else if c = 0x11 then some .aout
  else if c = 0x20 then some .tlm
  else none

/-- The rows of port `CTRL` (R122). -/
def opIsCtrl : Op → Bool
  | .init => true
  | .modf => true
  | .modg => true
  | .rstf => true
  | .setq => true
  | .setx => true
  | .setl => true
  | .setv => true
  | .proc => false
  | .aout => false
  | .tlm => false

/-- The operand words of INIT: the gain, three for each section, and seven more (R122, R126). -/
abbrev initLength : Nat := 1 + 3 * Config.nBands + 7

/-- The operand words of TLM: its number, the reduction and `F/2` values (R123, R129). -/
abbrev tlmLength : Nat := Config.fftSize / 2 + 2

/-- The operand count the row fixes (R122, R123); the two audio rows count theirs in the header. -/
def opLength : Op → Option Nat
  | .init => some initLength
  | .modf => some 3
  | .modg => some 1
  | .rstf => some 0
  | .setq => some 0
  | .setx => some 1
  | .setl => some 5
  | .setv => some 1
  | .proc => none
  | .aout => none
  | .tlm => some tlmLength

/-- The reserved bits of the `a` byte (R124). -/
def opReserved : Op → BitVec 8
  | .init => 0xE0
  | .modf => 0x00
  | .modg => 0xFF
  | .rstf => 0xFF
  | .setq => 0xFC
  | .setx => 0xFE
  | .setl => 0xFC
  | .setv => 0xFF
  | .proc => 0x00
  | .aout => 0x00
  | .tlm => 0xFE

/-- The `match` of a row (R125, spec/opcode_table.json): its opcode and the operand count it fixes. -/
def opMatch : Op → Word
  | .init => 0x01000000 ||| BitVec.ofNat 32 initLength
  | .modf => 0x02000003
  | .modg => 0x03000001
  | .rstf => 0x04000000
  | .setq => 0x05000000
  | .setx => 0x06000001
  | .setl => 0x07000005
  | .setv => 0x08000001
  | .proc => 0x10000000
  | .aout => 0x11000000
  | .tlm => 0x20000000 ||| BitVec.ofNat 32 tlmLength

/-- The `mask` of a row (R125, spec/opcode_table.json). -/
def opMask : Op → Word
  | .init => 0xFFE0FFFF
  | .modf => 0xFF00FFFF
  | .modg => 0xFFFFFFFF
  | .rstf => 0xFFFFFFFF
  | .setq => 0xFFFCFFFF
  | .setx => 0xFFFEFFFF
  | .setl => 0xFFFCFFFF
  | .setv => 0xFFFFFFFF
  | .proc => 0xFF000000
  | .aout => 0xFF000000
  | .tlm => 0xFFFEFFFF

/-! ### Fields of the `a` byte (R124, R127) -/

def detOfBit (b : Bool) : DetectorMode := if b then .rms else .peak
def bitOfDet : DetectorMode → Bool
  | .peak => false
  | .rms => true
def byteOfBit (b : Bool) (i : Nat) : BitVec 8 := if b then 1#8 <<< i else 0#8

/-! ### Operand words (R120, R126, R128, R129) -/

/-- The first `n` words and the rest, or nothing while they have not all arrived. -/
def splitWords : Nat → List Word → Option (List Word × List Word)
  | 0, ws => some ([], ws)
  | _ + 1, [] => none
  | n + 1, w :: ws => (splitWords n ws).map fun r => (w :: r.1, r.2)

/-- A filter's operands as values (R11). -/
def filterOfWords (f g q : Word) : FilterParams := ⟨ofWord f, ofWord g, ofWord q⟩

/-- The limiter's operands as values (R11). -/
def limiterOfWords (at_ th kn la rm : Word) : LimiterParams := ⟨ofWord at_, ofWord th, ofWord kn, ofWord la, ofWord rm⟩

/-- `n` groups of three words, INIT's `filters[i].f`, `.g`, `.q` (R126), and the rest. -/
def splitFilters : Nat → List Word → Option (List FilterParams × List Word)
  | 0, ws => some ([], ws)
  | n + 1, f :: g :: q :: ws => (splitFilters n ws).map fun r => (filterOfWords f g q :: r.1, r.2)
  | _ + 1, _ => none

/-- INIT's operand words (R126). -/
def buildInit (a : BitVec 8) : List Word → Option Instr
  | [] => none
  | gain :: ws =>
    match splitFilters Config.nBands ws with
    | some (filters, [sbrGain, attack, threshold, knee, lookaheadMs, rmsTimeMs, fps]) =>
      some (.init
        { qualityMode := a.extractLsb' 0 2, sbrEnabled := a.getLsbD 2, limiterEnabled := a.getLsbD 3,
          detectorMode := detOfBit (a.getLsbD 4), gain := ofWord gain, filters := filters, sbrGain := ofWord sbrGain,
          limiter := limiterOfWords attack threshold knee lookaheadMs rmsTimeMs, fps := ofWord fps })
    | _ => none

/-- The packet of a row from its `a` byte and its operand words (R122 to R124). -/
def build (op : Op) (a : BitVec 8) (ws : List Word) : Option Instr :=
  match op, ws with
  | .init, ws => buildInit a ws
  | .modf, [f, g, q] => some (.modf a (filterOfWords f g q))
  | .modg, [g] => some (.modg (ofWord g))
  | .rstf, [] => some .rstf
  | .setq, [] => some (.setq (a.extractLsb' 0 2))
  | .setx, [g] => some (.setx (a.getLsbD 0) (ofWord g))
  | .setl, [at_, th, kn, la, rm] => some (.setl (a.getLsbD 0) (detOfBit (a.getLsbD 1)) (limiterOfWords at_ th kn la rm))
  | .setv, [f] => some (.setv (ofWord f))
  | .proc, ws => some (.proc ⟨a, ws.map ofWord⟩)
  | .aout, ws => some (.aout ⟨a, ws.map ofWord⟩)
  | .tlm, seq :: red :: data => some (.tlm ⟨a.getLsbD 0, seq, ofWord red, data.map ofWord⟩)
  | _, _ => none

/-! ### The decoder -/

/-- Why no packet is read: the words have not all arrived, or one of the three reasons of R132. -/
inductive DecodeError where
  | incomplete
  | unknownOpcode (header : Word)
  | badLength (header : Word)
  | reservedBits (header : Word)
deriving DecidableEq, Repr

/-- The row a header selects, or why none is, in the order of 60_exceptions R303. -/
def headerRow (h : Word) : Except DecodeError Op :=
  match opOf (hdrOp h) with
  | none => .error (.unknownOpcode h)
  | some op =>
    if (opLength op).any (fun n => n != hdrN h) then .error (.badLength h)
    else if hdrA h &&& opReserved op ≠ 0 then .error (.reservedBits h)
    else .ok op

/-- One packet of any row from the head of a word sequence, with the words after it. -/
def decode : List Word → Except DecodeError (Instr × List Word)
  | [] => .error .incomplete
  | h :: ws =>
    match headerRow h with
    | .error e => .error e
    | .ok op =>
      match splitWords (hdrN h) ws with
      | none => .error .incomplete
      | some (ops, rest) =>
        match build op (hdrA h) ops with
        | none => .error (.badLength h)
        | some i => .ok (i, rest)

/-- A serialised word, least significant byte first (20_memory R100). -/
def wordsOfBytes : List Byte → List Word
  | b0 :: b1 :: b2 :: b3 :: bs => (b3 ++ b2 ++ b1 ++ b0) :: wordsOfBytes bs
  | _ => []

/-- The four bytes of a word, least significant first (R100). -/
def bytesOfWord (w : Word) : List Byte :=
  [w.extractLsb' 0 8, w.extractLsb' 8 8, w.extractLsb' 16 8, w.extractLsb' 24 8]

/-- `decode` on a serialised stream. -/
def decodeBytes (bs : List Byte) : Except DecodeError (Instr × List Word) := decode (wordsOfBytes bs)

/-! ### The encoder -/

def encodeFilter (p : FilterParams) : List Word := [toWord p.frequency, toWord p.gain, toWord p.q]

def encodeLimiter (p : LimiterParams) : List Word :=
  [toWord p.attack, toWord p.threshold, toWord p.knee, toWord p.lookaheadMs, toWord p.rmsTimeMs]

/-- The `a` byte of a packet (R124). -/
def encodeA : Instr → BitVec 8
  | .init p => p.qualityMode.setWidth 8 ||| byteOfBit p.sbrEnabled 2 ||| byteOfBit p.limiterEnabled 3
      ||| byteOfBit (bitOfDet p.detectorMode) 4
  | .modf index _ => index
  | .modg _ => 0
  | .rstf => 0
  | .setq mode => mode.setWidth 8
  | .setx enabled _ => byteOfBit enabled 0
  | .setl enabled det _ => byteOfBit enabled 0 ||| byteOfBit (bitOfDet det) 1
  | .setv _ => 0
  | .proc p => p.nch
  | .aout p => p.nch
  | .tlm p => byteOfBit p.sbrActive 0

/-- The operand words of a packet, in the order of R122, R126, R128 and R129. -/
def encodeOperands : Instr → List Word
  | .init p => toWord p.gain :: p.filters.flatMap encodeFilter
      ++ (toWord p.sbrGain :: encodeLimiter p.limiter ++ [toWord p.fps])
  | .modf _ p => encodeFilter p
  | .modg gain => [toWord gain]
  | .rstf => []
  | .setq _ => []
  | .setx _ gain => [toWord gain]
  | .setl _ _ p => encodeLimiter p
  | .setv fps => [toWord fps]
  | .proc p => p.samples.map toWord
  | .aout p => p.samples.map toWord
  | .tlm p => p.seq :: toWord p.red :: p.data.map toWord

/-- The row of a packet. -/
def opOfInstr : Instr → Op
  | .init _ => .init
  | .modf _ _ => .modf
  | .modg _ => .modg
  | .rstf => .rstf
  | .setq _ => .setq
  | .setx _ _ => .setx
  | .setl _ _ _ => .setl
  | .setv _ => .setv
  | .proc _ => .proc
  | .aout _ => .aout
  | .tlm _ => .tlm

/-- The words of a packet: its header and its operands (R120, R121). -/
def encode (i : Instr) : List Word :=
  mkHeader (opCode (opOfInstr i)) (encodeA i) (encodeOperands i).length :: encodeOperands i

/-! ### Validity (R131), and the control port (R130, R132) -/

/-- The position of the first NaN operand, in the order of the operand words.
DESIGN CHOICE (log 34): R300 records one operand position with `NanOperand`, and neither it nor R131 nor R303, which
orders the reasons, says which where several operands are NaN. -/
def firstNan : List V → Option Nat
  | [] => none
  | v :: vs => if isNaN v then some 0 else (firstNan vs).map (· + 1)

def nanReason (op : Op) (ws : List V) : Option IgnoreReason := (firstNan ws).map (.nanOperand op)

/-- The validity of a gain that has no clamp: NaN first, then an infinity (R131, R303). Its one operand has position 0
(log 13). -/
def gainReason (op : Op) (g : V) : Option IgnoreReason :=
  if isNaN g then some (.nanOperand op 0) else if isFinite g then none else some (.nonFiniteGain op)

/-- Why a matched packet is not valid (R131), the first reason in the order of R303. INIT is never invalid as a
whole, and the other rows have nothing that R131 judges. -/
def invalidReason : Instr → Option IgnoreReason
  | .init _ => none
  | .modf index p =>
    if Config.nBands ≤ index.toNat then some (.badIndex index) else nanReason .modf [p.frequency, p.gain, p.q]
  | .modg gain => gainReason .modg gain
  | .rstf => none
  | .setq mode => if mode = 3 then some (.badMode mode) else none
  | .setx _ gain => gainReason .setx gain
  | .setl _ _ p => nanReason .setl [p.attack, p.threshold, p.knee, p.lookaheadMs, p.rmsTimeMs]
  | .setv fps => nanReason .setv [fps]
  | .proc _ => none
  | .aout _ => none
  | .tlm _ => none

/-- The reason a header that selects no control row is ignored for (R132). -/
def errorReason (h : Word) : DecodeError → IgnoreReason
  | .incomplete => .badLength h
  | .unknownOpcode g => .unknownOpcode g
  | .badLength g => .badLength g
  | .reservedBits g => .reservedBits g

/-- True of the headers whose opcode R122 assigns on `CTRL`. -/
def ctrlHeader (h : Word) : Bool := (opOf (hdrOp h)).any opIsCtrl

/-- R130 and R132: the outcome of a header and its `n` operand words on `CTRL`. The opcodes of the other ports are
unknown here like any other. -/
def decodeCtrl (h : Word) (ops : List Word) : CtrlOutcome :=
  if ctrlHeader h then
    match decode (h :: ops) with
    | .error e => .ignoreRaw h (errorReason h e)
    | .ok (i, _) =>
      match invalidReason i with
      | none => .apply i
      | some r => .ignorePacket i r
  else .ignoreRaw h (.unknownOpcode h)

/-- `decodeStream` with fuel: at most `k` packets. -/
def decodeStreamFuel : Nat → List Word → List CtrlOutcome × List Word
  | 0, ws => ([], ws)
  | _ + 1, [] => ([], [])
  | k + 1, h :: ws =>
    match splitWords (hdrN h) ws with
    | none => ([], h :: ws)
    | some (ops, rest) =>
      let r := decodeStreamFuel k rest
      (decodeCtrl h ops :: r.1, r.2)

/-- R130: the control decoder on a whole word sequence: its outcomes, and the words of the packet still arriving.
Every packet has at least its header word, so there are no more packets than words. -/
def decodeStream (ws : List Word) : List CtrlOutcome × List Word := decodeStreamFuel ws.length ws

/-! ### The audio port (R133) -/

/-- R133: the channel count is 1 or 2 and `n` is the channel count times BLOCK. -/
def audioFits (block : Nat) (nch : BitVec 8) (n : Nat) : Bool := (nch == 1 || nch == 2) && n == nch.toNat * block

/-- What stands at port `AIN`: a packet still arriving, a packet to process, or words that R133 refuses. -/
inductive AinStatus where
  | wait
  | bad
  | packet (p : AudioPacket)
deriving DecidableEq, Repr

def ainStatus (block : Nat) : List Word → AinStatus
  | [] => .wait
  | h :: ws =>
    if hdrOp h = opCode .proc && audioFits block (hdrA h) (hdrN h) then
      match splitWords (hdrN h) ws with
      | none => .wait
      | some (samples, _) => .packet ⟨hdrA h, samples.map ofWord⟩
    else .bad

/-! ### The opcode table's words -/

/-- Word `k` of an instruction whose bits are `w`, bit 0 of word 0 the least significant. -/
def tableWord (w k : Nat) : Word := BitVec.ofNat 32 (w >>> (32 * k))

/-- The words of an instruction whose first `nbits` bits are `w` and whose other bits are 0: its header and as many
operand words as the header counts. -/
def tableWords (nbits w : Nat) : List Word :=
  let v := w % 2 ^ nbits
  tableWord v 0 :: (List.range (hdrN (tableWord v 0))).map fun k => tableWord v (k + 1)

/-- The instruction the decoder reads from bits numbered as spec/opcode_table.json numbers them. -/
def decodeTableWord (nbits w : Nat) : Option Instr :=
  match decode (tableWords nbits w) with
  | .error _ => none
  | .ok (i, _) => some i

end Sys2Proof
end

