-- ==== Sys2Proof/Machine/Memory.lean ====
section
/-! DEFINITION. The writable memory spaces SB, DL and TLM (20_memory R90): element-indexed, all `+0` at reset. A space
is the list of its elements that are not `+0`, by strictly rising index, so equal spaces are equal lists. -/

namespace Sys2Proof.Machine

/-- A memory space: (index, element) pairs. -/
abbrev Mem := List (Nat × V)

/-- What an unlisted element reads as: the reset contents of every writable space (R90). -/
def memDefault : V := posZero

/-- `MemRead(S, i)` (00_scope R13). -/
def memRead : Mem → Nat → V
  | [], _ => memDefault
  | (a, v) :: m, i => if a = i then v else memRead m i

/-- The cells of consecutive elements from index `base`, those that are not the default. -/
def cellsFrom : Nat → List V → Mem
  | _, [] => []
  | base, v :: vs => if v = memDefault then cellsFrom (base + 1) vs else (base, v) :: cellsFrom (base + 1) vs

/-- `MemWrite` of consecutive elements from index `base`: the elements below, the new ones, the elements above. -/
def memStore (m : Mem) (base : Nat) (vs : List V) : Mem :=
  m.filter (fun c => c.1 < base) ++ cellsFrom base vs ++ m.filter (fun c => base + vs.length ≤ c.1)

/-- `MemWrite(S, i, v)` (R13). -/
def memWrite (m : Mem) (i : Nat) (v : V) : Mem := memStore m i [v]

/-- The elements moved `k` toward index 0, the lowest `k` discarded (the first loop of 43_spectrum R242). -/
def memShift (m : Mem) (k : Nat) : Mem := (m.filter fun c => k ≤ c.1).map fun c => (c.1 - k, c.2)

/-- Elements `0 .. n-1` in order. -/
def memElems (m : Mem) (n : Nat) : List V := (List.range n).map (memRead m)

/-- The canonical form: strictly rising indices below `bound`, no element equal to the default. -/
def memWf (bound : Nat) : Mem → Bool
  | [] => true
  | (a, v) :: m => decide (a < bound) && v != memDefault && m.all (fun c => decide (a < c.1)) && memWf bound m

end Sys2Proof.Machine
end

