-- ==== Sys2Proof/Machine/Components.lean ====
section
/-! DEFINITION. The components of the state (10_state R42 to R55): plain records of registers and memory spaces, with
the accessors of what there is one of per channel. -/

namespace Sys2Proof.Machine

/-- One value per channel (`NCH_MAX` = 2, 00_scope R5). -/
structure Stereo (α : Type) where
  ch0 : α
  ch1 : α
deriving DecidableEq, Repr

/-- Element `[c]`. -/
def chGet {α : Type} (x : Stereo α) : Chan → α
  | .c0 => x.ch0
  | .c1 => x.ch1

/-- `[c] <- v`. -/
def chSet {α : Type} (x : Stereo α) : Chan → α → Stereo α
  | .c0, v => { x with ch0 := v }
  | .c1, v => { x with ch1 := v }

/-- What a stage of the datapath gives for one sample or frame: its output, its registers and the events it raises. -/
structure StageOut (β α : Type) where
  out : β
  st : α
  ev : List Event

/-- `KIND(i)` (R6). -/
inductive Kind where
  | lowshelf | peaking | highshelf
deriving DecidableEq, Repr

/-- `fb.qmode` (R43): the register's three legal values 0, 1 and 2 (R127). -/
inductive QualityMode where
  | efficient | quality | hifi
deriving DecidableEq, Repr

/-- A row of the coefficient file (R44). -/
structure CoefRow where
  b0 : V
  b1 : V
  b2 : V
  a1 : V
  a2 : V
deriving DecidableEq, Repr

/-- A section's parameter registers (R42) and its coefficient row (R44). -/
structure Section where
  f : V
  g : V
  q : V
  row : CoefRow
deriving DecidableEq, Repr

/-- A section's filter state in one channel (R45): the last two inputs and the last two outputs. -/
structure Biquad where
  x1 : V
  x2 : V
  y1 : V
  y2 : V
deriving DecidableEq, Repr

/-- The FilterBank (R42 to R45). -/
structure FilterBank where
  sections : Vector Section Config.nBands
  qmode : QualityMode
  hist : Stereo (Vector Biquad Config.nBands)
deriving DecidableEq, Repr

/-- The DynamicsProcessor: configuration (R47), derived registers (R48; `delay` is `dyn.D`), runtime registers (R49)
and the delay line `DL` (20_memory R92). -/
structure Dynamics where
  enabled : Bool
  thresholdLinear : V
  kneeDb : V
  ratio : V
  attackSec : V
  releaseSec : V
  lookaheadMs : V
  detectorMode : DetectorMode
  rmsWindowMs : V
  kA : V
  kR : V
  kRms : V
  delay : Nat
  g : V
  ms : V
  wr : Nat
  minRed : V
  dl : Stereo Mem
deriving DecidableEq, Repr

/-- The exciter's synthesis state in one channel (R51). -/
structure ExcChan where
  envFast : V
  envSlow : V
  tail : V
  hpX1 : V
  hpY1 : V
  nzHp : V
  nzX1 : V
deriving DecidableEq, Repr

/-- The HarmonicExciter (R50 to R52). -/
structure Exciter where
  enabled : Bool
  userGain : V
  ch : Stereo ExcChan
  active : Bool
  hold : BitVec 32
  actGain : V
  rng : Word
deriving DecidableEq, Repr

/-- The SpectrumAnalyzer: configuration (R53), sample counter (R54) and window `SB` (20_memory R91). -/
structure Spectrum where
  fps : V
  fpr : V
  acc : BitVec 32
  sb : Mem
deriving DecidableEq, Repr

/-- The telemetry registers (R55) and the memory `TLM` (20_memory R95). -/
structure Telemetry where
  seq : BitVec 32
  red : V
  sbrActive : Bool
  mem : Mem
deriving DecidableEq, Repr

end Sys2Proof.Machine
end

