-- ==== Sys2Proof/Machine/Derived.lean ====
section
/-! DEFINITION. What follows from the straps and the tables (00_scope R5 to R9, 70 R331), and the pure derivations of
registers: the coefficient derivation (40_filterbank R153 to R158) and the derived limiter registers (41_dynamics
R181). -/

namespace Sys2Proof.Machine

/-! ### Parameters fixed by the straps (R331) -/

/-- `FSf` (R5). -/
def fsf (p : Params) : V := toF p.fs
/-- `F_HI = FSf/2.0 - 1.0` (R7). -/
def fHi (p : Params) : V := fHiOf p.fs
/-- 1000.0, milliseconds in a second. -/
def thousand : V := Config.lit 1000
/-- A time in milliseconds as a number of frames, before rounding: `(t * FSf) / 1000.0` (R8, R181). -/
def msFrames (p : Params) (t : V) : V := fDiv (fMul t (fsf p)) thousand
/-- `DMAX` (R8). -/
def dMax (p : Params) : Nat := rnd (msFrames p Config.laMaxMs)
/-- `LA_CAP` (R8). -/
def laCap (p : Params) : Nat := dMax p + 1
/-- `HOLD_SAMPLES` (R9). -/
def holdSamples (p : Params) : Nat := Config.holdSec * p.fs
/-- `UP_STEP` and `DOWN_STEP` (42_exciter R211). -/
def upStep (p : Params) : V := fDiv one (fMul Config.rampUpSec (fsf p))
def downStep (p : Params) : V := fDiv one (fMul Config.rampDownSec (fsf p))

/-- R331: the straps with which an instance has steps (`FS` 8000 to 384000, `BLOCK` 1 to `F`, `CQ_DEPTH` at least 1). -/
def strapsLegal (p : Params) : Bool :=
  decide (Config.fsMin ≤ p.fs) && decide (p.fs ≤ Config.fsMax) && decide (1 ≤ p.block)
    && decide (p.block ≤ Config.fftSize) && decide (1 ≤ p.cqDepth)

/-- `KIND(i)` (R6). -/
def kindOf (i : Nat) : Kind :=
  if i = 0 then .lowshelf else if i + 1 = Config.nBands then .highshelf else .peaking

/-- `QSCALE` (R6). -/
def qScale : QualityMode → V
  | .efficient => Config.qScaleEfficient
  | .quality => Config.qScaleQuality
  | .hifi => Config.qScaleHifi

/-- The mode of SETQ's field (R127); 3 is no mode. -/
def modeOf (m : BitVec 2) : Option QualityMode :=
  if m = 0 then some .efficient else if m = 1 then some .quality else if m = 2 then some .hifi else none

/-- The register's two bits (R43). -/
def modeBits : QualityMode → BitVec 2
  | .efficient => 0
  | .quality => 1
  | .hifi => 2

/-! ### The coefficient derivation (40_filterbank section 2) -/

/-- R154: the intermediates. -/
structure CoefMid where
  cw : V
  alpha : V
  bigA : V
deriving DecidableEq, Repr

/-- 40.0, the divisor of R154's exponent. -/
def forty : V := Config.lit 40

def coefMid (p : Params) (f qe g : V) : CoefMid :=
  let w0 := w0Of p.fs f
  { cw := fCos w0, alpha := fDiv (fSin w0) (fMul two qe), bigA := fPow10 (fDiv g forty) }

/-- The six raw coefficients. -/
structure RawCoef where
  b0 : V
  b1 : V
  b2 : V
  a0 : V
  a1 : V
  a2 : V
deriving DecidableEq, Repr

/-- R155. -/
def lowshelfRaw (m : CoefMid) : RawCoef :=
  let ap := fAdd m.bigA one
  let am := fSub m.bigA one
  let sq := fMul (fMul two (fSqrt m.bigA)) m.alpha
  let apC := fMul ap m.cw
  let amC := fMul am m.cw
  { b0 := fMul m.bigA (fAdd (fSub ap amC) sq)
    b1 := fMul (fMul two m.bigA) (fSub am apC)
    b2 := fMul m.bigA (fSub (fSub ap amC) sq)
    a0 := fAdd (fAdd ap amC) sq
    a1 := fMul negTwo (fAdd am apC)
    a2 := fSub (fAdd ap amC) sq }

/-- R156. -/
def highshelfRaw (m : CoefMid) : RawCoef :=
  let ap := fAdd m.bigA one
  let am := fSub m.bigA one
  let sq := fMul (fMul two (fSqrt m.bigA)) m.alpha
  let apC := fMul ap m.cw
  let amC := fMul am m.cw
  { b0 := fMul m.bigA (fAdd (fAdd ap amC) sq)
    b1 := fMul (fMul negTwo m.bigA) (fAdd am apC)
    b2 := fMul m.bigA (fSub (fAdd ap amC) sq)
    a0 := fAdd (fSub ap amC) sq
    a1 := fMul two (fSub am apC)
    a2 := fSub (fSub ap amC) sq }

/-- R157. -/
def peakingRaw (m : CoefMid) : RawCoef :=
  let aA := fMul m.alpha m.bigA
  let aoA := fDiv m.alpha m.bigA
  { b0 := fAdd one aA
    b1 := fMul negTwo m.cw
    b2 := fSub one aA
    a0 := fAdd one aoA
    a1 := fMul negTwo m.cw
    a2 := fSub one aoA }

def rawCoef : Kind → CoefMid → RawCoef
  | .lowshelf, m => lowshelfRaw m
  | .peaking, m => peakingRaw m
  | .highshelf, m => highshelfRaw m

/-- R158: five divisions by `a0`. -/
def normalise (r : RawCoef) : CoefRow :=
  { b0 := fDiv r.b0 r.a0, b1 := fDiv r.b1 r.a0, b2 := fDiv r.b2 r.a0, a1 := fDiv r.a1 r.a0, a2 := fDiv r.a2 r.a0 }

/-- R158: the flag `ok`. -/
def rowOk (c : CoefRow) : Bool :=
  isFinite c.b0 && isFinite c.b1 && isFinite c.b2 && isFinite c.a1 && isFinite c.a2

/-- `Coef(kind, f, qe, g)` (R153): the row; its flag is `rowOk` of it. -/
def coef (p : Params) (kind : Kind) (f qe g : V) : CoefRow := normalise (rawCoef kind (coefMid p f qe g))

/-! ### The derived limiter registers -/

/-- `DynDerive()` (41_dynamics R181). -/
def dynDerive (p : Params) (d : Dynamics) : Dynamics :=
  { d with
    kA := kcoef (fMul d.attackSec (fsf p))
    kR := kcoef (fMul d.releaseSec (fsf p))
    kRms := kcoef (msFrames p d.rmsWindowMs)
    delay := min (rnd (msFrames p d.lookaheadMs)) (dMax p) }

/-- `DynClear()` (41_dynamics R182). -/
def dynClear (d : Dynamics) : Dynamics :=
  { d with g := one, ms := posZero, wr := 0, minRed := one, dl := ⟨[], []⟩ }

end Sys2Proof.Machine
end

