-- ==== Sys2Proof/Machine/ResetValues.lean ====
section
/-! DEFINITION. The components at reset (70_reset_and_hazards R332), for any straps. -/

namespace Sys2Proof.Machine

/-- A section at its reset parameters, its row derived for the quality mode (40_filterbank R151, R332). -/
def flatSection (p : Params) (mode : QualityMode) (i : Fin Config.nBands) : Section :=
  let f := clamp Config.center[i] Config.fLo (fHi p)
  { f := f, g := posZero, q := Config.qDefault
    row := coef p (kindOf i.val) f (fMul Config.qDefault (qScale mode)) posZero }

/-- R332: flat sections, mode `quality`, zero filter state. -/
def fbReset (p : Params) : FilterBank :=
  let zero : Vector Biquad Config.nBands := Vector.replicate Config.nBands ⟨posZero, posZero, posZero, posZero⟩
  { sections := Vector.ofFn (flatSection p .quality), qmode := .quality, hist := ⟨zero, zero⟩ }

/-- R332: limiter off, its derived registers from its reset configuration (R48). -/
def dynReset (p : Params) : Dynamics :=
  dynDerive p
    { enabled := false
      thresholdLinear := Config.lit 89 100
      kneeDb := posZero
      ratio := Config.ratio
      attackSec := Config.lit 5 1000
      releaseSec := Config.relSec
      lookaheadMs := posZero
      detectorMode := .peak
      rmsWindowMs := Config.lit 10
      kA := posZero
      kR := posZero
      kRms := posZero
      delay := 0
      g := one
      ms := posZero
      wr := 0
      minRed := one
      dl := ⟨[], []⟩ }

def excChanReset : ExcChan := ⟨posZero, posZero, posZero, posZero, posZero, posZero, posZero⟩

/-- R332: exciter off, synthesis state zero, the generator at its seed. -/
def excReset : Exciter :=
  { enabled := false, userGain := one, ch := ⟨excChanReset, excChanReset⟩, active := false, hold := 0
    actGain := posZero, rng := Config.rngSeed }

/-- 30.0 frames per second, the reset value of `spec.fps` (R53, R332). -/
def fpsReset : V := Config.lit 30

def specReset (p : Params) : Spectrum :=
  { fps := fpsReset, fpr := fDiv (fsf p) fpsReset, acc := 0, sb := [] }

def tlmReset : Telemetry := { seq := 0, red := posZero, sbrActive := false, mem := [] }

end Sys2Proof.Machine
end

