-- ==== Sys2Proof/Machine/State.lean ====
section
/-! DEFINITION. The state of one block (10_state R40), with the ports of 20_memory section 2, the straps latched at
reset (70 R331), and the model's own fields: what the host does next and the ghost history of events. -/

namespace Sys2Proof.Machine

structure State where
  /-- FS, BLOCK and CQ_DEPTH, latched at reset (R331; log 9). -/
  par : Params
  /-- The control queue (R56). -/
  cq : List CtrlOutcome
  /-- FilterBank (R42 to R45). -/
  fb : FilterBank
  /-- Master gain (R46). -/
  gain : V
  /-- DynamicsProcessor (R47 to R49, DL). -/
  dyn : Dynamics
  /-- HarmonicExciter (R50 to R52). -/
  exc : Exciter
  /-- SpectrumAnalyzer (R53, R54, SB). -/
  spec : Spectrum
  /-- Telemetry registers (R55, TLM). -/
  tlm : Telemetry
  /-- The words of the control packet still arriving on CTRL (R97, R130; log 2). -/
  ctrlBuf : List Word
  /-- The words taken on AIN for the PROC packet waiting (R98; log 2). -/
  ainBuf : List Word
  /-- The AOUT packet the host has not taken yet (R98). -/
  aout : Option AudioPacket
  /-- The holding register of port TLMO (R99). -/
  tlmo : Option TlmPacket
  /-- The words port AOUT has handed to the host (the model's own; log 5). -/
  aoutSent : List Word
  /-- The words port TLMO has handed to the host (the model's own; log 5). -/
  tlmSent : List Word
  /-- The ghost history of events, oldest first (R14, R300; log 13). -/
  events : List Event
  /-- What the host does next, in order (the model's own; log 1). -/
  host : List HostMove
deriving DecidableEq, Repr

/-- The only way a step faults. -/
inductive Fault where
  /-- Raised by `step` when FS, BLOCK or CQ_DEPTH is outside its range: "a model gives such an instance no steps"
  (70 R331, 93 U8). Safe: nothing is claimed of such an instance. -/
  | illegalInstance
deriving DecidableEq, Repr

/-- The reasons a step has no meaning. -/
inductive Refusal where
  /-- Raised by a refused arm of `exec`, for an instruction that has no meaning yet; there is none. Safe. -/
  | notModelled (mnemonic : String)
  /-- Raised by PROC, and at port AIN, for a submission that R133 refuses: "a model gives such a submission no
  meaning" (30_encoding R133, 93 U7). Safe: "the refusal errs toward unprovable". -/
  | malformedAudio
deriving DecidableEq, Repr

/-- The state after a reset with the given straps sampled (70 R330 to R332). -/
def State.resetWith (p : Params) : State :=
  { par := p
    cq := []
    fb := fbReset p
    gain := one
    dyn := dynReset p
    exc := excReset
    spec := specReset p
    tlm := tlmReset
    ctrlBuf := []
    ainBuf := []
    aout := none
    tlmo := none
    aoutSent := []
    tlmSent := []
    events := []
    host := [] }

/-- The machine right after reset, at the default straps (R5). -/
def State.reset : State := State.resetWith Config.defaults

end Sys2Proof.Machine
end

