-- ==== Sys2Proof/Machine/Ops.lean ====
section
/-! DEFINITION. The named operations over the state: raising an event (what this block has in place of taking an
exception, 60_exceptions R300, R306), the four ports (20_memory R96 to R99) and the reset (70 R330). -/

namespace Sys2Proof.Machine

/-! ### Events -/

/-- `raise` (R14): the events are recorded, in order, and nothing else happens. -/
def raise (s : State) (es : List Event) : State := { s with events := s.events ++ es }

/-- `raise CmdIgnored(reason)` for a packet, or a part of INIT, that is not applied (R131, R132). -/
def ignore (s : State) (r : IgnoreReason) : State := raise s [.cmdIgnored r]

/-- The event of `san` (R22), if the value is not finite. -/
def sanEvent (site : Site) (c : Option Chan) (t : Nat) (v : V) : List Event :=
  if isFinite v then [] else [.sampleReplaced site c t]

/-! ### Port CTRL (R97) -/

/-- CTRL is ready while `cq` has room. -/
def ctrlReady (s : State) : Bool := decide (s.cq.length < s.par.cqDepth)

/-- A word taken on CTRL: with its packet's last word, the packet's outcome joins `cq` as one action (R97, R280
`HostAppend`); before it, the word waits with the others of its packet. -/
def takeCtrlWord (s : State) (w : Word) : State :=
  match s.ctrlBuf ++ [w] with
  | [] => s
  | h :: ops =>
    if ops.length < hdrN h then { s with ctrlBuf := h :: ops }
    else { s with ctrlBuf := [], cq := s.cq ++ [decodeCtrl h ops] }

/-! ### Port AIN (R98) -/

/-- AIN is ready while the packet it holds is still arriving, but not before the last AOUT packet has been delivered
(R98). -/
def ainReady (s : State) : Bool := s.aout.isNone && ainStatus s.par.block s.ainBuf == .wait

def takeAinWord (s : State) (w : Word) : State := { s with ainBuf := s.ainBuf ++ [w] }

/-! ### Ports AOUT and TLMO -/

/-- `deliver AOUT(nch, out)` (44_orchestrator R273): the packet stands at port AOUT. -/
def deliverAout (s : State) (p : AudioPacket) : State := { s with aout := some p }

/-- `publish the TLM packet` (43_spectrum R250): it replaces, whole, a packet the host has not taken (R99). -/
def publishTlm (s : State) (p : TlmPacket) : State := { s with tlmo := some p }

/-- Port AOUT hands a packet to the host, word by word (R96), and is then free for the next (R98). -/
def handAout (s : State) (p : AudioPacket) : State :=
  { s with aout := none, aoutSent := s.aoutSent ++ encode (.aout p) }

/-- Port TLMO hands a packet to the host; the holding register is then empty and nothing else changes (R99, R305). -/
def handTlm (s : State) (p : TlmPacket) : State :=
  { s with tlmo := none, tlmSent := s.tlmSent ++ encode (.tlm p) }

/-- The host reads the packet at TLMO and leaves it there: it may "read it twice" (R281). -/
def readTlm (s : State) : State :=
  match s.tlmo with
  | none => s
  | some p => { s with tlmSent := s.tlmSent ++ encode (.tlm p) }

/-! ### Reset (70 R330, R331) -/

/-- The reset signal with the straps sampled: every element of the block takes its reset value. The host is not
reset: what it has received and what it does next are its own (log 18). -/
def resetBlock (s : State) (straps : Params) : State :=
  { State.resetWith straps with aoutSent := s.aoutSent, tlmSent := s.tlmSent, host := s.host }

end Sys2Proof.Machine
end

