-- ==== Sys2Proof/Machine/Flags.lean ====
section
/-! DEFINITION. The one-bit state elements (10_state R57). The block has no arithmetic condition codes; each flag is
computed where its rule says, from these. -/

namespace Sys2Proof.Machine

/-- The 0 to 1 change of `dyn.enabled` at which SETL clears the limiter's runtime state (41_dynamics R180). -/
def enableEdge (was now : Bool) : Bool := !was && now

/-- `tlm.sbrActive` at an emit (43_spectrum R250): the exciter is enabled and active. -/
def sbrFlag (e : Exciter) : Bool := e.enabled && e.active

/-- The condition under which the ramp rises (42_exciter R213). -/
def rampUp (e : Exciter) : Bool := e.enabled && e.active

/-- The condition under which the exciter synthesises (42_exciter R214): enabled and `exc.actGain > 0.0`. -/
def excRuns (e : Exciter) : Bool := e.enabled && fLt posZero e.actGain

end Sys2Proof.Machine
end

