-- ==== Sys2Proof/Machine/Operands.lean ====
section
/-! DEFINITION. Operand forms: a numeric operand with a clamp (30_encoding R131, 00_scope R23), the frames of a planar
audio block (R128), and the sections by index. -/

namespace Sys2Proof.Machine

/-- `raise ParamClamped(name)` if the clamp changes the operand (R23). -/
def clampEvent (name : ParamName) (v lo hi : V) : List Event :=
  if clamp v lo hi = v then [] else [.paramClamped name v]

/-- MODF's operands after their clamps (40_filterbank R150). -/
def clampFilter (p : Params) (x : FilterParams) : FilterParams :=
  { frequency := clamp x.frequency Config.fLo (fHi p)
    gain := clamp x.gain Config.gLo Config.gHi
    q := clamp x.q Config.qLo Config.qHi }

def clampFilterEvents (p : Params) (x : FilterParams) : List Event :=
  clampEvent .frequency x.frequency Config.fLo (fHi p) ++ clampEvent .gain x.gain Config.gLo Config.gHi
    ++ clampEvent .q x.q Config.qLo Config.qHi

/-- SETL's operands after their clamps (41_dynamics R180). -/
def clampLimiter (x : LimiterParams) : LimiterParams :=
  { attack := clamp x.attack Config.attMin Config.attMax
    threshold := clamp x.threshold Config.thMin Config.thMax
    knee := clamp x.knee Config.kneeMin Config.kneeMax
    lookaheadMs := clamp x.lookaheadMs Config.laMinMs Config.laMaxMs
    rmsTimeMs := clamp x.rmsTimeMs Config.rmsMinMs Config.rmsMaxMs }

def clampLimiterEvents (x : LimiterParams) : List Event :=
  clampEvent .attack x.attack Config.attMin Config.attMax
    ++ clampEvent .threshold x.threshold Config.thMin Config.thMax
    ++ clampEvent .knee x.knee Config.kneeMin Config.kneeMax
    ++ clampEvent .lookaheadMs x.lookaheadMs Config.laMinMs Config.laMaxMs
    ++ clampEvent .rmsTimeMs x.rmsTimeMs Config.rmsMinMs Config.rmsMaxMs

/-- Two channels, by the packet's channel count (R124). -/
def isStereo (nch : BitVec 8) : Bool := nch == 2

/-- Sample `s[c][t]` of a planar packet (R128); frame `t` of a one-channel packet has no channel 1. -/
def planarFrame (block : Nat) (samples : List V) (t : Nat) : Stereo V :=
  ⟨samples.getD t posZero, samples.getD (block + t) posZero⟩

/-- The frames of a PROC packet, in order. -/
def planarFrames (block : Nat) (samples : List V) : List (Stereo V) :=
  (List.range block).map (planarFrame block samples)

/-- The planar samples of a list of frames (R128). -/
def planarSamples (nch : BitVec 8) (out : List (Stereo V)) : List V :=
  out.map Stereo.ch0 ++ (if isStereo nch then out.map Stereo.ch1 else [])

end Sys2Proof.Machine
end

