-- ==== Sys2Proof/Machine/Harmonic.lean ====
section
/-! DEFINITION. The HarmonicExciter: SETX (42_exciter R210), the activation ramp (R213), the synthesis (R214 to R216)
and the band-limitation detection (R217, R218). -/

namespace Sys2Proof.Machine

/-! ### Control packet -/

/-- SETX (R210). -/
def applySetx (enabled : Bool) (gain : V) (s : State) : State :=
  match invalidReason (.setx enabled gain) with
  | some r => ignore s r
  | none => { s with exc := { s.exc with enabled := enabled, userGain := gain } }

/-- SETX: set the exciter options (R210). -/
def execSetx (enabled : Bool) (gain : V) (s : State) : Host.Outcome State Fault Refusal :=
  .next (applySetx enabled gain s)

/-! ### The activation ramp -/

/-- `EXC.ramp()` (R213): once per frame. -/
def excRamp (p : Params) (e : Exciter) : Exciter :=
  if rampUp e then { e with actGain := fMin one (fAdd e.actGain (upStep p)) }
  else { e with actGain := fMax posZero (fSub e.actGain (downStep p)) }

/-! ### Synthesis -/

/-- The generator's next state (R216): xorshift with shifts 13, 17 and 5. -/
def rngNext (r : Word) : Word :=
  let r := r ^^^ (r <<< 13)
  let r := r ^^^ (r >>> 17)
  r ^^^ (r <<< 5)

/-- 2^-23 (R216). -/
def twoPowNeg23 : V := Config.lit 1 (2 ^ 23)

/-- The noise sample of a generator state (R216): its upper 24 bits mapped to [-1.0, 1.0). -/
def noiseOf (r : Word) : V := fSub (fMul (toF (r.toNat / 2 ^ 8)) twoPowNeg23) one

/-- `1.0 - A_FAST` and `1.0 - A_SLOW`, evaluated once (R214, R19). -/
def oneMinusFast : V := fSub one Config.aFast
def oneMinusSlow : V := fSub one Config.aSlow

/-- A one-pole highpass before its guard, `alpha * ((y1 + x) - x1)` (R214). -/
def highpassRaw (alpha y1 x x1 : V) : V := fMul alpha (fSub (fAdd y1 x) x1)

/-- An envelope follower before its guard, `(a * env) + ((1 - a) * h)` (R214). -/
def envRaw (a oneMinusA env h : V) : V := fAdd (fMul a env) (fMul oneMinusA h)

/-- The trigger (R214). -/
def trigger (envFast envSlow : V) : V := fMax posZero (fSub envFast (fMul Config.trigK envSlow))

/-- The tail (R214): set by a trigger above it, else decaying. -/
def tailNext (tail trig : V) : V := if fLt tail trig then trig else fMul tail Config.tailDecay

/-- The synthesis gain (R214). -/
def synGain (tail : V) : V := fMin one (fMul tail Config.synK)

/-- The makeup gain (R214). -/
def makeup (e : Exciter) : V := fMul (fMul Config.makeupK e.userGain) e.actGain

/-- The synthesis state of a channel after sample `x` with noise `nz` (R214). -/
def excChanNext (k : ExcChan) (x nz : V) : ExcChan :=
  let hpo := sanV (highpassRaw Config.hpAlpha k.hpY1 x k.hpX1)
  let h := fAbs hpo
  let envFast := sanV (envRaw Config.aFast oneMinusFast k.envFast h)
  let envSlow := sanV (envRaw Config.aSlow oneMinusSlow k.envSlow h)
  { envFast := envFast
    envSlow := envSlow
    tail := tailNext k.tail (trigger envFast envSlow)
    hpX1 := x
    hpY1 := hpo
    nzHp := sanV (highpassRaw Config.nzAlpha k.nzHp nz k.nzX1)
    nzX1 := nz }

/-- The output before its guard, from the state `k` after the sample (R214):
`(x + harmonic * synGain * makeup) + noise * synGain * makeup * NZ_MIX`. -/
def excOutRaw (k : ExcChan) (x mk : V) : V :=
  let syn := synGain k.tail
  let harm := fMul (fMul (fAbs k.hpY1) syn) mk
  let fizz := fMul (fMul (fMul k.nzHp syn) mk) Config.nzMix
  fAdd (fAdd x harm) fizz

/-- The events of a synthesised sample, in the order of R214's guards. -/
def excEvents (k : ExcChan) (c : Chan) (t : Nat) (x nz mk : V) : List Event :=
  let n := excChanNext k x nz
  let h := fAbs n.hpY1
  sanEvent .excHighpass (some c) t (highpassRaw Config.hpAlpha k.hpY1 x k.hpX1)
    ++ sanEvent .excEnvFast (some c) t (envRaw Config.aFast oneMinusFast k.envFast h)
    ++ sanEvent .excEnvSlow (some c) t (envRaw Config.aSlow oneMinusSlow k.envSlow h)
    ++ sanEvent .excNoise (some c) t (highpassRaw Config.nzAlpha k.nzHp nz k.nzX1)
    ++ sanEvent .excOut (some c) t (excOutRaw n x mk)

/-- `EXC.process(x, c)` (R214) at frame `t`; the bypass (R215) reads and writes no state. -/
def excProcess (e : Exciter) (c : Chan) (t : Nat) (x : V) : StageOut V Exciter :=
  if excRuns e then
    let r := rngNext e.rng
    let nz := noiseOf r
    let k := chGet e.ch c
    let n := excChanNext k x nz
    let mk := makeup e
    { out := sanV (excOutRaw n x mk), st := { e with ch := chSet e.ch c n, rng := r }, ev := excEvents k c t x nz mk }
  else { out := x, st := e, ev := [] }

/-! ### Detection -/

/-- The real and imaginary parts of one element of the work memories `WRE`, `WIM` (20_memory R94). -/
structure Cplx where
  re : V
  im : V
deriving DecidableEq, Repr

/-- `e(k)` (R217), the value under the square root of 43_spectrum R248. -/
def energy (z : Cplx) : V := fAdd (fMul z.re z.re) (fMul z.im z.im)

/-- A band's edge in bins, `min((hz * F) div FS, F/2)` (R217). -/
def bandEdge (p : Params) (hz : Nat) : Nat := min (hz * Config.fftSize / p.fs) (Config.fftSize / 2)

/-- `Mean(lo, hi)` (R217) of the bins' energies. -/
def bandMean (w : Array Cplx) (lo hi : Nat) : V :=
  let sum := (List.range (hi - lo)).foldl (fun acc k => fAdd acc (energy (w.getD (lo + k) ⟨posZero, posZero⟩))) posZero
  fDiv sum (toF (hi - lo))

/-- The test of R218 on the transform of the emit in progress. -/
def detectPass (p : Params) (w : Array Cplx) : Bool :=
  let rl := bandEdge p Config.refLoHz
  let rh := bandEdge p Config.refHiHz
  let cl := bandEdge p Config.cutLoHz
  let ch := bandEdge p Config.cutHiHz
  let hl := bandEdge p Config.highLoHz
  let hh := bandEdge p Config.highHiHz
  let avgRef := bandMean w rl rh
  decide (rl < rh) && decide (cl < ch) && decide (hl < hh)
    && fLt Config.noiseFloor avgRef
    && fLt (bandMean w hl hh) (fMul Config.rHigh avgRef)
    && fLt (bandMean w cl ch) (fMul Config.rCut avgRef)

/-- The hold and the classification after a passing or a failing frame, `elapsed` frames after the last emit (R218). -/
def holdUpdate (p : Params) (pass : Bool) (elapsed : Nat) (e : Exciter) : Exciter :=
  if pass then { e with active := true, hold := BitVec.ofNat 32 (holdSamples p) }
  else
    let hold := e.hold.toNat - elapsed
    { e with hold := BitVec.ofNat 32 hold, active := if hold = 0 then false else e.active }

/-- `EXC.detect(elapsed)` (R218). -/
def excDetect (p : Params) (w : Array Cplx) (elapsed : Nat) (e : Exciter) : Exciter :=
  holdUpdate p (detectPass p w) elapsed e

end Sys2Proof.Machine
end

