-- ==== Sys2Proof/Machine/Limiter.lean ====
section
/-! DEFINITION. The DynamicsProcessor: SETL (41_dynamics R180), the static curve and the datapath (R183 to R186), and
the reduction meter (R188). -/

namespace Sys2Proof.Machine

/-! ### Control packet -/

/-- The configuration registers SETL writes, before the derived ones (R180). -/
def setlConfig (enabled : Bool) (det : DetectorMode) (x : LimiterParams) (d : Dynamics) : Dynamics :=
  { d with
    attackSec := x.attack
    thresholdLinear := x.threshold
    kneeDb := x.knee
    lookaheadMs := x.lookaheadMs
    rmsWindowMs := x.rmsTimeMs
    detectorMode := det
    enabled := enabled }

/-- SETL (R180): the clamped operands, the derived registers (R181) and, on a 0 to 1 change of `dyn.enabled`, the
clear (R182). -/
def applySetl (enabled : Bool) (det : DetectorMode) (x : LimiterParams) (s : State) : State :=
  match invalidReason (.setl enabled det x) with
  | some r => ignore s r
  | none =>
    let d := dynDerive s.par (setlConfig enabled det (clampLimiter x) s.dyn)
    raise { s with dyn := if enableEdge s.dyn.enabled enabled then dynClear d else d } (clampLimiterEvents x)

/-- SETL: set the limiter options (R180). -/
def execSetl (enabled : Bool) (det : DetectorMode) (x : LimiterParams) (s : State) : Host.Outcome State Fault Refusal :=
  .next (applySetl enabled det x s)

/-! ### The datapath -/

/-- `TargetGain(lev, T)` (R183). -/
def targetGain (lev thr : V) : V :=
  if fLt lev thr then one
  else
    let ex := fSub lev thr
    let lim := fAdd thr (fDiv ex (fAdd one ex))
    fDiv lim lev

/-- The linked magnitude of a frame: `max(|L|, |R|)`, or the one channel's (R184). -/
def linkedMag (stereo : Bool) (x : Stereo V) : V :=
  if stereo then fMax (fAbs x.ch0) (fAbs x.ch1) else fAbs x.ch0

/-- The running mean square before the guard (R184). -/
def meanSquareRaw (d : Dynamics) (m : V) : V := fAdd d.ms (fMul d.kRms (fSub (fMul m m) d.ms))

/-- `Detect` (R184): the level, with `dyn.ms` updated in rms mode only. -/
def detectLevel (stereo : Bool) (t : Nat) (x : Stereo V) (d : Dynamics) : StageOut V Dynamics :=
  let m := linkedMag stereo x
  match d.detectorMode with
  | .peak => ⟨m, d, []⟩
  | .rms =>
    let raw := meanSquareRaw d m
    ⟨fSqrt (sanV raw), { d with ms := sanV raw }, sanEvent .dynMeanSquare none t raw⟩

/-- The smoothed gain before the guard (R185): attack when more reduction is wanted, else release. -/
def gainRaw (d : Dynamics) (gT : V) : V :=
  let k := if fLt gT d.g then d.kA else d.kR
  fAdd d.g (fMul k (fSub gT d.g))

/-- `DL[c][dyn.wr] <- in[c]` for the channels of the frame (R185). -/
def delayWrite (stereo : Bool) (x : Stereo V) (d : Dynamics) : Stereo Mem :=
  { ch0 := memWrite d.dl.ch0 d.wr x.ch0
    ch1 := if stereo then memWrite d.dl.ch1 d.wr x.ch1 else d.dl.ch1 }

/-- The read index of the delay line (20_memory R92, R110). -/
def readIndex (p : Params) (d : Dynamics) : Nat := (d.wr + laCap p - d.delay) % laCap p

/-- `DYN.process` (R185): one frame through the enabled limiter; a one-channel frame has no channel 1. -/
def dynProcess (p : Params) (stereo : Bool) (t : Nat) (x : Stereo V) (d : Dynamics) : StageOut (Stereo V) Dynamics :=
  let lv := detectLevel stereo t x d
  let raw := gainRaw d (targetGain lv.out d.thresholdLinear)
  let g := sanV raw
  let dl := delayWrite stereo x d
  let rd := readIndex p d
  let raw0 := fMul (memRead dl.ch0 rd) g
  let raw1 := fMul (memRead dl.ch1 rd) g
  { out := ⟨sanV raw0, if stereo then sanV raw1 else posZero⟩
    st := { lv.st with g := g, dl := dl, wr := (d.wr + 1) % laCap p, minRed := fMin d.minRed g }
    ev := lv.ev ++ sanEvent .dynGain none t raw ++ sanEvent .dynOut (some .c0) t raw0
      ++ (if stereo then sanEvent .dynOut (some .c1) t raw1 else []) }

/-! ### The reduction meter -/

/-- 20.0, the factor of a level in decibels (R188). -/
def twenty : V := Config.lit 20

/-- The reduction in decibels of a gain ratio, within `RED_FLOOR_DB` and 0 (R188). -/
def reductionDb (m : V) : V :=
  let rd := fMul twenty (fLog10 m)
  let rd := if isNaN rd || fLt rd Config.redFloorDb then Config.redFloorDb else rd
  if fLt posZero rd then posZero else rd

/-- `ReadReduction()` (R188): what the meter reports, and the limiter with the meter reset. -/
def readReduction (d : Dynamics) : V × Dynamics := (reductionDb d.minRed, { d with minRed := one })

end Sys2Proof.Machine
end

