-- ==== Sys2Proof/Machine/Rom.lean ====
section
/-! DEFINITION. The read-only tables (20_memory R93). The data are the integers nearest to 2^95 * cos(2*pi*k/F) for
0 <= k < F/4, computed outside the model in exact integer arithmetic (log 19): enough digits that each rounds to the
value of `V` nearest to the cosine, in binary32 and in binary64. The other entries follow by the symmetries that R93
states. A row holds four entries of 96 bits, the first the most significant. -/

namespace Sys2Proof.Machine

/-- `COS_ROM[0]` to `COS_ROM[127]`. -/
def cosRows0 : List Nat :=
  [0x8000000000000000000000007FFFFD885868CFBB248D38197FFFF62161BB991AF64F173B7FFFE9CB1C416AA9B13B5BAE,
   0x7FFFD8858874074A9818A1BF7FFFC250A6FDE63542C212EC7FFFA72C78BA32EF0BB99C037FFF8718FEB4CD429D08EB03,
   0x7FFF62163A2A49359C71883C7FFF38242C87EEFC76EC70827FFF0942D76BBAEC4B79A8F87FFED5723CA45D6AF540576F,
   0x7FFE9CB25E313ADD34FFFCD77FFE5F033E426B92F9D381DD7FFE1C64DF38BBB1C946D83D7FFDD4D743A5AB1D46C005F7,
   0x7FFD885A6E4B6D5DDA3C81FC7FFD36EE621CE9857663DC927FFCE093223DBA127DF0C0197FFC8548B2022CD0C8716975,
   0x7FFC250F14EF42B8C660C9E37FFBBFE64EBAAFCCC49996847FFB55CE634ADAF44F249C7B7FFAE6C756B6DDD5B363C2F4,
   0x7FFA72D12D4684ADA19B36FB7FF9F9EBEB724E24EDDA4F957FF97C1795E36B247045CB0A7FF8F9543173BEA704C518DE,
   0x7FF871A1C32DDD89AA1476837FF7E500504D0E59C03DB73D7FF7536FDE3D49216679A2637FF6BCF0729B3731F87BE583,
   0x7FF62182133432ECAB2BAA927FF58124C606478948CAF4D07FF4DBD8914030DB0C8EF98D7FF4319D7B415B139DABBC86,
   0x7FF382738A99E28429D54A127FF2CE5AC60A935C9F38FBED7FF215533484E96905F147DF7FF1575CDD2B0FCCF8F6AA1A,
   0x7FF09477C74FE0BD3E904F997FEFCCA3FA76E537804737707FEEFFE17E5454B8225E945C7FEE2E305ACD14EE3AD44A90,
   0x7FED579097F6B96DA7EC781C7FEC7C023E17835F464B08F87FEB9B8555A6612F469E6A1C7FEAB619E74AEE39A2DE81AF,
   0x7FE9CBBFFBDD7274B32324DA7FE8DC779C66E219E215563B7FE7E840D220DD4C80FEAA967FE6EF1BA675AFBEBB7A43DE,
   0x7FE5F10823005054AACAE5207FE4EE06518C60C588D9B4847FE3E6163C162D3B02E153017FE2D937ECCAABEEABC903E8,
   0x7FE1C76B6E077CC58E33B1047FE0B0B0CA5AE8E9DE46AA747FDF95080C83E262CB2C13FA7FDE74713F7203AA705503FE,
   0x7FDD4EEC6E458F41E67F6B057FDC2479A44F6F437483ECD17FDAF518ED1134F2DFEFE7057FD9C0CA543D184BDD6FF385,
   0x7FD8878DE5B5F78EA10F476D7FD74963AD8F56CA8E5061E37FD6064BB80D5F670823909F7FD4BE4611A4DFAA60BFE279,
   0x7FD37152C6FB4A3EE96332E17FD21F71E4E6B5B621FE0B8A7FD0C8A3786DDC0A08D02C2F7FCF6CE78EC81A1C89FA9AD6,
   0x7FCE0C3E355D6F350F0C31667FCCA6A779C67C7C2E8DAFFA7FCB3C2369CC84757B926DD07FC9CCB213696A777552D53D,
   0x7FC8585384C7B22196D5E98D7FC6DF07CC427ED086AF282B7FC560CEF865931066D6290C7FC3DDA917ED500D449D74AE,
   0x7FC2559639C6B501A8CE18A57FC0C8966D0F5EA347ED96167FBF36A9C115868DD2B3D8097FBD9FD0455802ABE6B6F1F8,
   0x7FBC040A0986449E1F5279857FBA63571D80592046D060BE7FB8BDB79156E76CA7D948C77FB7132B754B309D7F325763,
   0x7FB563B2D9CF0F0C8DCEAC297FB3AF4DCF84F5B0CB3AA4D37FB1F5FC673FEF7A3867327F7FB037BEB2039EABD2DB9439,
   0x7FAE7494C1043C33A853DDB57FACAC7EA5A697010AD2C3817FAADF7C71801358E52D38887FA90D8E3656AA2830167B39,
   0x7FA736B40620E85487B3431A7FA55AEDF305EE0AE1BAD20F7FA37A3C0F5D6E0C642CBF1F7FA1949E6DAFACF95CA262F1,
   0x7F9FAA1520B5809A5842E0C17F9DBAA03B584F275C60D9027F9BC63FD0B20E8D3FC8E55D7F99CCF3F40D43B124C81041,
   0x7F97CEBCB8E501B213F18C9D7F95CB9A32E4E928B7AB04F17F93C38C75E927653886EB4B7F91B69395FE75AB3A744647,
   0x7F8FA4AFA762186BFACB89937F8D8DE0BE81DE7E8F401B177F8B7226EFFC205645BE381E7F895182509FBF37253D0091,
   0x7F872BF2F56C24688F8C80AA7F850178F39140660427A4017F82D214606F8A0E04120F587F809DC55197FDCF16C9F0F3,
   0x7F7E648BDCCC1CD2F055E9D57F7C266817FDEC27B87744957F79E35A194FF3E77308C10B7F779B61F7153E5D89924E84,
   0x7F754E7FC7D1572A761A209F7F72FCB3A2384A658F3B9D6B7F70A5FD9D2EA3BCF58CB5D17F6E4A5DCFC96D93A25A4BD7,
   0x7F6BE9D4514E301D97C45CA57F6984613932F07A3242B6BC7F671A049F1E2FCC9B9B17427F64AABE9AE6EA525F519BAA]

/-- `COS_ROM[128]` to `COS_ROM[255]`. -/
def cosRows1 : List Nat :=
  [0x7F62368F44949678209C877F7F5FBD76B45F23EC71E470917F5D3F7502AEFAB0CDD9F61F7F5ABC8A481CFA28B22A3A1D,
   0x7F5834B69D727826DBDB662A7F55A7FA1BA93FF8A55A98207F531654DBEB916F8644A4C37F507FC6F7941FE8B4F33156,
   0x7F4DE450882E1152E9D7B7727F4B43F1A774FD3244AE18D97F489EAA6F54EBA253907B6B7F45F47AF9EA54563BF637E4,
   0x7F43456361821D9705A7B8657F409163C0999B4007B136387F3DD87C31DE8DB9775E58CE7F3B1AACD02F20F11948CA2B,
   0x7F3857F5B699EB511483E7967F359057005DECB4E7EFC7AE7F32C3D0C8EA8D5C81BDE1867F2FF2632BDF9CDD7931B2BF,
   0x7F2D1C0E450D51126AA7D51B7F2A40D23074450875EE06637F2760AF0A4577EADEF6B7DC7F247BA4EEE24BECD0F2CD04,
   0x7F2191B3FADC853143DC43AA7F1EA2DC4AF648B1047C91E97F1BAF1DFC221B1EDEF998ED7F18B6792B82DFC9EBF41DD2,
   0x7F15B8EDF66BD77E0042CC617F12B67C7A609F623F54D9D17F0FAF24D5152FD5D04770017F0CA2E7246DDB4AB5B91C3E,
   0x7F0991C3867F4D1EC8668ECB7F067BBA198E8872D49C0B027F0360CAFC10E6FFDA86FA267F0040F64CAC17EA7173256B,
   0x7EFD1C3C2A361E944DFF2E297EF9F29CB3B5516BEB53ED887EF6C418086058BA576A77567EF390AE479E2D6F226C8E25,
   0x7EF0585F910617EA713B69247EED1B2C045FAEC53328BE957EE9D913C1A2D5977AEE18247EE69216E8F7BBBCFAEE88B1,
   0x7EE346359AB6DB17A4CEED9A7EDFF56FF768F6D06C70F7E07EDC9FC61FC71A162E5D4BF37ED9453834BA96DAB9A91933,
   0x7ED5E5C6575D048DFD639CBE7ED28170A8F83ED7599815517ECF18374B06644D13F0C08B7ECBAA1A5F31D529F0078C2D,
   0x7EC8371A07553200EB71383A7EC4BF36657B5A6F1D8FB9627EC1426F9BDF6BCBBB38BD5F7EBDC0C5CCECBFD63E3D454D,
   0x7EBA3A391B3EEB62B0DF5C677EB6AEC9A9A1BD041D4303EC7EB31E779B113BB520E77F487EAF894312B9A57EA4363DEF,
   0x7EABEF2C33F76E1CB634B2C17EA8503322573DA18C667B1F7EA4AC580195EF16A6ED4A227EA1039AF5A08F1C18F41EDD,
   0x7E9D55FC22945A85F5735ECB7E99A37BACBEBCF7E05B7FF37E95EC19B89D4F7EC434009C7E922FD66ADDD728AC3C7CB6,
   0x7E8E6EB1E85E439AC31DC3937E8AA8AC562CADA57638E2AD7E86DDC5D98755D6BDA22CC17E830DFE97DCA30A88D656A9,
   0x7E7F3956B6CB20F95037D5D07E7B5FCE5C217EC4CB62BE6E7E778165ADDE8D82CC6571F37E739E1CD2313EC63FEC8070,
   0x7E6FB5F3EF78A326527032187E6BC8EB2C43E8C3BA7240447E67D702AF5259CC27DA57A27E63E03A9F935AFBD8800FAB,
   0x7E5FE49324266A1D51F115A77E5BE40C645B1C8740825BE47E57DEA687B11D987BBB30147E53D461B5D82D3230292E07,
   0x7E4FC53E16B01E302EAC16567E4BB13BD248D4DF6148A2C07E47985B10E245726591846C7E437A9BFAEC72744CB5CA6C,
   0x7E3F57FEB9076B39814401347E3B308374034A4ED2B16E0C7E37042A54E033E6A6B4DBB17E32D2F384CE544450847FBC,
   0x7E2E9CDF2D2DDE258E0692A67E2A61ED778F092A2B0446747E26221E8DB21039CA6EDA797E21DD7299872FE7D5C69CD3,
   0x7E1D93E9C52EA4D592B3BC807E1945843AF8AA125EE0E14D7E14F2422565777A122791077E109A23AF254011871E7B9F,
   0x7E0C3D29031830614A19DA497E07DB524C4E6CCE6EAE1FBD7E03749FB6080FF18BC54A237DFF09116BB528EBDE573961,
   0x7DFA98A798F5B9BA92D57EC07DF623626999B588355B2D357DF1A94209A0FEFC48B143AC7DED2A46A53B668904385D2B,
   0x7DE8A67068C8A8B738C864A47DE41DBF80D86C705C971CC17DDF90341A2A4146BE365E047DDAFDCE61AD9DBBDEBAFFF6,
   0x7DD6668E8481DD84F31D74327DD1CA74AFF63FCD8CE52C827DCD29811189E5786A2FF7547DC883B3D6EBCF5E6D26901E,
   0x7DC3D90D2DFADC8BBAEFB3787DBF298D44C5C87B023318EB7DBA7534498B294EE93DC6AB7DB5BC026AB96E09A3D945AD,
   0x7DB0FDF7D6EEDCC2B0E74EAF7DAC3B14BCF990DABFD39B1E7DA773594BD7792DBDED96C37DA2A6C5B2B656430BBBC19F,
   0x7D9DD55A20F3B87BDA5AA3427D98FF16C61CFE3FB0F943537D9423FBD1EF52271A852D1C7D8F44097457A9247B981616]

/-- `COS_ROM[256]` to `COS_ROM[383]`. -/
def cosRows2 : List Nat :=
  [0x7D8A5F3FDD72C0AB10B951B17D85759F3D8D1CD415054EBE7D808727C5230682114D6D007D7B93D9A4E0898253C28BB9,
   0x7D769BB50DA172AC903CC4067D719EBA30714E00A932D4437D6C9CE93E8B64C2A173D39B7D679642695ABB94B6B5D753,
   0x7D628AC5E27A108FA50C45527D5D7A73DBB3D9591358A1B87D58654C8702413828C8B7707D534B50168F27284B750DCC,
   0x7D4E2C7EBCB41BEA0832AF677D4908D8ABFA601223AB58BD7D43E05E171AE216D4CF36EE7D3EB30F30FE3C5B28B3716C,
   0x7D3980EC2CBCB3388FF0CB537D3449F53D9E33069595BB7B7D2F0E2A971A4E20BFBF6C417D29CD8C6CD83AEA99ED2656,
   0x7D24881AF2AED1D1E921BBE47D1F3DD65CA48B4F09E69B907D19EEBEDEEF7DE3784444ED7D149AD4ADF55C1681C3EA23,
   0x7D0F4217FE4B7270218E1C9E7D09E48904B6A57206BA74C37D048227F62B6F8EC4E436B97CFF1AF507CDDF1F2F180882,
   0x7CF9AEF06EF19455DD2EDFA37CF43E1A6119BF30DBAA5EC37CEEC87313F91D698626EDD67CE94DFABD71F8628C77E949,
   0x7CE3CEB193962314228257047CDE4A97CCA6F7F65AEAA1F47CD8C1AD9F1556E9ACA9EF037CD333F34181A31DA39FB078,
   0x7CCDA168EABBC0F5BC342EC37CC80A0ED1C313EC6A20CFD37CC26DE52DC67C744A72F82F7CBCCCEC362455D780DE730C,
   0x7CB72724226A7415407460BE7CB17C8D2A5621BD7FD3BCEA7CABCD2785D41DCAD8E89FEC7CA618F36D00997A944F70F9,
   0x7CA05FF118273622E071509B7C9AA220BFC30307346F15157C94DF829C7E7B2ADEF0447C7C8F1816E7338321C0EB8A1F,
   0x7C894BDDD8EB66DF347E37277C837AD7AADED7831FE870227C7DA5049675E92534C3BB6D7C77CA64D548109E5B89B64B,
   0x7C71EAF8A11C21504B80C8A67C6C06C033E84AEB4F24C1647C661DBBC7D21732352157477C602FEB972E67BC6DF49C5C,
   0x7C5A3D4FDC8173B6564F83FB7C5445E8D27EC59FAE4AAD527C4E49B6B40939083D85B69E7C4848B9BC32F84AA4476EFC,
   0x7C4242F2263D7A4559B54EFD7C3C38602D998011D738B1F47C3629040DE712B9F1285C107C3014DE02F580EB5CCCEB50,
   0x7C29FBEE48C35CA963D6E35A7C23DE351B7E78FCC55D16297C1DBBB2B783E7A1C47A3DA77C179467595FF6B464A0AC28,
   0x7C1168533DCE2E5AD3BB0BAE7C0B3776A1B94E6E023135F97C0501D1C23B4C2068E8413D7BFEC764DC9D4FA2FD54EF5B,
   0x7BF888302E57B1C853B7BF7E7BF24433F511F9A5EF99F3D77BEBFB706EA2DA33C2A2EF427BE5ADE5D9102FE9D9DD6083,
   0x7BDF5B94728EFE5C3983C2C17BD9047C79836DD4E76BCCD57BD2A89E2C80C8EC24287AFE7BCC47F9CA497A1ED2FA7064,
   0x7BC5E28F91CF096310A67FE77BBF785FC23219BAF94A3D7B7BB9096A9AC266C59D468B647BB295B05AFEC24E25582883,
   0x7BAC1D31429511D925F656C47BA59FED91624C30220FC2C27B9F1DE5877276EB3D3DE7877B9897196500A3F91D873B4D,
   0x7B920B896A76EF24FCC883F37B8B7B35D86E7B9AE9DDC3DA7B84E61EEFAF716A39A341B87B7E4C44F130FB0627E73FC8,
   0x7B77ADA81E1942C4A86508BF7B710A48B7BD705B67E20AB77B6A6226FFA1A65AFD85CA297B63B5433778FFA84C858904,
   0x7B5D039DA1258CF4163C8FAD7B564D367EB85230BCCA17AE7B4F920E12714406364DE9B17B48D2249EBF454430DCD244,
   0x7B420D7A66402452674622A97B3B440FABC0989F26C384FD7B3475E4B23C400C05AC7CB17B2DA2F9BCDD9C58CB46FE3B,
   0x7B26CB4F0EFE108C88CE9AC77B1FEEE4EC25DE5CE3CBCE6C7B190DBB980C239391D511647B1227D35696D77205D35E7B,
   0x7B0B3D2C6BDAC8134EE3F2CB7B044DC71C1B97CC28F11CB77AFD59A3ABCBBA893F1C01DE7AF660C25F8C732BA0115586,
   0x7AEF63237C2DD0E364630AF47AE860C746AEAC88870120CD7AE159AE043CA5F1EFEBB4867ADA4DD7FA34214AB1389EA2,
   0x7AD33D456E2044657686EA607ACC27F6A5BAF40E26FA8D377AC50DEBE6ECD159B9DAD4487ABDEF2577CD36F43DEE0FBE,
   0x7AB6CBA39EA2366D13AD15DE7AAFA366A1E095815A6949467AA8766EC82BCB64907FDFB27AA144BC5855FE0766B53844,
   0x7A9A0E4F995FFF5CC6D322427A92D328D2794A9D0DA506C57A8B93484B000187786CF9CB7A844EAE4A80E9A1C5ECC8BB]

/-- `COS_ROM[384]` to `COS_ROM[511]`. -/
def cosRows3 : List Nat :=
  [0x7A7D055B18B769760B1E2E407A75B74EFD8D85CEBBB565127A6E648A411BDEF0E689650B7A670D0D2BA9ADD4A5FD2795,
   0x7A5FB0D805ACC15BC48562557A584FEB17C97B86956638947A50EA46AAD2CEA701C475AB7A497FEB07CA3A91CA25F487,
   0x7A4210D877DFC9CDFC7CE9DC7A3A9D0F44720EC29ED9D89E7A33248FB70E20E28EE009BE7A2BA75A196F99D69618721F,
   0x7A24256EB58092A5B33F03437A1C9ECDD559A0DB98A674F67A151377C341D3AD5FCEA7DC7A0D836CC9AEB11C7249D293,
   0x7A05EEAD33443317A80CBCA579FE55394AD4C49A9B465C5A79F6B7115B613ECB31DB3E0679EF1435B018E6155CA12D36,
   0x79E76CA6945967450C77A9AD79DFC06453AED49E5D59C3EE79D80F6F39D3A2F3F7860E9679D059C792B0A6BBA6D9638D,
   0x79C89F6DAA5D112128794DA679C0E061CD1E6D172EEAF8F779B91CA447689C669CB39DD979B1543565DDD4BBF59F6C14,
   0x79A98715754E9CB306CC0D6779A1B544C2B9C8E0C593E8467999DEC39B4C78DB65775D33799203924C621440A5214AC0,
   0x798A23B1238447BA52A435EE79823F206E6B0201070D8627797A55E07AFC70DD196C55BB797267F1974CFE25C969695A,
   0x796A7554119F4CBEA18DF2A079627E08386435931156D367795A820E5A3AC4903F32291479528166C5F0359D1284F8CB,
   0x794A7C11CA7FF19075D6E6E07942720FB7138B25D141F59E793A6360DB02BBEFBD4458E37932500585D36148EE127DC0,
   0x792A37FE07397943578776C179221B4AAF171F9589D20F357919F9EBCD7C8A8646FCD92C7911D3E1B2A807D6516F9B8F,
   0x7909A92CAF05F9A873889745790179CD1330D367C06C2BB378F945C32FF116AC0E2974B578F10D0F563D501CA9528D72,
   0x78E8CFB1D73A14514227351B78E08DAB0439FCB11370A42078D846FB2EBDA450432D71EC78CFFBA2A873A4CB7D2C7CAA,
   0x78C7ABA1C3389321C7B5D63978BF56F8D116FC8C9260CAD278B6FDA824476355FF36277978AE9FB00F303BAD663DF7C5,
   0x78A63D10E465E87A1398040E789DD5CAF6AAB82C403E6A85789569DE98EEE18C4591BF3A788CF94C1E5080880BCE3086,
   0x78848413DA1B92FEB3893EDA787C0A361FC9F58A7A57A84178738BB343036048DABB3995786B088B979D63A0E7784899,
   0x786280BF719B6507E272ABD97859F44F252E9BC40F3216727851633B06B60DADC12DCF7D7848CD836ABE8BEEA5FFCE1B,
   0x78403328A602AFBF4B9F54C87837942B0D6AD722E2C337C3782EF08AF60D21A13D8C0C0878264848B52D6CFF0A968D8B,
   0x781D9B64A03D51F44C969CF67814E9DF0CDC20E10E9B4679780C33B850D6DE80551C54AA780378F0C22840994BF203E2,
   0x77FAB988B6F8AAAEB1577BDB77F1F580859E2AAC7E18C6AC77E92CD8849C7593CB0D0DD177E05F910AA4E424F3FDF704,
   0x77D78DAA6E966F87F81D0C5377CEB725077DADF318282C0977C5DC012C94CF4FB25E0E7B77BCFC3F354399DD5C64010E,
   0x77B417DF791F66D33B3E074577AB2EE24FEB1EFF997AA3D477A2414811973765BBB39D2D77994F111641ADD9F3852255,
   0x7790583DB636059BF11CC5F877875CCE49ED43EF5381D748777E5CC32A0DECB277B8B1437775581CAF6BFEF386E2AA8A,
   0x776C4EDB3308F183C37C6108776340FF0E13AF8915DC2E29775A2E8899E8950DD812A1927751177830116B8EE14EF191,
   0x7747FBCE2A456687D0E961E8773EDB8AE2691FFD9935B2B67735B6AEB28E95074A3FBAA5772C8D39F4F522551C9460C0,
   0x77235F2D040980B5BC393B9C771A2C883A65C199D3F52CBC7710F54BF2D14B95D90C60647707B9788840D6E217922B51,
   0x76FE790E55D669D8FF7350F776F5340DB6E15573B25B4E4676EBEA7706DE31C4D297561376E29C4AA176DA719319BDA0,
   0x76D94988E2826B2908C0A8CB76CFF23226053C19BD02D6DA76C69646C830DE65822581E576BD35C725641893891E5437,
   0x76B3D0B39A2AE300B944881076AA670C833E644E49F4579876A0F8D23D84EDCE9E47F3C7769786052611F7F063094A76,
   0x768E0EA59A261EA7EEFFF4C6768492B3F72F1DD6E5BEB869767B12309AC7CDB21D14175576718D1BE2B81F25C5417AC0,
   0x766803762CF51837D41C9759765E753FD7A0D068B33EB9CF7654E279410A6D123165BC03764B4B22C7AE1DC4B72A7441]

/-- `COS_ROM[512]` to `COS_ROM[639]`. -/
def cosRows4 : List Nat :=
  [0x7641AF3CCA3518A2BF30811976380EC7A77596BA91F3658B762E69C3BE72D05E4554FA607624C0316E5CF97A00114A9E,
   0x761B121116913DE8813C023D76115F631699BDC5EBEBA7447607A827CE2D89C0D736E6A075FDEC5F9D309F69A2A84F2C,
   0x75F42C0AE3B3E5800F4CE65D75EA672A01F5283F1D82134275E09DBD585F15A72FA76D7D75D6CFC5478939C671D90F05,
   0x75CCFD423037FAFF86D7188F75C32634735C964E7A3F298C75B94A9C72151B8BF83C9DB875AF6A7A8DAC69AECAD47359,
   0x75A585CF279A2B0B9CF1CE36759B9C9AA182D19303581C887591AEDD5D37930DCB9FF40C7587BC97BCB665579163CE83,
   0x757DC5CA2229FA9799C1DDDB7573CA74EFE9BD77F558415C7569CA988879CD5AE8E0F635755FC6354E8AFA8E9C92EEA7,
   0x7555BD4BA4FAC27F126DCC57754BAFDBEED34BE66395CAF475419DE68F4B62FB44E579BF7537876BE9C6759DD2DAF328,
   0x752D6C6C61D48F82A50652F575234CE85B32565C291F3C40751928E039C9060245E75197750F005461AE6C9845FF9287,
   0x7504D3453724E6B10AD6A2DA74FAA1B31E9B5B7187D610B074F06B9E7CAD38B185F4BF9F74E63107B6226F1AAFD4AFFF,
   0x74DBF1EF2FEF6E45E6926A5F74D1AE554F3520D6DF6C682D74C7663A7940E8960A68E37674BD199F138C9A88C2208894,
   0x74B2C88383BE7B07C4D4958D74A872E82FA939D3F6F703D7749E18CD7D4BEE296F4B6A107493BA33D2D212D0CCC75420,
   0x7489571B9693822ED658E135747EEF852F14725264BA87D47474837103057100967AF126746A12DF79435FBF4E5FED91,
   0x745F9DD0F8D76FDDFC4B958074552445E8F71E7CB0CABA18744AA63EB10430917B73DA93744023BBB88CAEEC143DE3A1,
   0x74359CBD674AE237CFF60F3C742B114425254EFBDFFC4C13742081505A2EB199DD6DA48D7415ECE26EA5FA4A9FE42E4B,
   0x740B53FACAF649195FF41BC57400B699D7B6E9DD258D9A8D73F614BFFDAB5030826B397B73EB6E6DA5C3136798B4A2EC,
   0x73E0C3A33919EA846DFD87F373D6146120F7A8298AC8AA3673CB60A7C6D0368AE6B702FB73C0A8779443935D218B16A2,
   0x73B5EBD0F31DCBC3092894A973AB2AB44D56F8396CB8750673A065220D1338813D19D46D73959B1A9CA2AF87FAC7E1EB,
   0x738ACC9E66817F4E715D40DD737FF9ADD557C4CDC0DD53337375224953F993DAB4EBF088736A46714D66F3076A1C1F68,
   0x735F66262CCBD783417E76DA735481685D8020F92297DEEA734998384B07956C0BE977BA733EAA966111DD11F2327F55,
   0x7333B8830B7A7E2CEE951F197328C1FEB648D8E2BBC71A71731DC709CDB023128277690F7312C7A4BE0F6428F511D7B8,
   0x7307C3CFF3F170F2BB09DB4872FCBB8BDC0CE76D2BD5D23872F1AED8E3442A9559C401BC72E69DB776A55E356CD2AC14,
   0x72DB8828036A62B04DB4AE6B72D06E2AF6F8D0CBA12C253872C54FC0BEE1F57813E4A6BD72BA2CE9C8E2CD97F6F6B3EB,
   0x72AF05A682E401C42D3E108572A3D9F75AF9E20F69ACC3FD7298A9DCBF6461C7BEC49538728D75571E8F13367F60E3E5,
   0x72823C66E711235E70FAD2C67276FF0C87AD55B84F91C6D4726BBD486F51FFEDA3624FC07260771B0D190591E8959EF8,
   0x72552C84D047D3DA0913C2D77249DD86284F5D5228A2EC42723E8A1F84CC1591C37E1587723332515585ECEE1F8D71E8,
   0x7227D61C0A704C2B106B1DAE721C758013AA102A0E5E975E7211107DE17D8597A0799AF87205A715E46064971A0108E7,
   0x71FA39488CF3CC6CAB4C92A971EEC7164C043F25C647F7D871E3507F92899D3FD6C0AEA971D7D584D1A7214D4EAAE386,
   0x71CC56267AAB5B990688CBEE71C0D264FF102DC7F21F593171B54A40D07AC67929A3682971A9BDBA60BB9CE4478A9B95,
   0x719E2CD221CE6C761B2B1F187192978885DA306BB055A17C7186FDDDFF311F6BAC14E52A717B5FD30050A71DFEBE565B,
   0x716FBD67FBE167C1EB7F26E97164169D64B72FC26591801C71586B73ADD0F748C3456B3E714CBBEB4A58DBCDC7092235,
   0x71410804ADA41BA8FE9C89C571354FC04B33119E789BA7907129931E96B1306AD08BF64B711DD22003F4FE4D91988B0B,
   0x71120CC507001091F0290EF87106430E13FF0715DA7FA10970FA74FB9F4987CF6089C3DB70EEA28E1D623A5073108C13]

/-- `COS_ROM[640]` to `COS_ROM[767]`. -/
def cosRows5 : List Nat :=
  [0x70E2CBC602F6C348FA74541C70D6F0A3C4DFC00745204A5E70CB1127D820C1F6CDE23F8D70BF2D52B1E84A1D5A532AD6,
   0x70B34524C78FC496717CEA3070A7589E8E9B840D2AE9D566709B67C07CBABD34564ACAAC708F728B07C7823CFBE06C02,
   0x708378FEA5C6BE4B35D454ED70777B1BCCE830E962AF2051706B78E2F3866979B11826A0705F72549026C2A6050BECC3,
   0x7053677119795DCE36B64C7F7047583906591E74AB1D6F52703B44ACCDCBA5A946CAC51D702F2CCCE7014D72BA9F301F,
   0x70231099C95524362AFFB01C7016F013EC4CE81D3187E6C0700ACB3BC799027A396FDF8E6FFEA211D314832B36D295FF,
   0x6FF2749686C51BFAB902C4806FE642CA5ADB1BFF581B97786FDA0CADC7B16AF97DFAEF886FCDD24145CD84AF8AD2EE77,
   0x6FC193854DDF744855809A886FB5507A58C1CFA407D574146FA90920DF79B2B35701E9796F9CBD795B36BACD184EA5A0,
   0x6F906D84455302023252C5986F84194217531A6FEAD511CD6F77C0B34AE60990918667C16F6B63D859E5438A87C3911C,
   0x6F5F02B1BE54A67DA58CD5396F529D3FF26275CEFBE1A2766F46338370675572F4AEBC906F39C57CB2E64535D07D6DAA,
   0x6F2D532C348C9C028212478B6F20DC9270320327E82A12E06F1461AFE0D8719C65839A5E6F07E28501AC273FD7650FBA,
   0x6EFB5F124E03A81BEACBD8856EEED758415FB7A2D075A1186EE24B57576B53EC4FF1A3CB6ED5BB100BFBB0F139E922CA,
   0x6EC92682DB1033C539CE22DD6EBC8DB040D26DCF071F85A66EAFF098B99617FEF671B1CA6EA34F3CC1D90E03EA6B078B,
   0x6E96A99CD643497EA4E370756E89FFB973A6DD33785668B16E7D519316FFF03A59D6F0A86E709F2A3D74B92D53B4E59D,
   0x6E63E87F6455795559034FE86E572D93091C77D57A2F45836E4A6E65A96DFCD47AD70F916E3DAAF7C3184CA4C911518C,
   0x6E30E349D413A2EAD65400BF6E24175C5A822DC1D22B0AA46E17472FD4B008DEC6EE98CB6E0A72C4C11338B218A8F0C4,
   0x6DFD9A1B9E4BA587665BFEA06DF0BD34EB2316A3CDD6A8716DE3DC11268D2D62924A19276DD6F6B0CFA7605025CF4134,
   0x6DCA0D1465B8F643960CDB196DBD1F3C683301765C2E52196DB02D2956B05A9A905BF9206DA336DBB0F59BEF80E50FDA,
   0x6D963C53F6F11C54AD4C23CE6D893D92A8BAEA5B25666B5A6D7C3A984694C7554CBEC8126D6F336550EA2265026D2E22,
   0x6D6227FA485013882D933E0E6D551857AD8556A3AEAEEDFE6D48047E0172468CB5F42FCA6D3AEC6DC528D8107EDE909A,
   0x6D2DD02779E494FA712BDEF46D20AFABA10A9718A770F3C96D138AFABC29833EDB79CAF56D0662154CF98447B8A62760,
   0x6CF934FBD55C461494740EE66CEC03AED75CF08B8D6979C56CDECE2ED5302294108EA1476CD1947C5133ED11C5AA690F,
   0x6CC45697CDEFCDDDE2726E356CB71481CE14AABEE4E0573A6CA9CE3AD47CCC5EB4DE0F856C9C83C3642BD93F2D7AA8E8,
   0x6C8F351C004ED0AD0DD9AD6B6C81E2452C3C05B1520EBB606C748B3F6B731A00F41755606C67300B419CF8EB1524DFBE,
   0x6C59D0A9328BD2458F68D4806C4C6D19C23B1557F09546C26C3F055D74CF6BC4DD43DE206C319974CE96B471DD758250,
   0x6C2429605407FE6D925CFF006C16B52089C383D455A6F77A6C093CB5F492A4B34271916E6BFBC0211967E1E9A8264DD8,
   0x6BEE3F627D5ED808E76896946BE0BA7AA5BC3A32B94B96FA6BD3316A17EDCCF5E10205566BC5A431598A6129483A92DD,
   0x6BB812D0F051CEC5865BC7406BAA7D49622CEFBCD2D21CA56B9CE39B352D9AD162A3407A6B8F45C6EF8E9E6A31796D1C,
   0x6B81A3CD17B3BB663659DFEB6B73FDAE34299FEE04397F056B66536ACBA5E243D6A2D1646B58A5036506FB920AA07BBF,
   0x6B4AF278875442B8041F84166B3D3BCAB9BDE7157FFCAD5B6B2F80FA839CEB5452F04C476B21C2086C732030958C05E4,
   0x6B13FEF4FBEB1F3F3D7DF7E06B0637C0B9D845B3244CDA566AF86C6C2E36AF207BC0BA236AEA9CF7E12B303EB02BFA71,
   0x6ADCC9645B0351A8B8C85BAB6ACEF1B224354A9BD65BD5686AC115E1C55FFBB4C059208E6AB335F3C74AE9AB40AFDE2F,
   0x6AA551E8B2E6380C3E80574C6A9769C1114AA3F237E6E0FD6A897D7D6BB97EBC2B1300086A7B8D1E4B9CA8C2EEDE765F]

/-- `COS_ROM[768]` to `COS_ROM[895]`. -/
def cosRows6 : List Nat :=
  [0x6A6D98A43A868C0CFB18745B6A5FA00FC2321700A0B9371E6A51A3616C82B714B2326CCB6A43A299C384537F9C10C6D3,
   0x6A359DB9516B47E4EE2331D26A2794C0A0945F01555C3A116A1987B03B84CD5506A233046A0B7688ACEA2BCC9AC2C778,
   0x69FD614A7F9A72685BBEA7B669EF47F63E93F2E203A219F369E12A8C74FD5350ED1F411269D3090DAE2588CCB61EFCDB,
   0x69C4E37A7583D20E547D563A69B6B9D356B7B20F9D26797569A88C18DD88EAA93DC94F94699A5A4B95E7772F2954D784,
   0x698C246C0BEB870B77756EDC697DEA7ACBD57857B7474964696FAC78620DD274B57365EE69616A655B2540A0B5EC5E29,
   0x6953244243D48C8C21807E8E6944DA0FA8FC98ECA776A2B269368BCE17A65C0ED36B61906928397E1D02DA6617A424A4,
   0x6919E320466B211B4C0DD3F2690B88B521604099A21CD04768FD2A3D3B8B471A0DC4044A68EEC7B922BD3B2D23B8E428,
   0x68E0612964EF16436D3A42D368D1F68E9041BF34318FF31B68C387E932FE04C2B57939FE68B51539DB949821F0C026D3,
   0x68A69E81189E0776BA27F510689823BF78DAB85869ECAABB6889A4F58B32E24FF30A3586687B2223DEB6895573815805,
   0x686C9B4B029D784C3BD0C759685E106B86473B7D4DD8E8F4684F8185F93B1B105360AF296840EE9AEB2815830C72226D,
   0x683257AAEBE4DA1F35C534306823BCB68B6FC36EE76F877D68151DBE59EED1AF6C0FEA7A68067AC2E7AFA54290AC4B1D,
   0x67F7D3C4C527791E6D79006F67E928C482F31D3BA7C050D167DA79C2B1D6F1022D212CC667CBC6BFE2BEDDB4685C24D5,
   0x67BD0FBCA6BE50D8EFE5B02267AE54B98F1036A2AE74E872679F95B72D16F45785C5EF426790D2B6125C62B56BC73EBD,
   0x67820BB6D091C85602693848677340B9F98FD410AA47516C676471C01F56975B10624EE067559EC9D40D80A837230C85,
   0x6746C7D7AA0355C5FADD5FFB6737ECEA33AE2E39120AB2A867290E0203AB6D978973FEC5671A2B1FACBFBDE1BC82EA39,
   0x670B4443C1D709D9C9F1C8C366FC596ED604775985125E1766ED6AA17C8261A6E3E3475F66DE77DC48B253C6EA2C0290,
   0x66CF811FCE1D02CF11D798EE66C0866CA072483530C600F966B187C353891C1DDC4C5AEE66A285247B5F8FA94A9C39E2,
   0x66937E90AC1AC73EB24A3A72668474087A06F4D6282C36C66675658C79975240FBC776A56666531D3F661B7092874917,
   0x66573CBB603488BBC1F483FE6648226770EAC922A92674E1663904220697FC9109A5DCF76629E1EBB6722E1F1FFAA158,
   0x661ABBC515D64E50FC1CE70C660B91AEBA482D545A02617765FC63A93972753CFA80A87265ED31B52926A43F7CBD7A36,
   0x65DDFBD31F5D06EAB865DBFA65CEC203B234B25F98E51ADE65BF844777F37E8779D4BDB465B0429F0706004904DE86AF,
   0x65A0FD0AF5FF83BB9149B30E6591B38BDB9A0659056CB54F658266224EB6312E3A3CB571657314CEE65B5309E134314D,
   0x6563BF9239B75AA9ECCA25F16554666CE01ED0E77BB339806545095F710CD2E147266BDF6535A86A84230C24945EE311,
   0x6526438EB129B0D4A99476F66516DACC900F77D0C6A4AE9A65076E24B8E994D8A1A5F02664F7FD97C3F3B2AF679EB2F3,
   0x64E88926498FED3D419A920E64D910D0E246CBAF5E572C0A64C9949826C73A9680C2CBA464BA147CAFE686041386E35C,
   0x64AA907F16A053A5C1D874B7649B089FF4169CDF95C88A93648B7CDFE191A8E49C4EFC69647BED3F788006CE0F49BF0D,
   0x646C59BF527687B105AB1600645CC260093038B2AA110700644D2722368E5D1AF8007FFF643D880674986865FFFEAE5E,
   0x642DE50D5D7BF853B2C3149D641E3E378B8CCEF633BCFA6B640E93859944CCBEB326E16663FEE4F82143EA88CFE2B76D,
   0x63EF328FBE5033A481598DE463DF7C4D0B55BFDE8999ABC463CFC230A366AD876FEDDED963C0043B21BB1B790428FEFF,
   0x63B0426D21B1231A6AE0A4A863A07CC73ECCD262B2D222786390B34A14B825D9F3ACE0206380E5F63F430298F67D432D,
   0x637114CC5A63304767F360D963613FCD0234531894C0C263635166F8D2F7E5C6B04893DC63418A506915338CA5DDA3C2,
   0x6331A9D46119521E74C9A81E6321C58557B71BA017594C456311DD63E9C7289AF52898C66301F170B447C9F1E0EB5552]

/-- `COS_ROM[896]` to `COS_ROM[1023]`. -/
def cosRows7 : List Nat :=
  [0x62F201AC545D02D3A1ED12ED62E20E17675082AC09849AEB62D216B28A919F1394B68DB762C21B7E5BB54DBD9A430A9C,
   0x62B21C7B78761E65055A483062A219AA7EB434B79D34133C6292130C0C75423FD9C63868628208A0BFE4804D45D5EB20,
   0x6271FA693752A9DB6EA04A866261E8661135F577615633886251D297EC2A0F23B6A79D6B6241B8FF66F0123B2C9ACC71,
   0x62319B9D206E8351CEEBB47A62217A71B7B14A14AE2FF3B26211557DCBE9AB2825FBDBB462012CC1FC6E4204B2450D9F,
   0x61F1003EE8BAFAD2543F3C0A61E0CFF530710C4286EFB3AB61D09BE57356F168C3B45A0D61C064105158639196FADF9B,
   0x61B028766A8654184564F09C619FE9185F16E63B01963EE0618FA5F6CF6568EDB2E94BFC617F5F125BF250AB4D47EA2E,
   0x616F146BA5633145BA647808615EC6034C82B7B45490E954614E73D9F240A3E0F370BD80613E1DF037B1C2738AC3124D,
   0x612DC446BE0FE69C5B820F4E611D66DE26B9E3DCB794F50E610D05B7133387CE585228B960FCA0D2252593E9480EA334,
   0x60EC382FFE5DB7485EF838AE60DBCBD140CE886C53783BBA60CB5BB68E8F7EFD5E5C0D0E60BAE7E089DCED8B7301371F,
   0x60AA704FD517FB4D0BC2C2BA6099F50512C69DDC8AE57FE660897600E59392F430410C436078F343F04E5A28A3E36E21,
   0x60686CCED5EB2EA215ED29946057E2A2398300D3F3E3C2BD604754BEBE53703333B8AE726036C32507BEC4EB34C2C086,
   0x60262DD5B94BE99136E834B4601594D176A664D668377D5F6004F818E39E5338892D11125FF457ACA42860B127E47DC7,
   0x5FE3B38D5C5DC263727316C35FD30BBBB07C3048A0AA9FD75FC2603844E5DEDAF58266B15FB1B103BE2178BF586548D6,
   0x5FA0FE1EC0DA186D86A332AF5F904789F1DF41D6DD44B2045F7F8D45F624DC0BBB7F441F5F6ECF5372C32ADF7E09158E,
   0x5F5E0DB30CF6C88B138AF7825F4D48656A209F4E2A6F5C755F3C7F6B2FC5E30EF84D3BAC5F2BB2C503900AF89B2DC8F8,
   0x5F1AE2738B4CCB1814EBFBDB5F0A0E776CEE0DF7E0ECEF1B5EF936D14E89EE3A24702F775EE85B81D65AB03179B71E18,
   0x5ED77C89AABEBB78564299085EC699E9723894870C6629C75EB5B3A1D36ED648687007D15EA4C9B3752C2BACE9A54AA3,
   0x5E93DC1EFE5F493C9751B4925E82EAE5161AE6A7722A8D795E71F6066395B854824411F85E60FD838E2A68EF81D909B1,
   0x5E50015D3D5792F5252424B45E3F019418BFBA3DFF8ACDD05E2DFE28C829458806592D685E1CF71BF37E77FEB14F25D3,
   0x5E0BEC6E42CD6AC1B93E20305DFADE205E48066A74F78E0D5DE9CC32EE43FC8FD4CC120C5DD8B6A69B3AC148FCDB4F2E,
   0x5DC79D7C0DC984AE7E746C205DB680B3EEB12C5A30C765795DA5604EE6D64CE5A92757745D943C4D9F412367531DF543,
   0x5D8314B0C11D8EEE289071AF5D71E978F5BB09FC0A362A4F5D60BAA6E68CA3FEB8A1741E5D4F883B3D28FAC76E1AF5E2,
   0x5D3E5236A34A340119900A3C5D2D1899C2CDF6A53AD4B0DE5D1BDB6545B5646F6079A3E45D0A9A99D625134F477733B2,
   0x5CF956381E6506D99CED99685CE80E40C8E0A9B7623B7D5F5CD6C2B48026C713F3AB7C905CC57393EEE98409B1F98569,
   0x5CB420DFBFFE590D4EF0F1D95CA2CA989E5E0B57BD6451F85C9170BF3524A64EC4BFE80A5C8013542F9174EC3877E40D,
   0x5C6EB2583906FB23D3937A785C5D4DCBFD0AEF47B895FF355C4BE5B02746336B96073B395C3A7A056384CEC66FDC40A4,
   0x5C290ACC5DB5E7130E020E8F5C179805C1EBB9EF104B63235C0621B23C5B9638A80327EC5BF4A7D2795DD56AF764F1BD,
   0x5BE32A67256DD4F9173D1AB95BD1A970ED29EFA7C2F20A8F5BC024F07D5376E5AB384E295BAE9CE682CEAC226FB32D72,
   0x5B9D1153AAA2BA243FC37B1E5B8B8238A1F9AE5C22C667A85B79EF9616207238E8062E0A5B68596CB486C478BE9E7DF1,
   0x5B56BFBD2ABF3279759694785B452288267F1187647301B25B3381CE559E782AFC8126945B21DD9066183775031E83F4,
   0x5B1035CF0609D449753E00B05AFE8A8AE3B380A9146D5A1E5AECDBC4AD7814F99D9CFF3F5ADB297D11DD094CA9ECA447,
   0x5AC973B4BF8A6EA539BEE9415AB7BA6C654AE83BEA567BD85AA5FDA4B20BA4C1D63F294F5A943D5E54DC57A220C56302]

/-- `COS_ROM[1024]` to `COS_ROM[1151]`. -/
def cosRows8 : List Nat :=
  [0x5A827999FCEF32422CBEC4DA5A70B2585998DD407EE63A395A5EE79A1A5071B24C0E6B245A4D195FEEAF725FB36D2862,
   0x5A3B47AA8671C4FEA5429A885A29727A9175AB6C761F04E55A1799D0BFBBBCE61F09FA775A05BDADC166DF3F2ACDEFF5,
   0x59F3DE1246BC401750AB234759E1FAFF00234E0EBCB4DD9E59D014749E25B1F9061C227B59BE2A73D16F480ED3AAEB1C,
   0x59AC3CFD4ACE191E2EB31A88599A4C11BB3253B984B463C2598857B1D3AE456557FC686D59765FDE457653C49F84635E,
   0x59646497C1E0F5C3D64FBF5E595265DEFA66ACC2BA8F0793594063B4A0A1FDBCBCCAABC2592E5E19664F6A701F591FC7,
   0x591C550DFD4D6A83C663EA5F590A4893179C64ABB8BF447758F838A9675EA7CC51D7F70C58E625519ED8641C24FB328A,
   0x58D40E8C706FA444923C279958C1F45A8EAC46810D3B360B58AFD6BCAC37F5BD16129399589DB5B37BDE22B0E4AC58F9,
   0x588B913FB08BFCFCC6C5F09958796961FD506C4330E4EF4E58673E1B155C094182816BFD58550F6BAC0116E77DA9F826,
   0x5842DD5474B37B6D726568075830A7D62308B9691E16A5E3581E6EF16AB7E8E13F26D8B9580C32A6FF99B05FDD3A3390,
   0x57F9F2F795A83E034633CF3457E7AFE3E0FF408DC04CFD1557D5696C95DBE073F1848EB257C31F92689CB8E9FCAA99BB,
   0x57B0D2560DC1D0EF544D4DC8579E81B839EC945943CB7D5D578C2DB9A1DFCCDC2ED1887D5779D65AFA7F9B13878563EA,
   0x57677B9CF8D16F887BA684C857551D8051FC03B758E685205742BC05BB475313A8BF62515730572DEA1C940B040C4341,
   0x571DEEF9940631069EA9C0BC570B83696EAFC16B8B62B70D56F9147E2FE60299B86EB49056E6A2388D96D0E9A4C72592,
   0x56D42C993DD120A8CE986A6856C1B3A0F6C4F714DB14115856AF37506EC3635577E97A6F569CB7A85C3E7774F6AA37FF,
   0x568A34A975C94157A25F8B135677AE547217C3B1CF9667B9566524AA07FEEEFCA7277977565297AAEE749A69AC00ACFD,
   0x56400757DC8F7CD4FC35D06F562D73B1898725B64D9DE85A561ADCB8ACB3F610A642E3CE5608426DFD8F1960D0E9669D,
   0x55F5A4D233B27E8A8DF66D4055E303E606D8D0C480F89A5855D05FAA2EDD7082DB1B0A3755BDB81F63BC6C60C2C7955D,
   0x55AB0D465D927A0878BE773555985F1FD49CEF1A3AE95ADD5585ADAC8139BA11E52FDC305572F8ED1BE75B2B5093979C,
   0x556040E25D44DD4570D9EFE2554D858CFE11CEC43109BD0D553AC6EDB72E3A710F03247755280505419AA05A7677E60D,
   0x55153FD45677EEB1DB8A77415502775BAF077AA8955A509954EFAB9C04AAF94B78C3DF1454DCDC9610E4785D339A96DA,
   0x54CA0A4A8D56572F68A3B13054B734BA33C33F7A8C982BBE54A45BE5BE0E1E348474ABB554917FCDE63A1C66055DF382,
   0x547EA073666A97FEB660A628546BBDD6F8E31CA814531F745458D7F958075C97182034B15445EEDB3E5B295C9FC1BD92,
   0x5433027D66826CB49A31D161542012E08B412153F699B0B2540D2005677B4BB55705600B53FA29ECB634F2E486E30435,
   0x53E7309732921948B5951CFC53D4340597D6B56D755EC77F53C13438A166AACA7EF13D2B53AE31310AC5C28A39E1D0CD,
   0x539B2AEF8F97A44F0A4FB73B53882174EB9FCEF76400F52A537514C1DAC19160A33DD80F536204D719000328ABB26BD4,
   0x534EF1B5627DFD6E4D9D6B72533BDB5D737E1390719436795328C1D008628BEC0B2361B65315A50DDDAD5898D2938539,
   0x53028517B0001024C619F5FA52EF61EE3C1BE64E72BD258752DC3B923EE1A4BE05346E1752C912047551A3BD230B1D6D,
   0x52B5E5459C8BC2ED8C4E9D0052A2B55671CF61FE860FA1DA528F8237B27B59610DFE5A9C527C4BEA1C0DF2FAD7699E17,
   0x5269126E6C24E2D811E928E65255D5C5607D3FDBF9FB0460524295EFB6F37C7033DC3D3C522F52EE2D835F32F0E51C26,
   0x521C0CC18247FBA3DFB11E7B5208C36A737BAACFE75AF94351F576E9BF7803FBAE14FC8251E2274024B5D54CEB6638B3,
   0x51CED46E61CD1C728654D45451BB7E753574FF4B7FC60B2951A825555E83C48CA95C5CD05194C90F9BEECC65291C7BF6,
   0x518169A4ACCA8921CA219B97516E0715504A77CF1AA9C33C515AA16245C118DA57C2DF355147388C4C9FE8B126E14D82]

/-- `COS_ROM[1152]` to `COS_ROM[1279]`. -/
def cosRows9 : List Nat :=
  [0x5133CC94247758601DA8B3F751205D7A8CF6C630182FF7E7510CEB4045EC76425E093B6E50F975E60F458B2B9656D03A,
   0x50E5FD6CA90DFE8D8B361B7450D281D4D37099AFBCC9721F50BF031F4EB6EE16C42A010D50AB814CDB494E1A868ADF3A,
   0x5097FC5E39AEC57B38D67514508474542A8D11F5340F6EFB5070E92F6EA89BD39ABE7CCE505D5AF0C6E46E81CFB62C39,
   0x5049C998F442311BBE7636FB50363528B7E21EFCF577AA2050229DA0D303004E92AB56B8500F03020702229402740845,
   0x4FFB654D155B5136916608C54FE7C482BFA8CE0FD11585B84FD420A3C7A349F2D03D753E4FC079B0EF21DD342688A5ED,
   0x4FACCFAAF81A0030D446AFA34F992292A49F83D3F656870E4F857268B6E48A1B4E9081564F71BF2DF1397E9AA0F9A0CC,
   0x4F5E08E3160D0EFDE60A0F084F4A4F88E7EC238A5250B46E4F3693202981D79E33BDE8984F22D3A99D97722FA4DF42A1,
   0x4F0F112607145E4A16569BBF4EFB4B9628FE238AAED662254EE782FAC6785E9B81ED659D4ED3B754A2C4B9AD9DEC52AD,
   0x4EBFE8A48142E4F1F12F1CAA4EAC16EB25708F110714A2684E98422952E95DA19CEEE4C64E846A5FCD66E59E0F3631A2,
   0x4E708F8F58C0A3D89F49B13F4E5CB1B8B8EBF56E9207CF6F4E48D0DCB1FC103A2789055B4E34ECFC0821FB436C4793F5,
   0x4E2106177FAC872FE3FECAA14E0D1C2FDD0846B10E8C80E44DF92F45E4BF86F1C71F75464DE53F5A5B7A48027DFD4EE1,
   0x4DD14C6E05FE35444D2B0A744DBD5681A92E9DD2E842A70E4DA95D960A0C6CED67C0F1B24D9561ABEDB6225DF0165AAB,
   0x4D8162C41967CAE034C5CA7B4D6D60DF527AF886D7DC77914D595BFE5E66BB1FA60DC9404D45542202BF9896AFBE5F9E,
   0x4D31494B053785583F49632B4D1D3B7A2B9DDCB1ACCB4A644D092AB03BDF59310FBD4E8C4CF516EDFC060D03CEACD41E,
   0x4CE1003432395A540D5A16A24CCCE683A4BDEBA4F98972B14CB8C9DD19F5AC2DF6D2B4254CA4AA41585FC034A9B9D992,
   0x4C9087B126987D65E25CC9524C7C622D4B59632D67017F7B4C6839B68D79130C9ED047444C540E4DB3EB48F01D059D66,
   0x4C3FDFF385C0D3840CE764234C2BAEA8CA278C877EC91CBC4C177A6E486A511E966AE5174C034344C7F0FA239AFF036F,
   0x4BEF092D10405476E921D5044BDACC27E8FA194DC70FFF9B4BC68C3619DCE6801B66D0DC4BB249586AC436D506BAC166,
   0x4B9E038FA3A85A4E60501C9A4B89BADC8C9E6E731641D9064B756F3FEDD856987162B8444B6120BA8FA4B42A3D24D046,
   0x4B4CCF4D3A6EDEF1D3D3AAB64B387AF8B6BEDD5C0F6D324C4B2423BDCD395CBE1F65B0A04B0FC99D469FA99943A32A2B,
   0x4AFB6C97EBCFA7DD6CFC70D24AE70CAE85C3CB2AC38850794AD2A9E1DD930F12130943C04ABE4432BC70EF541DC22A1B,
   0x4AA9DBA1EBAD601FD60083334A95703034B4C64F7EA8BE674A8101DE610FEFA4B31138114A6C90AD3A640B0356788902,
   0x4A581C9D8A72A0AB6B63D7814A43A5B01B198A71D331E3EA4A2F2BE5B652EBF7F62F95B64A1AAF3F26352AE2547AD89F,
   0x4A062FBD34F2E70E0000A44D49F1AD60ACDAF2C4FFE3139C49DD282A58584AF19D947B7C49C8A01B01F20F509BF47BF8,
   0x49B41533744B7AA258BC10C9499F87747A23DADAD885B176498AF6DEDE568950BDBE9BCA497663736BDAE2EB2ACE6E08,
   0x4961CD32EDC4404E8FC240F4494D341E2F41EE0863C87C7449389835FB9F24B9CACAAC3D4923F97B1E4301412772A47D,
   0x490F57EE62B07CE299E8514248FAB3909486656F6B9595E448E60C627F7F556C683DAC3F48D16264EF71AC3724B57E51,
   0x48BCB598B04F862A338A7F3548A805FE8E26B4C047E5931C489353975520B6B646F7A073487E9E63D182B02C483D6EEB,
   0x4869E664CFAD62C584E8839748552B9B1C1D25C736BAB3F848406E078369DE3666A23423482BADAAD246F6F4AB63EED5,
   0x4816EA85D58358DBD8A200B6480224995A0962D89E8C3A7447ED5BE62CDEE2041A8897F447D8906D1B2509BC5921A53C,
   0x47C3C22EF2186BBBC988D41247AEF12C7F10F02FA2FACFF0479A1D668F81CDCD3C53E813478546DDF0F981E65622B214,
   0x47706D937121C87C578711A3475B9187DDBF94527E2BDC8D4746B2BC04B306FF01A95C744731D130B3F768FB2A9EFA0B]

/-- `COS_ROM[1280]` to `COS_ROM[1407]`. -/
def cosRows10 : List Nat :=
  [0x471CECE6B9A321B25DD267F6470805DEE3E7AF901BA2ADD346F31C1A0111A00CF41D7E2246DE2F98DF8887BA70054C45,
   0x46C9405C4DCEFA4DEF16A1E346B44E651A8282AA7BDB3D69469F59B4145B9AE995598D9C468A624A0A2DA462EEEF287C,
   0x46756827CAE6DFB326A4E5D846606B4E259064C1724B5061464B6BBDE94E1AC443AE2A1D46366977E55EB044E42DCB56,
   0x4621647CE91B9322080D2D6E460C5CCDC3F8E89159C37D1345F7526B4585851FFDA0198C45E245563D6AE4B20E0FF0FD,
   0x45CD358F7B6D228110D333B045B82317CF6AF1196572628145A30DF0095D9256AD41C6CA458DF618F958CF5F2D426C2B,
   0x4578DB936F8AF09E2A2FBEBD4563BE603C3CB5BD3F08FA49454E9E802FD14D9CAE65A13F45397BF41AC64E4AAEE43C23,
   0x452456BCCDB3ACF9B302AC50450F2EDB194BB5F5ACAF66F544FA044FCE5B04984CE2F71F44E4D71BBDC87B3C3F912FDD,
   0x44CFA73FB8953B2F6441815244BA74BC8FDC9CA4039DEDBD44A53F9314D426A102482557449007C418CB86F1114459F5,
   0x447ACD506D2C8A10DC49654244659038E37B131C3645E6724450507E4D5513BA446A0620443B0E217C728408A805990D,
   0x4425C92342A55A85A78A64584410818471D983F957024FAC43FB3745DC14DB5DC0495BCA43E5EA68537721C60B5B3DBA,
   0x43D09AECAA39F644A70488B043BB48D3B2B0CDD072475AC543A5F41E3F48EB28E6C38A3243909CCD228956B944725AD9,
   0x437B42E12F12D67ABF05CD844365E65B379FE5D5AD3BA4204350873C0F04AD81BA74401F433B2584882EFB651ADD89C4,
   0x4325C13576263A72C282191143105A4FAC0B6A879F8CE2AA42FAF0D3FD191846D811B4DF42E584C33CA354F50BAADAB4,
   0x42D0161E3E17AE52993C447F42BAA4E5D4FD2674E92C9F7242A5311AD4F42B9EBC64CF05428FBABE11B69017806644FA,
   0x427A41D05F178201A8C8BE564264C652910383300E6FF54E424F48457B8060FA54C9E1DC4239C7A9F2AD2C1055662C44,
   0x42244480CAC2304C92377E80420EBECAD810EC85AECF6B1541F93688EF040A5EF0E5A97F41E3ABBBE41F5617C87B71EB,
   0x41CE1E648BFFB65A5FEBCB8C41B88E83BB5B24093439AA7841A2FC1A4700A20BB5ECC36A418D672903D83519F2CE0566,
   0x4177CFB0C6E2DB8748D4B2CA416235B2653A850C22951CB3414C992EB4120A8EBD820D5A4136FA2688B525EAFA51F751,
   0x4121589AB88869B937D90920410BB48C1909391438A94E4340F60DFB7FCDBF5E13CA0FDF40E064E9C284E80430D7B10C,
   0x40CAB957B6F656424FDD4BFF40B50B4633025CE49D395EC0409F5AB60CA1F608D1DEDF874089A7A819E6BADE60441A3A,
   0x4073F21D30FADB65AE50C1EE405E3A162821162E5C9CAAB140487F93D5B4B0149B50A91D4032C29710296BFD8CFB1EC4,
   0x401D0320AE0B8292B7A9C39F4007413185FF99FC849A462C3FF17CCA6EC2BD9BCED365123FDBB5EC3F2A55C280F82E87,
   0x3FC5EC97CE241F6B42A71AE93FB020CDF2B623F035B6C1543F9A528F83FEB0C0C3A1EE263F8481DD59344F167B74ECC5,
   0x3F6EAEB849A5BBA9008DDF0E3F58D9212CB9DE610A8206303F430118D9EFC20A7679E9D83F2D26A028DE8C056A5653C8,
   0x3F1749B7F13573F689F01F243F016A610ABBBB763EC4E3EE3EEB889C4D50A5BF126290513ED5A46A90EB6F5B1BE40A7C,
   0x3EBFBDCCAD9B45D080D0FEFD3EA9D4C37B873F4D09B308953E93E94FD2EE5250CAB267B93E7DFB728C274D57E08C88EC,
   0x3E680B2C7FA0CE834236A2513E52187E85E13B40A77EB9D33E3C23697786B7F184FD6E513E262BEE2D471F911DAAE75D,
   0x3E10320D7FEFFB59AA6958053DFA35C848667A6897D78A483DE4371F5FA76961DABDF1B83DCE36139EC72A125B68CCE1,
   0x3DB832A5DEF1AB117841E6093DA22CD6F96A5F619FFC8CBE3D8C24A7C78C361003A66AC83D761A1922C991D360EFDFD1,
   0x3D600D2BE4AC40A9E4FE98423D49FDE0E6D57376281D1C7F3D33EC3902FDB59B429A1ED63D1DD83512F4E497FB2A5722,
   0x3D07C1D5F0A227A10F1FC4373CF1A91C7603E73A94C933DA3CDB8E097D2FC4D0784CFB193CC5709DE052924E1351D185,
   0x3CAF50DA79B049B4DFC8CABC3C992EC023A404B2462B727D3C830A4FB89FF434878118593C6CE38A132D57FEC37E60CF]

/-- `COS_ROM[1408]` to `COS_ROM[1535]`. -/
def cosRows11 : List Nat :=
  [0x3C56BA700DEC763C1B123A793C408F0283949311EFB35EB13C2A61424EF3E8313FC18DDB3C1431304AEF9C67204DC038,
   0x3BFDFECD5283BB2C549C8CED3BE7CA1A40C32C3403B611993BD19317F0D7AAF98C56AD973BBB59C73E01BE4D7793ECAA,
   0x3BA51E290398AFE18A8905933B8EE03E1D0A83D3F75E59B73B78A00765DBF039ADFF6B913B625D85B9A854A7CCD2CA81,
   0x3B4C18B9F421B1BC31C77AF13B35D1A4F110A0A52C0B6A943B1F88478C544AA84EBE89133B093CA2A1E260A864F6260B,
   0x3AF2EEB70DC712AA87643DE03ADC9E85AC25075A53F6677A3AC64C0F5935538D47C01D8A3AAFF754F14771C53B84268E,
   0x3A99A05750C139B20330E73F3A834717541ED7B230A373B83A6CEB95D7F2C452FA053C023A568DD3B8E5BBCF44183952,
   0x3A402DD1D3B6B58DD0C589B03A29CB91053ADB9E9242703F3A1367122A5D8237231FB8BF39FD005620201F2E6397857F,
   0x39E6975DC39A41773C6D973139D02C29F1F9889A87B626A639B9BEBB88819C301FD770C939A34F13648C2357151A1DA3,
   0x398CDD326388BC2D0A1CB3873976691962FCF344B77E4FF5395FF2C940843B1B9714E80D39497A42D9CFE38EB7035AC9,
   0x3932FF870CA7114EB503A79B391C8296B6E6B552E239A43939060372B681844B8FE294D938EF821BE97FEE1385361250,
   0x38D8FE932E0015209ECCB1CC38C278D96235C5F397E0EA4038ABF0EF646A6E86FDBEBBC8389566D612FD15BD4DB6A577,
   0x387EDA8E4C6252CE3DE87E6F38684C18EF2444B3313ACF2B3851BB76D9E28992D6D35022383B28A8EB52362BF5653B37,
   0x382493B0023DCD3F62AA2575380DFC8CFD8536F9275A1ECF37F76340BC1DB858CFF7DDC637E0C7CC1D11EA98EAC5C4FC,
   0x37CA2A2FFF81B295B33898D337B38A6D42A23832EB3CC35D379CE884C5BDDDC0E2A30CF73786447768343760AD09B802,
   0x376F9E46097A02678696F64A3758F5F189191CC167D9B6A437424B7AC6B07C52C925D179372B9EE2A1F4265995C0A2DA,
   0x3714F029FAAD26CD4F3328E636FE3F51B0B987BE6116C52E36E78C5AA40C48B4A5B1C7D836D0D745B4AD560D1BB8F32F,
   0x36BA2013C2B98056CD8B2E5D36A366C5AE6273AEEA3CA5E4368CAB5C57EEAF1C10C6A0803675EDD89FB97BE8CDB156F1,
   0x365F2E3B6632E4FD4B8D252136486C858BDFAE383690730E3631A8B7F1594BC6D3AFBBB4361AE2D3774DD97C4B85201E,
   0x36041AD8FE801228295CFCAB35ED50C967C746EC0EBCFE5F35D684A5940F56909BBB3E0A35BFB66E6458A4D98C7AEEBE,
   0x35A8E624B9B811D90C243513359213C97556F1423DACC44F357B3F5D787301BAFAC6E67E356468E1A45E642CC94C9C41,
   0x354D9056DA7F9315077C88D23536B5BDFC5159D44F5E668B351FD917EB62CBFD11A4C8063508FA6589573CA16861F18B,
   0x34F219A7B7E635A021E59E4A34DB36DF58DB6EF104198C9F34C4520D4E16C5F048B2B42F34AD6B32798C34A9528D107D,
   0x3496824FBD43C9209C87F21F347F9765FB599C9CE238D08B3468AA7615FDCAEF82CA9DEC3451BB80EF7469BC1E5FA627,
   0x343ACA876A157FBF6E4C09E23423D78A684CFC15587EEDD5340CE28ACC9AAD7E3E707E5F33F5EB89799239A387EAEEEB,
   0x33DEF28751DB145B6A04A42F33C7F785383076EBEAA1BFF133B0FA840F61574D20D34C743399FB84BA505F6AB26A4D48,
   0x3382FA881BF3E4648F1502A8336BF78F1755DDCEE95CB41E3354F29A8F93DCF16DDA5E9B333DEBAB67DF0405B8F8A9A8,
   0x3326E2C2837BFD750B998ECF330FD7E0C5C2F3153EF625CD32F8CB07121F8564F80F0F8232E1BC364C10C2C71B040110,
   0x32CAAB6F57291EBD7EA8F7FA32B398B3170E6922E0AFA768329C84026F79C5641ABBB64232856D5E4437A1B898B86CFC,
   0x326E54C77927AE5A10C6796B32573A3EF23CD4BB7D18765632401DC5937D2EBF5814EBA23228FF5C4101FDED1B14837A,
   0x3211DF03DEF7A2A60013380931FABCBD519D935906AB449131E398897D4653B63CB0AC2631CC726946576BE14AC42F64,
   0x31B54A5D91495FA3453491CE319E206742A7A59BC18516C63186F4873F109E7130F0252E316FC6BE6B358C00803D081F,
   0x3158970DABDA888BFD3FCA2531416575E5D67DE9825A2FD4312A31F7FE131CAFE854DD793112FC94D98CD363BEE7BB12]

/-- `COS_ROM[1536]` to `COS_ROM[1663]`. -/
def cosRows12 : List Nat :=
  [0x30FBC54D5D52C5A34C48B0A930E48C226E86C351D417DC7030CD5114F25D3FC226006AFF30B61425CE1D48E07465415D,
   0x309ED555E7207E5B7370AF52308794A622D308CCC0DE67D63070521766B390E094D7045D30590DAA9853367CBC345ECA,
   0x3041C7609D5587E6DC8614FE302A7F3A5B7078EA022D8FD530133538B86C59FB78E8EE892FFBE95C9A23CF5EEF243E5D,
   0x2FE49BA6E683C849E4686D7B2FCD4C18838B7606633F6EDF2FB5FAB2574C431506E50C302F9EA77547E9CA4E4D1BE93A,
   0x2F8752623B99CE03347E43DE2F6FFB7A18A42F1D27A201FD2F58A2BDC562E43D3567A5FB2F41482E2841F0DA96CBC94A,
   0x2F29EBCC27BF5C608292C3482F128D98AA6B294B4F2629A12EFB2D9496E74C44E2FBDE432EE3CBC0D3E7A34073DE65CD,
   0x2ECC681E4831EC95956E48212EB502ADDA9DBE1A973443A72E9D9B7072147C3E329C229F2E863266F591512089300890,
   0x2E6EC7924C2123AB736C14C72E575AF35CE28EAA20823D872E3FEC8B0F05D7E007664E532E287C5A49CCE71F2979FA7E,
   0x2E110A61F48B3D5DA730FBCE2DF996A2F6A5EBCAA7053BDB2DE2211E37938AE28F130D5E2DCAA9D49EDC318291B5816B,
   0x2DB330C714196BFB8D7AEB362D9BB5F67EF6332440C9ABAD2D843963C72EE36AD18D64C92D6CBB0FD49133E5A944BB37,
   0x2D553AFB8EFC2D63A5C7D36A2D3DB927DE60217B9F1FBDF82D263595AABEA19B42C70D892D0EB045DC2A761544ABD758,
   0x2CF729395AC7952EE64B65B92CDFA0710ECB1A2CD43FEABF2CC815EDE07B3C5F5A98878F2CB089B0B82F462DF0540387,
   0x2C98FBBA7E4F8C221A5694CD2C816C0C1B5563F1A633226E2C69DAA677CB1B883D206EA82C52478A7C4BF0104F729E6C,
   0x2C3AB2B9118404FB58F199A12C231C3320305B097E64C62E2C0B83F9911EC75084ACA6212BF3EA0D4D2DEA4221C2E7D3,
   0x2BDC4E6F3D4D26B1A7F97D3B2BC4B1204A7C98D90BD156152BAD12215DCD0D5D44C15ED72B957173605FF85209466CD2,
   0x2B7DCF173B676C3CE694C62B2B662B0DD8261117B443FAD02B4E85581FEF1B52644DC9A52B36DDF6FC2642D42FB8D3B4,
   0x2B1F34EB563FB9FC2047E54E2B078A3617C024A0F786A35A2AEFDDD82A3C8F10738C71632AD82FD2775A650DF1CE6B2F,
   0x2AC08025E8CF68D0705952D92AA8CED36861A9FFEDCC5AC32A911BDBDFE77CB2286DB8C82A79674039477066BCB1F66D,
   0x2A61B1015E784702A38EF7E02A49F9203980EBCB10F3B9D92A323F9DB4786A5FB2BDCC922A1A847AB985E5B450859830,
   0x2A02C7B832E08F09CC9A7D1C29EB09570ACF9CE68687E8E729D349582BAA420E1F7C7E7829BB87BC7FD7A478A0EC7654,
   0x29A3C484F1CED44905C861E5298BFFB26C16C2C326A182BC29743945D94639410914ECDB295C71402403D02792D6B108,
   0x2944A7A23705E5DAA0B65258292CDC6CFD1295B081F5CFFF29150FA160FFAEE4D84C928F28FD41404DB2AB8ADCEF91B4,
   0x28E5714AAE20A77F0AF80D9028CD9FC16D4E57582F823CB528B5CCA5764FFF57DFDD55C5289DF7F7B4496A5A5626619E,
   0x288621B9126DE0C5B4A748EA286E49EA7C001F78B05395D72856708CDC524EB8A2BC68A2283E95A11EC5F91F03D5236C,
   0x2826B9282ECC02864BE257D1280EDB22F7E49EF63DEC867227F6FB92659F498F9B10469427DF1A77639ABB773F0571B4,
   0x27C737D2DD84E2C0A636F4D527AF53A5BF1AD957DDC4EF0C27976DF0F428DBEADDCACA8E277F86B5688A40D24E430371,
   0x27679DF408296EF9B6E254E1274FB3ADBEFFD4C71A440B682737C7E37915DF01FCC140A3271FDA962282EFB9D74CCA68,
   0x2707EBC6A76D552BF6ADAD1E26EFFB75F40A40A8C771E6B726D809A4F49DBD788EF36D7026C01654957AA7BF91C94315,
   0x26A82185C302A361A7FE834926902B3969A612E53F6958CB2678337075E40E55CC7BCB8826603A2BD44A5A25A9E85EAD,
   0x26483F6C71755E0F67747BB8263043333A101BF68852ACED261845811AD426C7B15EAF542600465700899958479569CC,
   0x25E845B5D8070D457F22DC6125D0439E8E3191D2DB60209825B840120FFCA2C8201B98DA25A03B114A6A1F4EB48572BE,
   0x2588349D2A8A40CE781AA55725702CB69D7B91CA09E89A342558235E906AE4BA8283B53B25401895F0934AEAA10AF4E5]

/-- `COS_ROM[1664]` to `COS_ROM[1791]`. -/
def cosRows13 : List Nat :=
  [0x25280C5DAB3E0B516B92E9DD250FFEB6ADC2996C43524A8024F7EFA1E5868C186CEA6BFD24DFDF203FFD946C0D25F065,
   0x24C7CD32AAA9748E9A87FE3024AFB9DA1319F690C4065B472497A51766ECE343CD48CAD6247F8EEB93CDF91060C81297,
   0x246777578776E2CCD8271193244F5E5C2FAF2E92FB2057A4243743FA7A4C44953562B254241F283355315DF343B728FB,
   0x24070B07AE4F7B8E58CAE74023EEEC7873A55CDCB9F79A6C23D6CC86933F76BCD464CB3223BEAB32FB37EA47CADCC2D4,
   0x23A6887E99B67BA37CAF8FB3238E646A5CF088D405FEC2AB23763EF73329008CB9CC83A8235E18260AB059009628A121,
   0x2345EFF7D1E486B232D6435D232DC66D7730F3432AC4F16723159B87E90E744300B79AD922FD6F48160341FD7F745EBD,
   0x22E541AEECA2EE4895D7CCCE22CD12BD5B8E5B51AF26639622B4E2745173B26A87F712E1229CB0D4BD0E5AD580118F24,
   0x22847DDF8D26F091699B4765226C4995B0933B24D5EDD471225413F816362468E071BCEE223BDD07ACFFAF5377D86F15,
   0x2223A4C563ECEEC1261055BD220B6B322A07FC3E574DF37021F3304EEE67EED02084F32521DAF41CA030D1BC85AC2349,
   0x21C2B69C2E939B524027549D21AA77CE88CE23B005B21B6D219237B49E2B1B8B502676792179F64F5E0202F6A67A63F2,
   0x2161B39FB7B72027674F71A221496FA69ABB763B156F5A6E21312A64F68CBBFC2690C7FF2118E3DBBAB552A654BF5472,
   0x21009C0BD6CC3CAA72C1EC9720E852F63A751471C3DAB83B20D0089BD5600320D73BB2AE20B7BCFD9749B759E78B228A,
   0x209F701C6FFB5BFEBED3248E208721F94F4A8EF21F37821C206ED295251957D8B0CD10AB205681F0E1561ED974EDDC30,
   0x203E300D73FBA35DBF65635A2025DCEBCD10F2D0B5D0310A200D888CDCA95F5E558A233C1FF532F192E476B20086B43E,
   0x1FDCDC1ADFEDF8B4916E9FC51FC48409B3FDCE49F75E41F91FAC2ABEFF58000E59A0136B1F93D03BB24CAD12C3BEA94B,
   0x1F7B7480BD3801995A49A6041F63178F10822DD118A90ADF1F4AB9679C9F5C91185A5FED1F325A0B520FAA1361F32C12,
   0x1F19F97B215F1AAF48443B891F0197B7FB2591934DF937DB1EE934C2D006C77E961018A81ED0D09C90B24179DF83F95A,
   0x1EB86B462DE347900C86E41C1EA004C09860DB8635A627271E879D0CC0FDAF934934CDC31E6F342B98981D173757DAEC,
   0x1E56CA1E101A1B51AB0FE7F41E3E5EE518793618509BCDE91E25F281A2B6848CA99004F41E0D84F49FDE9FD16EFE694B,
   0x1DF5163F010999BF820A19BE1DDCA661B75AF39A6B43283C1DC4355DB40194C46925D9061DABC333E837C1720E1931C3,
   0x1D934FE54543115D6E489DC41D7ADB72BC746678DDB471551D6265DD3F27E3A13ED51A201D49EF25BEC4E34FE22CCEFE,
   0x1D31774D2CBDEE4BF72395E41D18FE547A90B25B8E897AD01D00843C99C5F8F42F1AD6DF1CE809067BF19DEAFC628B00,
   0x1CCF8CB312B28624705615D91CB70F434FB29643A80770C61C9E90B824A6A95943C8A3E91C861112834E8791DB1D05A8,
   0x1C6D90535D74DCE404D41DDA1C550E7BA4EF2FBDF3AA29531C3C8B8C4B9DD7B2A7CA3E741C240786436BF426B58E1792,
   0x1C0B826A7E4F62FCA1D78C361BF2FC39EE48B740D45FC6361BDA74F585632FD5205843D31BC1EC9E35B4AE1BE3B9BC0F,
   0x1BA96334F15DACA2BD9CFE891B90D8BAAA8935CCDBF9EC221B784D30536CDA7CE128A9DD1B5FC096DE48A8BE6181334A,
   0x1B4732EF3D67226EF97575D71B2EA43A631D33E6FC8222831B16147941CA2AA1BD5267251AFD83ACCBD7ABE56F72C4BA,
   0x1AE4F1D5F3B9AB6AA2EF3BE71ACC5EF5ABEE62035A390CE41AB3CB0CE6FE4441BAB04BFD1A9B361C977BF91E582D8F97,
   0x1A82A025B004509E1BE800BE1A6A0929233E3A77C7141AF51A517127E3DABCB911976BFC1A38D822E494EA6B652DA811,
   0x1A203E1B1831DA38355B6B011A07A31171809D0CF48B023D19EF0706E35A34BEA6AF9FEC19D669FC60A18AAD11CB5ACC,
   0x19BDCBF2DC4366658CB4626519A52CEB493664456C75D2F7198C8CE69A7AEC1C10A898281973EBE5C31B27CC8F20D159,
   0x195B49E9B62AF9EEFF4C2E241942A6F366C7F471659DBD55192A0303C8194F383F63AC4719115E1BCD4FDEBEAF637863]

/-- `COS_ROM[1792]` to `COS_ROM[1919]`. -/
def cosRows14 : List Nat :=
  [0x18F8B83C69A60AB64B99180218E01166905FC4A68C75A3B718C7699B34CA7E8BDDFA0CA718AEC0DB4A3D2176530A7027,
   0x18961727C4180427FB569C85187D6C8195C4E1B2DC345E7C1864C0E9B2B6D0168CC83256184C14610E6A36DD75D8F76F,
   0x183366E89C64C5B9B5AB483C181AB88150356B21A8411C9E1802092C1D744AEC145A5FCA17E958E9F7C2B4EBFD932686,
   0x17D0A7BBD2CB1B8C1BFC360F17B7F5A2A2410A69F98A8F71179F429F59E11CF0B5BAB69017868EB2ED70F4F36FC46FA3,
   0x176DD9DE50BF314757BBB1401755242277A3645D66FB8CA6173C6D8055FE0ADBC037D13B1723B5F8DFB88236B79233BA,
   0x170AFD8D08C4FF49830FC4DA16F2443DC51E84EE93CB86AC16D98A0C08C8DA979842F33316C0CEF8C7D082E528194A34,
   0x16A81304F64AB23E19AE7F6C168F56318855456681E6A5CF1676987F7216B8165E7EB7A8165DD9EFA7BE1B8FEB4B9EC8,
   0x16451A831D830D35A2C06347162C5A3AC7A5AD1FEA186A79161399179A6E94B26982B32B15FAD71A8A2ECD3110AAFF4B,
   0x15E214448B3FC654C7FDDE7715C9509692034CDFCF04901715B08C1192E38131C835B6D31597C6B68252CDDB7297DA7E,
   0x157F008654CBDE321192B89915663981FED194E2834C66C8154D71AA74EF028405EF4DC31534A900ABB75C2AAC36065B,
   0x151BDF8597C5F1F9819A25441503153A2DBE25B45E83058E14EA4A1F624B61516CD1A49E14D17E362A210D8A5D26A5BC,
   0x14B8B17F79FA886D4D3F9624149FE3FC469B1BED5FC88DCC148715AD84CDF47305FF4BE6146E46942966176BFB84F147,
   0x145576B1293E59DAF4BB7DCC143CA605793956E7000C38EA1423D4920E41666A9A743064140B0257DD48938277B3FB48,
   0x13F22F57DB48931BFE7FF22713D95B92FD42BA83790E106B13C0870A383FF5F1FA5EB5AE13A7B1BE8150BF1AF89D80C0,
   0x138EDBB0CD8D13B99CF78102137604E212146C1DC943FD97135D2D53440DB1B8D3DD14B81344550558A735A9FA057873,
   0x132B7BF94516A74A893890C81312A22FFE990AB9BFC24E0A12F9C7AA7A72AF6864FBF92A12E0EC69ADEF26A4198B5258,
   0x12C8106E8E613A226001513412AF33BA1122E28B5E35DC8D1296564D2B953E0457BDD262127D7828D32086B9E1D8BB9E,
   0x1264994DFD340969D13389BD124BB9BD9F461BECE1DDBF3C1232D978AED413C019CE66641219F88021623C8DE6563CBA,
   0x120116D4EC7BCEB6F4DC7BEB11E8347805B2E5DAC743ABDF11CF516A62A077600453EC0F11B66DACF8E448FC848824F8,
   0x119D8940BE24E73D1B9B95221184A426A80F9C0D1F352FA9116BBE5FAC58653DAB0E44FB1152D7ECC0B9EB0CA2F1F0E2,
   0x1139F0CEDAF576AB72F2CB9311210906F0D2E8C58E345E1011082095F820B006ACA5DC8C10EF377CE6B3BFA0C80BAC2A,
   0x10D64DBCB26785D1D8B53BDA10BD6356511DE269523CBA8710A4784AB8BF1D4D60AE3766108B8C9ADF39DCFFE673BB7C,
   0x1072A047BA831D233B63EE021059B352409624FEAD50D7AF1040C5BB67747E02C2745B531027D7842525EA4D3E17FCA2,
   0x100EE8AD6FB85B2CE7D590610FF5F9383D3FE7A515CE73890FDD092583D6C2F0FA36E9580FC41876399D3306B4934296,
   0x0FAB272B54B9871A2704729B0F923545CB580E1F9001B9190F7942C693AB0D4DE8DD09C40F604FAEA3EAB6A1096FDD71,
   0x0F475BFEF2551F5B914E1A550F2E67B8752E368896DCC3800F1572DC22BFBB7D1CAA21C90EFC7D6AF15934594D651AA3,
   0x0EE38765D74FE4897ED16B990ECA90CDCAFEC346FC1683500EB199A3C2C6721897C6B31B0E98A1E8B50D335305FC7671,
   0x0E7FA99D983EE098FEEB8F9C0E66B0C362CCE15B2A43BB350E4DB75B0B2E2157D3C2BE170E34BD6587DF071A6953938F,
   0x0E1BC2E3CF616A7AC31883B30E02C7D6D83C8B1C35BDEBCF0DE9CC3F98FD06EC6F7384F50DD0D01F0834D0A21FE9F6D1,
   0x0DB7D3761C7B263B6BB286D20D9ED645CC6C877C2B5EB5EC0D85D88F0EAAAC6BF6BDA1080D6CDA52D9DC7BD3FC94FA67,
   0x0D53DB9224AE01BCA73374130D3ADC4DE5D065EB0E3A75880D21DC8713F9E25E35FCF8B50D08DC3EA5E5B9CC1CD16C51,
   0x0CEFDB7592542E1E96B47B8C0CD6DA2CD00A76EFF79A9CF50CBDD86555D2B8078CCE4C600CA4D6201A7BF7D5E5B8D583]

/-- `COS_ROM[1920]` to `COS_ROM[2047]`. -/
def cosRows15 : List Nat :=
  [0x0C8BD35E14DA15F0EC7396C90C72D0203BC5C18FCE7FA5C60C59CC67861C7006B601C09C0C40C834EAC0534253E07951,
   0x0C27C389609850433B228A040C0EBE65DE8FF5990DEB42C00BF5B8CB5B9771DD7C73035B0BDCB2BACEA38A2F1659B5A9,
   0x0BC3AC352EAD90ABEEB13E100BAAA53B72B35AEC131DDA3E0B919DCE91B7387BD66A67750B7895EF82BFE955EEEE8BC3,
   0x0B5F8D9F3CD8945D6924BEF10B4684DEB710BDD76ECE31DA0B2D7BAEE87C3DE4E302946F0B147210C83336FBD389BC56,
   0x0AFB68054D520C60BFDD2FC10AE25D8D6EF9589FB62F99B60AC952AA244DE40546D82E9E0AB0475C64789B174E800991,
   0x0A973BA526A6850D976F8C640A7E2F856208BA4A5259CE1E0A6522FE0DD45AD2670424FE0A4C1610214284C59D27DAC0,
   0x0A3308BC93904AD69DEC1B7F0A19FB045BFEAAC2CE5630D70A00ECE871D283CA030E1CAD09E7DE69CC548D260DD5A854,
   0x09CECF8962D14C82250FFE4F09B5C0482C990C7225B7E66D099CB0A720FFD2E9B022BD5F0983A0A7375D57B31FEE426E,
   0x096A9049670CFAE65F77574109517F8EA76DBB5F9737CF3009386E77EFE22D35B9696CEF091F5D0637D07030EA4C2EB7,
   0x09064B3A76A22640C56E0A8B08ED3915A3C469F280523D7808D42698B6A7C4E6EAD6520508BB13C4A6C026484DB30376,
   0x08A2009A6B84D940277724A30888ED1AFC707B6CC85AB2A8086FD9475100F356CD483CCC0856C52060B766E67A7ACC4E,
   0x083DB0A7231831D8F60E782308249BDC8FAADC3562E1D1B3080B86C19DFA10C1DC26591807F271574593937851FE2873,
   0x07D95B9E7E0837FB4785071B07C045983EEBD80A72A316B907A72F457FD549F73E074D5E078E18A7385E57192DA7F0F1,
   0x077501BE6023B24226274968075BEA8BEEC4EE32977AC0430742D310DBE4740D8B32A5140729BB4E1F2779CC96C0CFBF,
   0x0710A344B035F8B3B21C5A5406F78AF586BAA3C4F320AD6506DE72619A62DE342E061ADC06C55989E2DEB1DA7B524434,
   0x06AC406F57E0C5A9A39E8A3906932712F11E541F7192C53F067A0D75A64F21B8EA7285DD0660F3986F2D73656D9B1F35,
   0x0647D97C437604F9BB50BCAA062EBF221AE7FFA2E338C60F0615A48AED44F0591ADFD60805FC89B7B250BE527CA98783,
   0x05E36EA961D1A175AF885FE505CA5360F39018CC77DC1C8F05B137DF5F56E0F631D4AB2105981C259CF2EA9A35B814EA,
   0x057F0034A43350DA2669A6940565E40D6CE94FC42A909E33054CC7B0EEE83AC510BCAA770533AB202205731A5EE686B6,
   0x051A8E5BFE185E444DAB003F050171657AFA5C77AF9EB22F04E8543D9086BF0FC518C5D404CF36E5369ABEFFFCD3064A,
   0x04B6195D65157345A1BD96EA049CFBA713D7C75976649CB30483DDC33AC471A13E462B99046ABFB2D1BFE9E13576C96A,
   0x0451A176D0B05FAD76F2D883043883102F7DB0DB51FB3D68041F647FE6115FF28EDB92C3040645C6EC568A9EA3784027,
   0x03ED26E63A39E01FD802C87303D407DEC7A997BC5C32A55403BAE8B18C9567314D61060203A1C95F80EE7923ADE5C7EA,
   0x0388A9E99CA763914E140088036F8A50D7B41E41A734703103566A962A09F936A8DC3642033D4ABA8B9F931D78FE1F6E,
   0x03242ABEF46CCFBF2714E7B7030B0AA45C6ACE7152C4C9D402F1EA6BBB93E086C652B66C02D8CA1609E37FC0054F8E09,
   0x02BFA9A43F5644BBCFD5B8F202A6891753E9DD679AB778C4028D68703F9D036FFCFC4FDB027447AFFA6F72B1130BDB30,
   0x025B26D77C61DFA6D7E47B8E024205E7BD75EDDD74BC2B900228E4E1B5AE26618769E00E020FC3C65D0DEE305FF5D111,
   0x01F6A296AB997CA835AF09C001DD81539955D1F854249DFD01C45FFE1E48AD914060E4BD01AB3E9732788494D6C51686,
   0x01921D1FCDEC784661E3AFA10178FB98E8AC4C7AAAB7F5FA015FDA037AC05E08029902D30146B8607C3199364746B0A9,
   0x012D96B0E509702EE16ECE01011474F5AD51D16CBE08F5E100FB532FCD151E2C42E76F1000E231603C5E20DB3EDB734D,
   0x00C90F87F3380388D5CB3FF300AFEDA7E9AE4655691851830096CBC117CCB5E27CB42BDB007DA9D4759F61C2994210E8,
   0x006487E2FB3292E92BA407BD004B65EDA092C21A62519623003243F55DCC8E5B08D68EBE001921FB2AECB36061D855F9]

def cosRows : List Nat :=
  cosRows0 ++ cosRows1 ++ cosRows2 ++ cosRows3 ++ cosRows4 ++ cosRows5 ++ cosRows6 ++ cosRows7
    ++ cosRows8 ++ cosRows9 ++ cosRows10 ++ cosRows11 ++ cosRows12 ++ cosRows13 ++ cosRows14 ++ cosRows15

/-- 2^95 times the cosine of the first quarter's index `k < F/4`. -/
def cosData (k : Nat) : Nat := (cosRows.getD (k / 4) 0 >>> (96 * (3 - k % 4))) % 2 ^ 96

/-- The entries of the first quarter, `k < F/4`. -/
def cosQuarter (k : Nat) : V := Config.lit (cosData k) (2 ^ 95)

/-- `COS_ROM[k]`, `k < F/2` (R93). -/
def cosRom (k : Nat) : V :=
  if k < Config.fftSize / 4 then cosQuarter k
  else if k = Config.fftSize / 4 then posZero
  else fNeg (cosQuarter (Config.fftSize / 2 - k))

/-- `SIN_ROM[k]`, `k < F/2` (R93): `COS_ROM[F/4 - k]` up to a quarter, and `SIN_ROM[F/2 - k]` above. -/
def sinRom (k : Nat) : V :=
  if k ≤ Config.fftSize / 4 then cosRom (Config.fftSize / 4 - k) else cosRom (k - Config.fftSize / 4)

/-- `bitrev` of a `lg`-bit index (00_scope R15): bit `b` moves to bit `lg - 1 - b`. -/
def bitrev (lg i : Nat) : Nat := ((List.range lg).map fun b => (i / 2 ^ b % 2) * 2 ^ (lg - 1 - b)).sum

/-- `BITREV[i]` (R93). -/
def bitrevRom (i : Nat) : Nat := bitrev Config.log2F i

end Sys2Proof.Machine
end

