-- ==== Sys2Proof/Machine/Analyzer.lean ====
section
/-! DEFINITION. The SpectrumAnalyzer: SETV (43_spectrum R240), the mono mix (R241), the window (R242), the transform
(R245 to R247), the magnitudes (R248), the cadence (R243) and the emit (R250). -/

namespace Sys2Proof.Machine

/-! ### Control packet -/

/-- SETV (R240). -/
def applySetv (fps : V) (s : State) : State :=
  match invalidReason (.setv fps) with
  | some r => ignore s r
  | none =>
    let f := clamp fps Config.fpsMin Config.fpsMax
    raise { s with spec := { s.spec with fps := f, fpr := fDiv (fsf s.par) f } }
      (clampEvent .fps fps Config.fpsMin Config.fpsMax)

/-- SETV: set the visualizer frame rate (R240). -/
def execSetv (fps : V) (s : State) : Host.Outcome State Fault Refusal := .next (applySetv fps s)

/-! ### Mix and window -/

/-- The two-channel mono mix before its guard (R241). -/
def mixRaw (x : Stereo V) : V := fMul (fAdd x.ch0 x.ch1) half

/-- The mono mix of a frame (R241). -/
def mixOf (stereo : Bool) (x : Stereo V) : V := if stereo then sanV (mixRaw x) else x.ch0

def mixEvent (stereo : Bool) (t : Nat) (x : Stereo V) : List Event :=
  if stereo then sanEvent .mix none t (mixRaw x) else []

/-- The events of the mix, frame by frame from frame `t`. -/
def mixEvents (stereo : Bool) : Nat → List (Stereo V) → List Event
  | _, [] => []
  | t, x :: xs => mixEvent stereo t x ++ mixEvents stereo (t + 1) xs

/-- `SPEC.push` (R242): the window moved by the block's length, the new samples at its end. -/
def specPush (sb : Mem) (mix : List V) : Mem := memStore (memShift sb mix.length) (Config.fftSize - mix.length) mix

/-! ### The transform -/

/-- `c(n)` (R245): cos(2*pi*n/F) from the half table. -/
def windowCos (n : Nat) : V :=
  if n < Config.fftSize / 2 then cosRom n else fNeg (cosRom (n - Config.fftSize / 2))

/-- `w(n)` (R245): the periodic Hann window. -/
def windowAt (n : Nat) : V := fMul half (fSub one (windowCos n))

/-- The work memories `WRE`, `WIM` (20_memory R94): scratch of one emit, not state. -/
abbrev Work := Array Cplx

def workGet (w : Work) (i : Nat) : Cplx := w.getD i ⟨posZero, posZero⟩

/-- `FFT.load()` (R246) for a transform of `2^lg` points: sample `n`, windowed, goes to element `BITREV[n]`. The
window of a shorter transform is the `F`-point one at every `F / 2^lg`-th index. -/
def fftLoad (lg : Nat) (x : Nat → V) : Work :=
  (List.range (2 ^ lg)).foldl
    (fun w n => w.setIfInBounds (bitrev lg n) ⟨fMul (x n) (windowAt (n * (Config.fftSize / 2 ^ lg))), posZero⟩)
    (Array.replicate (2 ^ lg) ⟨posZero, posZero⟩)

/-- The twiddled element of a butterfly, `(tr, ti)` (R247). -/
def twiddle (wr ws : V) (z : Cplx) : Cplx :=
  { re := fAdd (fMul wr z.re) (fMul ws z.im), im := fSub (fMul wr z.im) (fMul ws z.re) }

/-- One butterfly on elements `a` and `b` with table index `k` (R247). -/
def butterfly (w : Work) (a b k : Nat) : Work :=
  let za := workGet w a
  let t := twiddle (cosRom k) (sinRom k) (workGet w b)
  (w.setIfInBounds b ⟨fSub za.re t.re, fSub za.im t.im⟩).setIfInBounds a ⟨fAdd za.re t.re, fAdd za.im t.im⟩

/-- Stage `s` (R247) of a transform of `2^lg` points: `m = 2^s`, the groups `k = 0, m, 2m, ..` and in each the pairs
`k + j`, `k + j + m/2`; the table index is `j * (F / m)`. -/
def fftStage (lg : Nat) (w : Work) (s : Nat) : Work :=
  let m := 2 ^ s
  (List.range (2 ^ lg / m)).foldl
    (fun w g =>
      (List.range (m / 2)).foldl (fun w j => butterfly w (g * m + j) (g * m + j + m / 2) (j * (Config.fftSize / m))) w)
    w

/-- `FFT.run()` (R247): stages `1 .. lg`. -/
def fftRun (lg : Nat) (w : Work) : Work := (List.range lg).foldl (fun w s => fftStage lg w (s + 1)) w

/-- The transform of the window `SB` (R246, R247). -/
def transform (sb : Mem) : Work := fftRun Config.log2F (fftLoad Config.log2F (memRead sb))

/-! ### Magnitudes -/

/-- 100.0 (R248). -/
def hundred : V := Config.lit 100

/-- The level in decibels of a bin's energy, clamped to [-100, 0] (R248). -/
def binDb (e : V) : V := clamp (fMul twenty (fLog10 (fAdd (fSqrt e) Config.eps))) Config.dbLo Config.dbHi

/-- `TLM[k]` of a bin's energy (R248). -/
def binLevel (e : V) : V :=
  let v := fDiv (fAdd (binDb e) hundred) hundred
  if isNaN v then posZero else v

/-- `SPEC.mag()` (R248): the values of `TLM[0 .. F/2-1]`. -/
def specMag (w : Work) : List V := (List.range (Config.fftSize / 2)).map fun k => binLevel (energy (workGet w k))

/-! ### Emit and cadence -/

/-- The TLM packet of the telemetry registers (20_memory R99, 30_encoding R129). -/
def tlmPacket (t : Telemetry) : TlmPacket :=
  { sbrActive := t.sbrActive, seq := t.seq, red := t.red, data := memElems t.mem (Config.fftSize / 2) }

/-- The telemetry registers after an emit: the values written to `TLM`, the reduction, the flag, the next number
(R250). -/
def tlmEmit (mag : List V) (red : V) (sbr : Bool) (t : Telemetry) : Telemetry :=
  { mem := memStore t.mem 0 mag, red := red, sbrActive := sbr, seq := t.seq + 1 }

/-- `Emit(elapsed)` (R250). -/
def emit (elapsed : Nat) (s : State) : State :=
  let w := transform s.spec.sb
  let exc := excDetect s.par w elapsed s.exc
  let rd := readReduction s.dyn
  let tlm := tlmEmit (specMag w) rd.1 (sbrFlag exc) s.tlm
  publishTlm { s with exc := exc, dyn := rd.2, tlm := tlm } (tlmPacket tlm)

/-- The cadence test (R243). -/
def tickFires (acc : BitVec 32) (fpr : V) : Bool := fLe fpr (toF acc.toNat)

/-- `SPEC.tick()` (R243): at most one emit. -/
def specTick (s : State) : State :=
  let acc := s.spec.acc + BitVec.ofNat 32 s.par.block
  if tickFires acc s.spec.fpr then emit acc.toNat { s with spec := { s.spec with acc := 0 } }
  else { s with spec := { s.spec with acc := acc } }

end Sys2Proof.Machine
end

