-- ==== Sys2Proof/Machine/Filter.lean ====
section
/-! DEFINITION. The FilterBank: MODF, RSTF, SETQ (40_filterbank section 1) and the biquad cascade (section 3). -/

namespace Sys2Proof.Machine

/-! ### Control packets -/

/-- A section with new parameters and the row they give, or, if the row is not finite, the section as it was (R150,
R158). -/
def withParams (p : Params) (mode : QualityMode) (i : Nat) (old : Section) (x : FilterParams) : Section :=
  let row := coef p (kindOf i) x.frequency (fMul x.q (qScale mode)) x.gain
  if rowOk row then { f := x.frequency, g := x.gain, q := x.q, row := row } else old

/-- `raise CmdIgnored(NonFiniteCoef)` if the row is not finite. -/
def coefEvent (p : Params) (mode : QualityMode) (i : Nat) (x : FilterParams) : List Event :=
  if rowOk (coef p (kindOf i) x.frequency (fMul x.q (qScale mode)) x.gain) then [] else [.cmdIgnored (.nonFiniteCoef i)]

/-- MODF (R150). -/
def applyModf (index : BitVec 8) (x : FilterParams) (s : State) : State :=
  match invalidReason (.modf index x) with
  | some r => ignore s r
  | none =>
    if h : index.toNat < Config.nBands then
      let y := clampFilter s.par x
      let sec := withParams s.par s.fb.qmode index.toNat s.fb.sections[index.toNat] y
      raise { s with fb := { s.fb with sections := s.fb.sections.set index.toNat sec } }
        (clampFilterEvents s.par x ++ coefEvent s.par s.fb.qmode index.toNat y)
    else ignore s (.badIndex index)

/-- MODF: modify one section (R150). -/
def execModf (index : BitVec 8) (x : FilterParams) (s : State) : Host.Outcome State Fault Refusal :=
  .next (applyModf index x s)

/-- The parameters RSTF gives section `i` (R151). -/
def resetParams (p : Params) (i : Fin Config.nBands) : FilterParams :=
  { frequency := clamp Config.center[i] Config.fLo (fHi p), gain := posZero, q := Config.qDefault }

/-- The events of RSTF for section `i`: `ParamClamped` if `CENTER[i]` exceeds `F_HI`, and a row that is not finite.
DESIGN CHOICE (log 35): R300 records an operand name and the value before the clamp, and RSTF has no operands; the name
is `frequency`, the operand MODF would set `fb.f[i]` from, the value is `CENTER[i]`, and the section is not recorded. -/
def rstfEvents (p : Params) (mode : QualityMode) (i : Fin Config.nBands) : List Event :=
  clampEvent .frequency Config.center[i] Config.fLo (fHi p) ++ coefEvent p mode i.val (resetParams p i)

/-- RSTF (R151): each section by itself, in ascending order. -/
def applyRstf (s : State) : State :=
  raise
    { s with fb := { s.fb with
        sections := Vector.ofFn fun i =>
          withParams s.par s.fb.qmode i.val s.fb.sections[i] (resetParams s.par i) } }
    ((List.finRange Config.nBands).flatMap (rstfEvents s.par s.fb.qmode))

/-- RSTF: reset the filters (R151). -/
def execRstf (s : State) : Host.Outcome State Fault Refusal := .next (applyRstf s)

/-- The parameter registers of a section. -/
def paramsOf (x : Section) : FilterParams := { frequency := x.f, gain := x.g, q := x.q }

/-- SETQ (R152): the mode register, then every row from the section's own parameters. -/
def applySetq (mode : BitVec 2) (s : State) : State :=
  match modeOf mode with
  | none => ignore s (.badMode mode)
  | some m =>
    raise
      { s with fb := { s.fb with
          qmode := m
          sections := Vector.ofFn fun i =>
            withParams s.par m i.val s.fb.sections[i] (paramsOf s.fb.sections[i]) } }
      ((List.finRange Config.nBands).flatMap fun i => coefEvent s.par m i.val (paramsOf s.fb.sections[i]))

/-- SETQ: set the quality mode (R152). -/
def execSetq (mode : BitVec 2) (s : State) : Host.Outcome State Fault Refusal := .next (applySetq mode s)

/-! ### The recurrence (R160) -/

/-- The section output before the guard: Direct Form I, each delayed input combined with the delayed output of the
same age first. -/
def biquadRaw (r : CoefRow) (b : Biquad) (v : V) : V :=
  let d1 := fSub (fMul r.b1 b.x1) (fMul r.a1 b.y1)
  let d2 := fSub (fMul r.b2 b.x2) (fMul r.a2 b.y2)
  fAdd (fMul r.b0 v) (fAdd d1 d2)

/-- The section's output: the guarded value (R22). -/
def biquadOut (r : CoefRow) (b : Biquad) (v : V) : V := sanV (biquadRaw r b v)

/-- The section's filter state after input `v` and output `y`. -/
def biquadShift (b : Biquad) (v y : V) : Biquad := { x2 := b.x1, x1 := v, y2 := b.y1, y1 := y }

/-- The first `k` sections applied to one sample of channel `c`, in ascending order (R160). -/
def cascade (sections : Vector Section Config.nBands) (hist : Vector Biquad Config.nBands) (c : Chan) (t : Nat)
    (x : V) : Nat → StageOut V (Vector Biquad Config.nBands)
  | 0 => { out := x, st := hist, ev := [] }
  | k + 1 =>
    match cascade sections hist c t x k with
    | ⟨v, st, ev⟩ =>
      if h : k < Config.nBands then
        let row := sections[k].row
        let b := hist[k]
        let y := biquadOut row b v
        { out := y, st := st.set k (biquadShift b v y)
          ev := ev ++ sanEvent (.section_ k) (some c) t (biquadRaw row b v) }
      else ⟨v, st, ev⟩

/-- `FB.process(x, c)` (R160) at frame `t`: only the registers of channel `c` are read or written (R161). -/
def fbProcess (fb : FilterBank) (c : Chan) (t : Nat) (x : V) : StageOut V FilterBank :=
  let o := cascade fb.sections (chGet fb.hist c) c t x Config.nBands
  { out := o.out, st := { fb with hist := chSet fb.hist c o.st }, ev := o.ev }

end Sys2Proof.Machine
end

