-- ==== Sys2Proof/Machine/Pipeline.lean ====
section
/-! DEFINITION. Routing and control: MODG, INIT (44_orchestrator R270, R271), PROC and the pipeline (R273, R274), and
the packets the block sends, AOUT and TLM. -/

namespace Sys2Proof.Machine

/-! ### Control packets -/

/-- MODG (R270). -/
def applyModg (g : V) (s : State) : State :=
  match invalidReason (.modg g) with
  | some r => ignore s r
  | none => { s with gain := g }

/-- MODG: set the master gain (R270). -/
def execModg (g : V) (s : State) : Host.Outcome State Fault Refusal := .next (applyModg g s)

/-- The MODF parts of INIT, in ascending order from section `i` (R271). -/
def applyFilters : Nat → List FilterParams → State → State
  | _, [], s => s
  | i, x :: xs, s => applyFilters (i + 1) xs (applyModf (BitVec.ofNat 8 i) x s)

/-- INIT (R271): its parts in order, each with its own validity test. -/
def applyInit (p : InitPacket) (s : State) : State :=
  let s := applyModg p.gain s
  let s := applySetq p.qualityMode s
  let s := applyFilters 0 p.filters s
  let s := applySetx p.sbrEnabled p.sbrGain s
  let s := applySetl p.limiterEnabled p.detectorMode p.limiter s
  applySetv p.fps s

/-- INIT: load a whole configuration (R271). -/
def execInit (p : InitPacket) (s : State) : Host.Outcome State Fault Refusal := .next (applyInit p s)

/-! ### The pipeline -/

/-- One sample of one channel up to the limiter (R274): the input guard, the FilterBank, the master gain, the
exciter. -/
def channelStep (c : Chan) (t : Nat) (x : V) (s : State) : V × State :=
  let a := fbProcess s.fb c t (sanV x)
  let raw := fMul a.out s.gain
  let b := excProcess s.exc c t (sanV raw)
  (b.out, raise { s with fb := a.st, exc := b.st }
    (sanEvent .input (some c) t x ++ a.ev ++ sanEvent .masterGain (some c) t raw ++ b.ev))

/-- The channels of a frame, in ascending order (R274); a one-channel frame has no channel 1. -/
def channels (stereo : Bool) (t : Nat) (x : Stereo V) (s : State) : Stereo V × State :=
  let a := channelStep .c0 t x.ch0 s
  if stereo then
    let b := channelStep .c1 t x.ch1 a.2
    (⟨a.1, b.1⟩, b.2)
  else (⟨a.1, posZero⟩, a.2)

/-- The limiter, or its bypass (41_dynamics R185, R186). -/
def limiter (stereo : Bool) (t : Nat) (x : Stereo V) (s : State) : Stereo V × State :=
  if s.dyn.enabled then
    let o := dynProcess s.par stereo t x s.dyn
    (o.out, raise { s with dyn := o.st } o.ev)
  else (x, s)

/-- `Frame(nch, x)` (R274) at frame `t`. -/
def frame (stereo : Bool) (t : Nat) (x : Stereo V) (s : State) : Stereo V × State :=
  let a := channels stereo t x { s with exc := excRamp s.par s.exc }
  limiter stereo t a.1 a.2

/-- The frames of a block, in order from frame `t` (R273). -/
def frames (stereo : Bool) : Nat → List (Stereo V) → State → List (Stereo V) × State
  | _, [], s => ([], s)
  | t, x :: xs, s =>
    let a := frame stereo t x s
    let b := frames stereo (t + 1) xs a.2
    (a.1 :: b.1, b.2)

/-- The analyzer's part of a block (R273): the mix joins the window, and the cadence may emit. -/
def analyze (stereo : Bool) (out : List (Stereo V)) (s : State) : State :=
  specTick (raise { s with spec := { s.spec with sb := specPush s.spec.sb (out.map (mixOf stereo)) } }
    (mixEvents stereo 0 out))

/-- PROC on a well-formed block (R273). -/
def procBlock (p : AudioPacket) (s : State) : State :=
  let stereo := isStereo p.nch
  let a := frames stereo 0 (planarFrames s.par.block p.samples) s
  deliverAout (analyze stereo a.1 a.2) { nch := p.nch, samples := planarSamples p.nch a.1 }

/-- PROC: process one audio block (R273); a submission that R133 refuses has no meaning. -/
def execProc (p : AudioPacket) (s : State) : Host.Outcome State Fault Refusal :=
  if audioFits s.par.block p.nch p.samples.length then .next (procBlock p s) else .refused .malformedAudio

/-! ### The packets the block sends (log 5) -/

/-- AOUT: port AOUT hands the packet to the host (20_memory R98, 30_encoding R123). -/
def execAout (p : AudioPacket) (s : State) : Host.Outcome State Fault Refusal := .next (handAout s p)

/-- TLM: port TLMO hands the packet to the host (20_memory R99, 30_encoding R129). -/
def execTlm (p : TlmPacket) (s : State) : Host.Outcome State Fault Refusal := .next (handTlm s p)

end Sys2Proof.Machine
end

