-- ==== Sys2Proof/Machine/Dispatch.lean ====
section
/-! DEFINITION. The meaning of each packet, one arm per constructor of Instr. -/

namespace Sys2Proof.Machine

def exec (i : Instr) (s : State) : Host.Outcome State Fault Refusal :=
  match i with
  | .init p => Sys2Proof.Machine.execInit p s
  | .modf index p => Sys2Proof.Machine.execModf index p s
  | .modg gain => Sys2Proof.Machine.execModg gain s
  | .rstf => Sys2Proof.Machine.execRstf s
  | .setq mode => Sys2Proof.Machine.execSetq mode s
  | .setx enabled gain => Sys2Proof.Machine.execSetx enabled gain s
  | .setl enabled detectorMode p => Sys2Proof.Machine.execSetl enabled detectorMode p s
  | .setv fps => Sys2Proof.Machine.execSetv fps s
  | .proc p => Sys2Proof.Machine.execProc p s
  | .aout p => Sys2Proof.Machine.execAout p s
  | .tlm p => Sys2Proof.Machine.execTlm p s

end Sys2Proof.Machine
end

