-- ==== Sys2Proof/Machine/Sequencer.lean ====
section
/-! DEFINITION. The step relation of 44_orchestrator R280 as a function: the host's next move is read from the state
(log 1), and where the host waits, or cannot go on, the block moves. -/

namespace Sys2Proof.Machine

/-- What a control step does with the outcome at the head of `cq` (R279), in the state whose queue is already the
tail. -/
def ctrlApply (o : CtrlOutcome) (s : State) : Host.Outcome State Fault Refusal :=
  match o with
  | .apply i => exec i s
  | .ignorePacket _ r => .next (ignore s r)
  | .ignoreRaw _ r => .next (ignore s r)

/-- What the block does with port AIN once `cq` is empty (R280 `ProcStep`): nothing while the last AOUT packet has not
been taken (20_memory R98) or the packet is still arriving; it refuses a malformed one (R133). -/
def audioMove (s : State) : Host.Outcome State Fault Refusal :=
  if s.aout.isSome then .next s
  else
    match ainStatus s.par.block s.ainBuf with
    | .wait => .next s
    | .bad => .refused .malformedAudio
    | .packet p => exec (.proc p) { s with ainBuf := [] }

/-- The block's move: `CtrlStep` while `cq` is not empty, else `ProcStep`, else the block is idle and keeps all state
(R279, R280, 20_memory R105, 60_exceptions R314). -/
def blockMove (s : State) : Host.Outcome State Fault Refusal :=
  match s.cq with
  | o :: rest => ctrlApply o { s with cq := rest }
  | [] => audioMove s

/-- The host's move `m`, already removed from its list in `s`; `stay` is the state in which the host still waits to
make it, and the block moves.
DESIGN CHOICE (log 33): the spec is silent on a host that takes or reads at `TLMO` while no packet stands there. Here
the move finds nothing and is over: it is removed from the list, nothing else changes, and the block does not move in
that step. At the other three ports the host waits instead, and the block moves; R281 asks the telemetry consumer to
wait for nothing. -/
def hostMove (m : HostMove) (stay s : State) : Host.Outcome State Fault Refusal :=
  match m with
  | .ctrl w => if ctrlReady s then .next (takeCtrlWord s w) else blockMove stay
  | .ain w => if ainReady s then .next (takeAinWord s w) else blockMove stay
  | .takeAout =>
    match s.aout with
    | some p => exec (.aout p) s
    | none => blockMove stay
  | .takeTlm =>
    match s.tlmo with
    | some p => exec (.tlm p) s
    | none => .next s
  | .readTlm => .next (readTlm s)
  | .reset straps => .next (resetBlock s straps)
  | .wait => blockMove s

/-- One step of an instance whose straps are legal (R280). -/
def legalStep (s : State) : Host.Outcome State Fault Refusal :=
  match s.host with
  | [] => blockMove s
  | m :: rest => hostMove m s { s with host := rest }

/-- One step. An instance whose straps are out of range has no step but reset (R331, 93 U8). -/
def stepBlock (s : State) : Host.Outcome State Fault Refusal :=
  if strapsLegal s.par then legalStep s
  else
    match s.host with
    | .reset straps :: rest => .next (resetBlock { s with host := rest } straps)
    | _ => .fault .illegalInstance

/-! ### Placing an instruction where the next step fetches -/

/-- The words of an instruction placed where its port's packets are fetched, with the host's next move the one that
lets the step fetch it: a PROC at AIN with the queue empty and no AOUT packet waiting; an AOUT or a TLM packet in its
port's register with the host about to take it; any other packet decoded at the head of `cq` (log 16). -/
def placeWords (s : State) (ws : List Word) : State :=
  match ws with
  | [] => s
  | h :: ops =>
    match decode ws with
    | .ok (.aout p, _) => { s with aout := some p, host := .takeAout :: s.host }
    | .ok (.tlm p, _) => { s with tlmo := some p, host := .takeTlm :: s.host }
    | .ok (.proc _, _) => { s with cq := [], aout := none, ainBuf := ws, host := .wait :: s.host }
    | _ => { s with cq := decodeCtrl h ops :: s.cq.tail, host := .wait :: s.host }

end Sys2Proof.Machine
end

