-- ==== Sys2Proof/Machine/Step.lean ====
section
/-! DEFINITION. The step, and the placing of an instruction where it fetches next. -/

namespace Sys2Proof.Machine

/-- One step of the block and its host (44_orchestrator R280). -/
def step (s : State) : Host.Outcome State Fault Refusal := stepBlock s

/-- `s` with the instruction whose first `nbits` bits are `w` where the next step fetches it. -/
def State.withFetchWord (s : State) (nbits w : Nat) : State := placeWords s (tableWords nbits w)

end Sys2Proof.Machine
end

