-- ==== Sys2Proof/Machine/Assembler.lean ====
section
/-! DEFINITION. The assembler syntax (30_encoding R134): the line of each packet, and the packet of a line. AOUT and
TLM have no line: the block makes them.
DESIGN CHOICE (log 32), on reading: a number is a decimal literal (00_scope R19) or a `0x` word, the sections' indices
and the channel counts included; a mode is its name or its number. On writing: an operand word is a `0x` word, an index
or a channel count is decimal digits, a mode is its name, and the number 3 where it has none. -/

namespace Sys2Proof.Machine

/-- A hexadecimal digit. -/
def hexDigit (n : Nat) : Char := if n < 10 then Char.ofNat (48 + n) else Char.ofNat (55 + n)

/-- A word as `0x` and eight digits. -/
def asmWord (w : Word) : String :=
  "0x" ++ String.ofList ([7, 6, 5, 4, 3, 2, 1, 0].map fun k => hexDigit (w.toNat / 16 ^ k % 16))

def asmBool (b : Bool) : String := if b then "on" else "off"

def asmDet : DetectorMode → String
  | .peak => "peak"
  | .rms => "rms"

/-- The mode names; the number 3 for the value that names no mode (log 32). -/
def asmMode (m : BitVec 2) : String :=
  if m = 0 then "efficient" else if m = 1 then "quality" else if m = 2 then "hifi" else "3"

/-- A mnemonic and its fields, separated by commas. -/
def asmLine (mnemonic : String) (fields : List String) : String :=
  if fields.isEmpty then mnemonic else mnemonic ++ " " ++ String.intercalate ", " fields

/-- A value of an operand as its word (R11). -/
def asmValue (v : V) : String := asmWord (toWord v)

def asmFilter (x : FilterParams) : List String := (encodeFilter x).map asmWord

/-- The limiter's fields from `attack` to `rmsTimeMs`, the detector mode before the last (R134). -/
def asmLimiter (det : DetectorMode) (x : LimiterParams) : List String :=
  [asmValue x.attack, asmValue x.threshold, asmValue x.knee, asmValue x.lookaheadMs, asmDet det, asmValue x.rmsTimeMs]

/-- The line of a packet (R134). -/
def asm : Instr → Option String
  | .init p => some (asmLine "INIT"
      (asmValue p.gain :: p.filters.flatMap asmFilter
        ++ [asmMode p.qualityMode, asmBool p.sbrEnabled, asmValue p.sbrGain, asmBool p.limiterEnabled]
        ++ asmLimiter p.detectorMode p.limiter ++ [asmValue p.fps]))
  | .modf index x => some (asmLine "MODF" (toString index.toNat :: asmFilter x))
  | .modg gain => some (asmLine "MODG" [asmValue gain])
  | .rstf => some (asmLine "RSTF" [])
  | .setq mode => some (asmLine "SETQ" [asmMode mode])
  | .setx enabled gain => some (asmLine "SETX" [asmBool enabled, asmValue gain])
  | .setl enabled det x => some (asmLine "SETL" (asmBool enabled :: asmLimiter det x))
  | .setv fps => some (asmLine "SETV" [asmValue fps])
  | .proc p => some (asmLine "PROC" (toString p.nch.toNat :: p.samples.map asmValue))
  | .aout _ => none
  | .tlm _ => none

/-! ### From a line to its packet -/

/-- The fields of a line after its mnemonic: the text between the commas, without spaces. -/
def splitFields : List Char → List Char → List (List Char)
  | acc, [] => [acc.reverse]
  | acc, c :: cs =>
    if c = ',' then acc.reverse :: splitFields [] cs
    else if c = ' ' then splitFields acc cs
    else splitFields (c :: acc) cs

/-- The fields of a line, none for a line that is its mnemonic alone. -/
def fieldsOf (cs : List Char) : List (List Char) := if cs.all (· = ' ') then [] else splitFields [] cs

/-- The value of a digit in the given base, 10 or 16. -/
def digitOf (base : Nat) (c : Char) : Option Nat :=
  let n := c.toNat
  let v := if 48 ≤ n ∧ n ≤ 57 then n - 48 else if 65 ≤ n ∧ n ≤ 70 then n - 55 else if 97 ≤ n ∧ n ≤ 102 then n - 87
    else base
  if v < base then some v else none

/-- A number of at least one digit, most significant first. -/
def digits (base : Nat) : List Char → Option Nat
  | [] => none
  | cs => cs.foldl (fun acc c => acc.bind fun n => (digitOf base c).map (n * base + ·)) (some 0)

/-- The text before and after the first of the given characters. -/
def breakAt (stops : List Char) : List Char → List Char × List Char
  | [] => ([], [])
  | c :: cs => if c ∈ stops then ([], cs) else let r := breakAt stops cs; (c :: r.1, r.2)

/-- An exponent: digits, or a minus sign and digits; nothing is 0. -/
def exponentOf : List Char → Option Int
  | [] => some 0
  | '-' :: cs => (digits 10 cs).map fun n => -(n : Int)
  | cs => (digits 10 cs).map fun n => (n : Int)

/-- A decimal literal without its sign: digits, perhaps a point and digits, perhaps `e` and an exponent; the value of
`V` nearest to it (R19). -/
def decimalOf (neg : Bool) (cs : List Char) : Option V :=
  let m := breakAt ['e', 'E'] cs
  let w := breakAt ['.'] m.1
  match digits 10 (w.1 ++ w.2), exponentOf m.2 with
  | some n, some e =>
    let e := e - w.2.length
    let value := Fp.lit Config.numerics.format neg
    some (if 0 ≤ e then value (n * 10 ^ e.toNat) 1 else value n (10 ^ (-e).toNat))
  | _, _ => none

/-- A number of `V` (R134): a `0x` word, read as R11 reads it, or a decimal literal. -/
def numberOf : List Char → Option V
  | '0' :: 'x' :: cs => (digits 16 cs).bind fun n => if n < 2 ^ 32 then some (ofWord (BitVec.ofNat 32 n)) else none
  | '-' :: cs => decimalOf true cs
  | cs => decimalOf false cs

/-- The natural a field stands for: decimal digits, or a `0x` word. -/
def naturalOf : List Char → Option Nat
  | '0' :: 'x' :: cs => digits 16 cs
  | cs => digits 10 cs

/-- A field of at most 8 bits: an index or a channel count.
DESIGN CHOICE (log 32): R134 sets these numbers apart in nothing, so both of its ways to write a number are read; it
does not say what a decimal literal with a point would be here, and such a field is no number. -/
def byteOf (cs : List Char) : Option (BitVec 8) :=
  (naturalOf cs).bind fun n => if n < 256 then some (BitVec.ofNat 8 n) else none

def boolOf (cs : List Char) : Option Bool :=
  if cs = "on".toList then some true else if cs = "off".toList then some false else none

def detOf (cs : List Char) : Option DetectorMode :=
  if cs = "peak".toList then some .peak else if cs = "rms".toList then some .rms else none

/-- A mode: the mode names stand for their numbers (R127).
DESIGN CHOICE (log 32): R134 lists the names, and 95_test_vectors P5 writes the line `SETQ 3`; a number of the 2-bit
field is read too, so the line of every packet is read back. -/
def modeNameOf (cs : List Char) : Option (BitVec 2) :=
  if cs = "efficient".toList then some 0 else if cs = "quality".toList then some 1
  else if cs = "hifi".toList then some 2
  else (naturalOf cs).bind fun n => if n < 4 then some (BitVec.ofNat 2 n) else none

/-- Every field a number. -/
def numbersOf (fs : List (List Char)) : Option (List V) := fs.mapM numberOf

/-- The limiter's fields after its enable (R134). -/
def limiterOf : List (List Char) → Option (DetectorMode × LimiterParams)
  | [at_, th, kn, la, det, rm] =>
    match numbersOf [at_, th, kn, la, rm], detOf det with
    | some [at_, th, kn, la, rm], some d => some (d, ⟨at_, th, kn, la, rm⟩)
    | _, _ => none
  | _ => none

/-- INIT's filters, three numbers each (R134). -/
def filtersOf : List V → Option (List FilterParams)
  | [] => some []
  | f :: g :: q :: vs => (filtersOf vs).map (⟨f, g, q⟩ :: ·)
  | _ => none

/-- The numbers of an INIT line before its mode: the gain and three for each section (R134). -/
def initNumbers : Nat := 1 + 3 * Config.nBands

/-- The fields of an INIT line (R134). -/
def initOf (fs : List (List Char)) : Option Instr :=
  match numbersOf (fs.take initNumbers), fs.drop initNumbers with
  | some (gain :: ws), mode :: sbrOn :: sbrGain :: limOn :: rest =>
    match filtersOf ws, modeNameOf mode, boolOf sbrOn, numberOf sbrGain, boolOf limOn,
        limiterOf (rest.take 6), numbersOf (rest.drop 6) with
    | some filters, some mode, some sbrOn, some sbrGain, some limOn, some (det, lim), some [fps] =>
      some (.init { qualityMode := mode, sbrEnabled := sbrOn, limiterEnabled := limOn, detectorMode := det
                    gain := gain, filters := filters, sbrGain := sbrGain, limiter := lim, fps := fps })
    | _, _, _, _, _, _, _ => none
  | _, _ => none

/-- The packet of a mnemonic and its fields. -/
def packetOf (mnemonic : List Char) (fs : List (List Char)) : Option Instr :=
  if mnemonic = "INIT".toList then initOf fs
  else if mnemonic = "MODF".toList then
    match fs with
    | index :: rest =>
      match byteOf index, numbersOf rest with
      | some i, some [f, g, q] => some (.modf i ⟨f, g, q⟩)
      | _, _ => none
    | [] => none
  else if mnemonic = "MODG".toList then
    match numbersOf fs with
    | some [g] => some (.modg g)
    | _ => none
  else if mnemonic = "RSTF".toList then (if fs = [] then some .rstf else none)
  else if mnemonic = "SETQ".toList then
    match fs with
    | [mode] => (modeNameOf mode).map .setq
    | _ => none
  else if mnemonic = "SETX".toList then
    match fs with
    | [on, gain] =>
      match boolOf on, numberOf gain with
      | some b, some g => some (.setx b g)
      | _, _ => none
    | _ => none
  else if mnemonic = "SETL".toList then
    match fs with
    | on :: rest =>
      match boolOf on, limiterOf rest with
      | some b, some (det, lim) => some (.setl b det lim)
      | _, _ => none
    | [] => none
  else if mnemonic = "SETV".toList then
    match numbersOf fs with
    | some [f] => some (.setv f)
    | _ => none
  else if mnemonic = "PROC".toList then
    match fs with
    | nch :: rest =>
      match byteOf nch, numbersOf rest with
      | some n, some samples => some (.proc ⟨n, samples⟩)
      | _, _ => none
    | [] => none
  else none

/-- The packet a line stands for: its mnemonic first, then its fields separated by commas (R134). -/
def assemble (line : List Char) : Option Instr :=
  let m := breakAt [' '] line
  packetOf m.1 (fieldsOf m.2)

end Sys2Proof.Machine
end

