-- ==== Sys2Proof/Safety.lean ====
section
/-! DEFINITION. What counts as a safe state and a safe run: the invariants of 10_state R60, in two parts, and the
events of a run in which no sample was replaced (00_scope R14, R22). -/

namespace Sys2Proof.Machine

/-! ### Queues, counters, indices and memory spaces -/

/-- R60, R56, R90: the counters and indices are in range, the generator is not 0, the queue is not over its depth, and
each memory space is in its canonical form within its size. -/
def structureOk (s : State) : Bool :=
  decide (s.cq.length ≤ s.par.cqDepth)
    && decide (s.dyn.wr < laCap s.par) && decide (s.dyn.delay ≤ dMax s.par)
    && decide (s.exc.hold.toNat ≤ holdSamples s.par) && s.exc.rng != 0
    && memWf (laCap s.par) s.dyn.dl.ch0 && memWf (laCap s.par) s.dyn.dl.ch1
    && memWf Config.fftSize s.spec.sb && memWf (Config.fftSize / 2) s.tlm.mem

/-! ### Values of the working format -/

/-- Every listed element is finite. -/
def memFinite (m : Mem) : Bool := m.all fun c => isFinite c.2

/-- A section's parameters are in their legal ranges (R42) and its row is finite (R44). -/
def sectionOk (p : Params) (x : Section) : Bool :=
  fIn Config.fLo (fHi p) x.f && fIn Config.gLo Config.gHi x.g && fIn Config.qLo Config.qHi x.q && rowOk x.row

def biquadFinite (b : Biquad) : Bool := isFinite b.x1 && isFinite b.x2 && isFinite b.y1 && isFinite b.y2

/-- R42 to R45. -/
def fbOk (p : Params) (fb : FilterBank) : Bool :=
  fb.sections.toList.all (sectionOk p) && fb.hist.ch0.toList.all biquadFinite && fb.hist.ch1.toList.all biquadFinite

/-- R47: the configuration of the limiter. -/
def dynConfigOk (d : Dynamics) : Bool :=
  fIn Config.thMin Config.thMax d.thresholdLinear && fIn Config.kneeMin Config.kneeMax d.kneeDb
    && d.ratio == Config.ratio && fIn Config.attMin Config.attMax d.attackSec && d.releaseSec == Config.relSec
    && fIn Config.laMinMs Config.laMaxMs d.lookaheadMs && fIn Config.rmsMinMs Config.rmsMaxMs d.rmsWindowMs

/-- A smoothing coefficient lies in (0, 1.0] (R48). -/
def coefUnit (k : V) : Bool := fLt posZero k && fLe k one

/-- R48, R49 and DL: the derived and the runtime registers of the limiter. -/
def dynRunOk (d : Dynamics) : Bool :=
  coefUnit d.kA && coefUnit d.kR && coefUnit d.kRms && isFinite d.g && isFinite d.ms && fLe posZero d.ms
    && isFinite d.minRed && memFinite d.dl.ch0 && memFinite d.dl.ch1

/-- A finite value that is not negative. -/
def nonNeg (v : V) : Bool := isFinite v && fLe posZero v

/-- R51, with the signs of 42_exciter R214. -/
def excChanOk (k : ExcChan) : Bool :=
  nonNeg k.envFast && nonNeg k.envSlow && nonNeg k.tail && isFinite k.hpX1 && isFinite k.hpY1 && isFinite k.nzHp
    && isFinite k.nzX1

/-- R50 to R52. -/
def excOk (e : Exciter) : Bool :=
  isFinite e.userGain && excChanOk e.ch.ch0 && excChanOk e.ch.ch1 && fIn posZero one e.actGain

/-- R53, R54 and SB: the interval is at most `FSf`, so the sample counter stays below `FS + 2*BLOCK` (R54), where it
neither wraps nor leaves the range in which `toF` is exact. -/
def specOk (p : Params) (x : Spectrum) : Bool :=
  fIn Config.fpsMin Config.fpsMax x.fps && isFinite x.fpr && fLt posZero x.fpr && fLe x.fpr (fsf p)
    && decide (x.acc.toNat < p.fs + 2 * p.block) && memFinite x.sb

/-- R55 and TLM. -/
def tlmOk (t : Telemetry) : Bool :=
  isFinite t.red && fLe t.red posZero && t.mem.all fun c => fIn posZero one c.2

/-- R60: every value is finite and every configuration register is in its legal range. -/
def valuesOk (s : State) : Bool :=
  fbOk s.par s.fb && isFinite s.gain && dynConfigOk s.dyn && dynRunOk s.dyn && excOk s.exc && specOk s.par s.spec
    && tlmOk s.tlm

/-! ### Runs -/

/-- A `SampleReplaced` event. -/
def isReplacement : Event → Bool
  | .cmdIgnored _ => false
  | .paramClamped _ _ => false
  | .sampleReplaced _ _ _ => true

/-- "No sample was replaced" (R14) in the history of a state. -/
def noneReplaced (s : State) : Bool := s.events.all fun e => !isReplacement e

/-- Every word the host has waiting on port AOUT is finite (44_orchestrator R277). -/
def aoutFinite (s : State) : Bool := (s.aout.elim [] AudioPacket.samples).all isFinite

end Sys2Proof.Machine
end

