-- ==== Sys2Proof/Certificates/Slice0/Obligations.lean ====
section
/-! DEFINITION. The statements about the model, each a `Prop`; what they say in words and the rules of spec/ they rest
on is OBLIGATIONS.json. A statement of a packet's result is an equation with the next state, so what the equation
does not name is unchanged. -/

open Sys2Proof Sys2Proof.Machine

namespace Sys2Proof.Claims

/-- The sixteen control packets an INIT stands for (44_orchestrator R271). -/
def initParts (p : InitPacket) : List Instr :=
  .modg p.gain :: .setq p.qualityMode
    :: p.filters.zipIdx.map (fun x => .modf (BitVec.ofNat 8 x.2) x.1)
    ++ [.setx p.sbrEnabled p.sbrGain, .setl p.limiterEnabled p.detectorMode p.limiter, .setv p.fps]

/-- Packets executed one after the other. -/
def runPackets : List Instr → State → Host.Outcome State Fault Refusal
  | [], s => .next s
  | i :: is, s =>
    match exec i s with
    | .next t => runPackets is t
    | .fault r => .fault r
    | .refused r => .refused r

/-- An outcome of the control decoder: what `decodeCtrl` can put into `cq`. -/
def isCtrlOutcome : CtrlOutcome → Bool
  | .apply i => opIsCtrl (opOfInstr i)
  | .ignorePacket _ _ => true
  | .ignoreRaw _ _ => true

/-- Outcomes of the control decoder applied one after the other, in order (44_orchestrator R279). -/
def applyAll : List CtrlOutcome → State → Host.Outcome State Fault Refusal
  | [], s => .next s
  | o :: os, s =>
    match ctrlApply o s with
    | .next t => applyAll os t
    | .fault r => .fault r
    | .refused r => .refused r

/-- A state whose history has the given events more. -/
def withEvents (s : State) (es : List Event) : State := { s with events := s.events ++ es }

/-- `ParamClamped` for an operand its clamp changes (00_scope R23). -/
def clampedEvent (name : ParamName) (v lo hi : V) : List Event :=
  if clamp v lo hi = v then [] else [.paramClamped name v]

/-- A flat row (40_filterbank R159), with the bounds that keep its products finite. -/
def flatRow (c : CoefRow) : Bool :=
  c.b0 == one && fEq c.b1 c.a1 && fEq c.b2 c.a2 && decide (fMag c.b1 ≤ fMag two) && decide (fMag c.b2 ≤ fMag one)

/-- A finite value of magnitude below 2^126 (R163). -/
def small (v : V) : Bool := decide (fMag v < 0x7E800000)

/-- Filter state with `x1 == y1` and `x2 == y2`, of magnitudes below 2^126 (R163). -/
def matched (b : Biquad) : Bool :=
  fEq b.x1 b.y1 && fEq b.x2 b.y2 && small b.x1 && small b.x2 && small b.y1 && small b.y2

/-- The same value, up to the sign of a zero that came in as `-0` (R163). -/
def passes (x y : V) : Prop := fEq y x = true ∧ (x ≠ negZero → y = x)

/-- The configuration of 44_orchestrator R275 with matched filter state. -/
def neutral (s : State) : Bool :=
  s.fb.sections.toList.all (fun x => flatRow x.row) && s.fb.hist.ch0.toList.all matched
    && s.fb.hist.ch1.toList.all matched && s.gain == one && !s.dyn.enabled && !s.exc.enabled

/-- The limiter after a sequence of frames, from frame `t`. -/
def dynFrames (p : Params) (stereo : Bool) : Nat → List (Stereo V) → Dynamics → Dynamics
  | _, [], d => d
  | t, x :: xs, d => dynFrames p stereo (t + 1) xs (dynProcess p stereo t x d).st

/-- `n` cadence ticks. -/
def ticks : Nat → State → State
  | 0, s => s
  | n + 1, s => specTick (ticks n s)

/-- The edge in bins of a frequency in Hz (42_exciter R217). -/
def binOfHz (p : Params) (hz : Nat) : Nat := min (hz * 8192 / p.fs) 4096

/-- The energies of `n` bins from bin `lo` on, summed in ascending order (R217). -/
def sumEnergy (w : Work) (lo : Nat) : Nat → V
  | 0 => posZero
  | n + 1 =>
    let z := workGet w (lo + n)
    fAdd (sumEnergy w lo n) (fAdd (fMul z.re z.re) (fMul z.im z.im))

/-- The mean energy between two frequencies in Hz (R217). -/
def meanEnergy (p : Params) (w : Work) (loHz hiHz : Nat) : V :=
  let n := binOfHz p hiHz - binOfHz p loHz
  fDiv (sumEnergy w (binOfHz p loHz) n) (toF n)

/-- The work array `u` holds at `a` and `b` what the butterfly with table index `k` makes of `w` (43_spectrum R247). -/
def butterflyAt (w u : Work) (a b k : Nat) : Prop :=
  let x := workGet w b
  let z := workGet w a
  let tr := fAdd (fMul (cosRom k) x.re) (fMul (sinRom k) x.im)
  let ti := fSub (fMul (cosRom k) x.im) (fMul (sinRom k) x.re)
  workGet u a = ⟨fAdd z.re tr, fAdd z.im ti⟩ ∧ workGet u b = ⟨fSub z.re tr, fSub z.im ti⟩

/-- What the frames of a block read and write of the state (44_orchestrator R274). -/
structure Pipe where
  fb : FilterBank
  exc : Exciter
  dyn : Dynamics

/-- One sample of one channel: the input guard, the FilterBank, the product with the master gain and its guard, the
exciter (R274). -/
def pipeSample (gain : V) (c : Chan) (t : Nat) (x : V) (k : Pipe) : V × Pipe :=
  let a := fbProcess k.fb c t (if isFinite x then x else posZero)
  let v := fMul a.out gain
  let b := excProcess k.exc c t (if isFinite v then v else posZero)
  (b.out, { k with fb := a.st, exc := b.st })

/-- One frame: the ramp once, channel 0, channel 1 if there is one, then the limiter on both if it is enabled (R274). -/
def pipeFrame (p : Params) (gain : V) (stereo : Bool) (t : Nat) (x : Stereo V) (k : Pipe) : Stereo V × Pipe :=
  let k := { k with exc := excRamp p k.exc }
  let a := pipeSample gain .c0 t x.ch0 k
  let b := if stereo then pipeSample gain .c1 t x.ch1 a.2 else (posZero, a.2)
  let o : Stereo V := ⟨a.1, b.1⟩
  if b.2.dyn.enabled then
    let d := dynProcess p stereo t o b.2.dyn
    (d.out, { b.2 with dyn := d.st })
  else (o, b.2)

/-- The frames of a block, in ascending order from frame `t` (R273). -/
def pipeFrames (p : Params) (gain : V) (stereo : Bool) : Nat → List (Stereo V) → Pipe → List (Stereo V) × Pipe
  | _, [], k => ([], k)
  | t, x :: xs, k =>
    let a := pipeFrame p gain stereo t x k
    let b := pipeFrames p gain stereo (t + 1) xs a.2
    (a.1 :: b.1, b.2)

/-- The registers of `dyn` that only SETL and INIT write (10_state R59). -/
def sameDynConfig (d e : Dynamics) : Prop :=
  e.enabled = d.enabled ∧ e.thresholdLinear = d.thresholdLinear ∧ e.kneeDb = d.kneeDb ∧ e.attackSec = d.attackSec ∧
    e.lookaheadMs = d.lookaheadMs ∧ e.detectorMode = d.detectorMode ∧ e.rmsWindowMs = d.rmsWindowMs ∧ e.kA = d.kA ∧
    e.kR = d.kR ∧ e.kRms = d.kRms ∧ e.delay = d.delay

end Sys2Proof.Claims

open Sys2Proof.Claims

/-! ### Encoding and decoding -/

/-- Every packet of its format is read back from its words, with every field at every value (30_encoding R120 to
R129). -/
def Obligations.DecodeOfEncode : Prop :=
  ∀ (i : Instr) (rest : List Word), i.wellFormed = true → decode (encode i ++ rest) = .ok (i, rest)

/-- Every packet the decoder reads was written by exactly the words it consumed. -/
def Obligations.EncodeOfDecode : Prop :=
  ∀ (ws rest : List Word) (i : Instr), decode ws = .ok (i, rest) → encode i ++ rest = ws

/-- R125: the mask and the match of a row select it; a header no control row matches selects no control packet; a PROC
header has its channel count and its length besides. -/
def Obligations.MaskAndMatchSelectTheRow : Prop :=
  (∀ (h : Word) (op : Op), headerRow h = .ok op ↔ h &&& opMask op = opMatch op) ∧
  (∀ (h : Word) (ops : List Word), (∀ op, opIsCtrl op = true → h &&& opMask op ≠ opMatch op) →
    ∃ r, decodeCtrl h ops = .ignoreRaw h r) ∧
  (∀ (block : Nat) (h : Word) (ws : List Word), ainStatus block (h :: ws) ≠ .bad ↔
    (h &&& opMask .proc = opMatch .proc ∧ (hdrA h = 1 ∨ hdrA h = 2) ∧ hdrN h = (hdrA h).toNat * block))

/-- Words written out from R125, R134 and 95_test_vectors 2.9, one for each control row and PROC. -/
def Obligations.SpecWordsDecode : Prop :=
  decode [0x02050003, 0x447A0000, 0x40C00000, 0x3F800000] = .ok (.modf 5 ⟨0x447A0000, 0x40C00000, 0x3F800000⟩, []) ∧
  decode [0x03000001, 0x3F000000] = .ok (.modg 0x3F000000, []) ∧
  decode [0x04000000] = .ok (.rstf, []) ∧
  decode [0x05020000] = .ok (.setq 2, []) ∧
  decode [0x06010001, 0x3F800000] = .ok (.setx true 0x3F800000, []) ∧
  decode [0x07030005, 0x3BA3D70A, 0x3F63D70A, 0, 0x40A00000, 0x41200000] =
    .ok (.setl true .rms ⟨0x3BA3D70A, 0x3F63D70A, 0, 0x40A00000, 0x41200000⟩, []) ∧
  decode [0x08000001, 0x41F00000] = .ok (.setv 0x41F00000, []) ∧
  decode [0x10010001, 0x3F800000, 0x04000000] = .ok (.proc ⟨1, [0x3F800000]⟩, [0x04000000])

/-- R132, R303: the reasons found on the header, in their order. -/
def Obligations.MalformedHeadersAreIgnored : Prop :=
  (∀ (h : Word) (ops : List Word), (opOf (hdrOp h)).any opIsCtrl = false →
    decodeCtrl h ops = .ignoreRaw h (.unknownOpcode h)) ∧
  (∀ (h : Word) (ops : List Word) (op : Op), opOf (hdrOp h) = some op → opIsCtrl op = true →
    (opLength op ≠ some (hdrN h) → decodeCtrl h ops = .ignoreRaw h (.badLength h)) ∧
    (opLength op = some (hdrN h) → hdrA h &&& opReserved op ≠ 0 → decodeCtrl h ops = .ignoreRaw h (.reservedBits h)))

/-- R131, R303: which matched packets are valid, and the reason of one that is not. -/
def Obligations.ValidityOfMatchedPackets : Prop :=
  (∀ (index : BitVec 8) (x : FilterParams),
    (Config.nBands ≤ index.toNat → invalidReason (.modf index x) = some (.badIndex index)) ∧
    (index.toNat < Config.nBands →
      (isNaN x.frequency = false ∧ isNaN x.gain = false ∧ isNaN x.q = false → invalidReason (.modf index x) = none) ∧
      (isNaN x.frequency = true ∨ isNaN x.gain = true ∨ isNaN x.q = true →
        ∃ k, invalidReason (.modf index x) = some (.nanOperand .modf k)))) ∧
  (∀ mode : BitVec 2, invalidReason (.setq mode) = if mode = 3 then some (.badMode mode) else none) ∧
  (∀ g : V, (invalidReason (.modg g) = none ↔ isFinite g = true) ∧
    (isNaN g = true → ∃ k, invalidReason (.modg g) = some (.nanOperand .modg k)) ∧
    (isInf g = true → invalidReason (.modg g) = some (.nonFiniteGain .modg))) ∧
  (∀ (b : Bool) (g : V), (invalidReason (.setx b g) = none ↔ isFinite g = true) ∧
    (isNaN g = true → ∃ k, invalidReason (.setx b g) = some (.nanOperand .setx k)) ∧
    (isInf g = true → invalidReason (.setx b g) = some (.nonFiniteGain .setx))) ∧
  (∀ (b : Bool) (d : DetectorMode) (x : LimiterParams),
    (isNaN x.attack = false ∧ isNaN x.threshold = false ∧ isNaN x.knee = false ∧ isNaN x.lookaheadMs = false ∧
      isNaN x.rmsTimeMs = false → invalidReason (.setl b d x) = none) ∧
    (isNaN x.attack = true ∨ isNaN x.threshold = true ∨ isNaN x.knee = true ∨ isNaN x.lookaheadMs = true ∨
        isNaN x.rmsTimeMs = true → ∃ k, invalidReason (.setl b d x) = some (.nanOperand .setl k))) ∧
  (∀ f : V, (isNaN f = false → invalidReason (.setv f) = none) ∧
    (isNaN f = true → ∃ k, invalidReason (.setv f) = some (.nanOperand .setv k))) ∧
  (∀ p : InitPacket, invalidReason (.init p) = none)

/-- R121, R130: a packet takes its header and the words its header counts, whatever its opcode, and the next header
follows. -/
def Obligations.PacketsAreFramedByTheirHeader : Prop :=
  ∀ (h : Word) (ops rest : List Word), ops.length = hdrN h →
    decodeStream (h :: ops ++ rest) = (decodeCtrl h ops :: (decodeStream rest).1, (decodeStream rest).2)

/-! ### The step -/

/-- R97, R280 `HostAppend`: the words of a packet, offered one at a time while the queue has room, append exactly its
outcome and change nothing else; while the queue is full no word is taken, the host keeps it to offer again, and the
block applies the outcome at the head. That words are taken one by one, and the host's list of moves, are the model's
choice (logs 1 to 3). -/
def Obligations.OfferedWordsAppendOnePacket : Prop :=
  (∀ (s : State) (h : Word) (ops : List Word) (later : List HostMove),
    strapsLegal s.par = true → s.cq.length < s.par.cqDepth → s.ctrlBuf = [] → ops.length = hdrN h →
    s.host = (h :: ops).map .ctrl ++ later →
    Sys2Proof.core.run (ops.length + 1) s = .next { s with cq := s.cq ++ [decodeCtrl h ops], host := later }) ∧
  (∀ (s : State) (w : Word) (later : List HostMove) (o : CtrlOutcome) (rest : List CtrlOutcome),
    strapsLegal s.par = true → s.host = .ctrl w :: later → s.cq = o :: rest → s.par.cqDepth ≤ s.cq.length →
    step s = ctrlApply o { s with cq := rest })

/-- R130, R279: a step at a state whose queue is headed by the outcome of the words `h :: ops` runs the packet they
decode to, or, if R131 finds it invalid or R132 refuses the header, raises `CmdIgnored` and changes nothing else;
whatever waits on AIN (R105). The host lets the block move: it has nothing to do, or waits (the model's choice, log
1). -/
def Obligations.StepRunsTheDecodedPacket : Prop :=
  ∀ (s : State) (h : Word) (ops : List Word) (rest : List CtrlOutcome) (later : List HostMove),
    strapsLegal s.par = true → s.cq = decodeCtrl h ops :: rest →
    (s.host = [] ∧ later = [] ∨ s.host = .wait :: later) →
    let s' := { s with cq := rest, host := later }
    (∀ i, decode (h :: ops) = .ok (i, []) → opIsCtrl (opOfInstr i) = true →
      (invalidReason i = none → step s = exec i s') ∧
      (∀ r, invalidReason i = some r → step s = .next (withEvents s' [.cmdIgnored r]))) ∧
    (∀ r, decodeCtrl h ops = .ignoreRaw h r → step s = .next (withEvents s' [.cmdIgnored r]))

/-- A step runs the PROC packet whose words wait on AIN when the queue is empty (R280 `ProcStep`); the host's list of
moves is the model's choice (log 1). -/
def Obligations.StepRunsTheAudioPacket : Prop :=
  ∀ (s : State) (p : AudioPacket), strapsLegal s.par = true → s.cq = [] → s.aout = none →
    audioFits s.par.block p.nch p.samples.length = true → s.ainBuf = encode (.proc p) →
    (s.host = [] → step s = exec (.proc p) { s with ainBuf := [] }) ∧
    (∀ later, s.host = .wait :: later → step s = exec (.proc p) { s with ainBuf := [], host := later })

/-- A step in which the host takes a packet runs that packet's meaning (the model's choice, log 5); a read of the
telemetry port changes no state of the block and leaves the packet for another read (R99, R281). -/
def Obligations.StepHandsOverThePacketTaken : Prop :=
  (∀ (s : State) (p : AudioPacket) (later : List HostMove), strapsLegal s.par = true → s.aout = some p →
    s.host = .takeAout :: later → step s = exec (.aout p) { s with host := later }) ∧
  (∀ (s : State) (p : TlmPacket) (later : List HostMove), strapsLegal s.par = true → s.tlmo = some p →
    s.host = .takeTlm :: later → step s = exec (.tlm p) { s with host := later }) ∧
  (∀ (s : State) (p : TlmPacket) (later : List HostMove), strapsLegal s.par = true → s.tlmo = some p →
    s.host = .readTlm :: later →
    step s = .next { s with host := later, tlmSent := s.tlmSent ++ encode (.tlm p) })

/-- R330, R331: the reset signal with the straps sampled. What the host has received and does next is kept (the
model's choice, log 18). -/
def Obligations.ResetSignalResetsTheBlock : Prop :=
  ∀ (s : State) (p : Params) (later : List HostMove), s.host = .reset p :: later →
    step s = .next { State.resetWith p with aoutSent := s.aoutSent, tlmSent := s.tlmSent, host := later }

/-- R331, U8: an instance whose FS or BLOCK is out of range has no step but reset. Two things are the model's choice
(log 10): that it stops as a named fault, and that a CQ_DEPTH below 1, which R5 excludes ("at least 1") and R331 does
not name, has no step either. -/
def Obligations.IllegalInstanceHasNoStep : Prop :=
  ∀ s : State, strapsLegal s.par = false → (∀ p later, s.host ≠ .reset p :: later) →
    step s = .fault .illegalInstance

/-- R98, R314: with an empty queue the block keeps all state while the host has not taken the last AOUT packet or a
PROC packet is still arriving; that the idle block answers a step with the same state is the model's choice (log 17). -/
def Obligations.IdleBlockKeepsAllState : Prop :=
  ∀ s : State, strapsLegal s.par = true → s.host = [] → s.cq = [] →
    (s.aout ≠ none ∨ ainStatus s.par.block s.ainBuf = .wait) → step s = .next s

/-- R105 point 3, R279, R280: the packets of the queue are all applied, each whole and in order, before the block that
waits, and the audio side does not move until then. That no host move comes between is the model's choice of scripts
(log 1). -/
def Obligations.QueueDrainsBeforeTheBlock : Prop :=
  ∀ s : State, strapsLegal s.par = true → s.host = [] → s.cq.all isCtrlOutcome = true →
    ∃ t, applyAll s.cq { s with cq := [] } = .next t ∧ Sys2Proof.core.run s.cq.length s = .next t ∧
      t.cq = [] ∧ t.ainBuf = s.ainBuf ∧ t.aout = s.aout ∧
      t.par = s.par ∧ t.host = [] ∧ t.spec.sb = s.spec.sb ∧ t.spec.acc = s.spec.acc ∧ t.tlm = s.tlm ∧
      ∀ p : AudioPacket, s.aout = none → audioFits s.par.block p.nch p.samples.length = true →
        s.ainBuf = encode (.proc p) → Sys2Proof.core.run (s.cq.length + 1) s = exec (.proc p) { t with ainBuf := [] }

/-- R280: where a control step falls between the words of a later append changes no result. -/
def Obligations.AppendCommutesWithControlStep : Prop :=
  ∀ (s t : State) (o : CtrlOutcome) (rest : List CtrlOutcome) (w : Word),
    s.cq = o :: rest → isCtrlOutcome o = true → blockMove s = .next t →
    blockMove (takeCtrlWord s w) = .next (takeCtrlWord t w)

/-! ### Reset and invariants -/

/-- R332: every element at its reset value, for every legal straps. -/
def Obligations.ResetValues : Prop :=
  ∀ p : Params, strapsLegal p = true →
    let s := State.resetWith p
    s.cq = [] ∧
    (∀ i : Fin Config.nBands, s.fb.sections[i] =
      { f := clamp Config.center[i] Config.fLo (fHi p), g := posZero, q := Config.qDefault
        row := coef p (kindOf i.val) (clamp Config.center[i] Config.fLo (fHi p)) (fMul Config.qDefault one) posZero }) ∧
    s.fb.qmode = .quality ∧
    (∀ (c : Chan) (i : Fin Config.nBands), (chGet s.fb.hist c)[i] = ⟨posZero, posZero, posZero, posZero⟩) ∧
    s.gain = one ∧
    s.dyn =
      { enabled := false, thresholdLinear := Config.lit 89 100, kneeDb := posZero, ratio := Config.lit 20
        attackSec := Config.lit 5 1000, releaseSec := Config.lit 1 10, lookaheadMs := posZero, detectorMode := .peak
        rmsWindowMs := Config.lit 10
        kA := kcoef (fMul (Config.lit 5 1000) (fsf p)), kR := kcoef (fMul (Config.lit 1 10) (fsf p))
        kRms := kcoef (fDiv (fMul (Config.lit 10) (fsf p)) (Config.lit 1000)), delay := 0
        g := one, ms := posZero, wr := 0, minRed := one, dl := ⟨[], []⟩ } ∧
    s.exc.enabled = false ∧ s.exc.userGain = one ∧
    (∀ c : Chan, chGet s.exc.ch c = ⟨posZero, posZero, posZero, posZero, posZero, posZero, posZero⟩) ∧
    s.exc.active = false ∧ s.exc.hold = 0 ∧ s.exc.actGain = posZero ∧ s.exc.rng = 0x2545F491 ∧
    s.spec.fps = Config.lit 30 ∧ s.spec.fpr = fDiv (fsf p) (Config.lit 30) ∧ s.spec.acc = 0 ∧
    (∀ i, memRead s.spec.sb i = posZero) ∧
    s.tlm.seq = 0 ∧ s.tlm.red = posZero ∧ s.tlm.sbrActive = false ∧ (∀ i, memRead s.tlm.mem i = posZero) ∧
    s.tlmo = none ∧ s.aout = none ∧ s.ctrlBuf = [] ∧ s.ainBuf = []

/-- The structural invariant holds at reset. -/
def Obligations.ResetIsStructurallySound : Prop :=
  ∀ p : Params, structureOk (State.resetWith p) = true

/-- R60: every step keeps the queue within its depth, `dyn.wr < LA_CAP`, `dyn.D ≤ DMAX`, `exc.hold ≤ HOLD_SAMPLES`,
`exc.rng ≠ 0`, and every memory space in canonical form within its size. -/
def Obligations.StepKeepsStructure : Prop :=
  ∀ s t : State, structureOk s = true → step s = .next t → structureOk t = true

/-- R42 to R46, R60: every step keeps the FilterBank's parameters in range and its values, and the gain, finite. -/
def Obligations.StepKeepsFilterValues : Prop :=
  ∀ s t : State, strapsLegal s.par = true → (fbOk s.par s.fb && isFinite s.gain) = true → step s = .next t →
    strapsLegal t.par = true → (fbOk t.par t.fb && isFinite t.gain) = true

/-- R47 to R49, R60: every step keeps the limiter's configuration in range and its values finite. -/
def Obligations.StepKeepsLimiterValues : Prop :=
  ∀ s t : State, strapsLegal s.par = true → (dynConfigOk s.dyn && dynRunOk s.dyn) = true → step s = .next t →
    strapsLegal t.par = true → (dynConfigOk t.dyn && dynRunOk t.dyn) = true

/-- R50 to R52, R60: every step keeps the exciter's values finite and the ramp in [0, 1.0]. -/
def Obligations.StepKeepsExciterValues : Prop :=
  ∀ s t : State, strapsLegal s.par = true → excOk s.exc = true → step s = .next t → strapsLegal t.par = true →
    excOk t.exc = true

/-- R53 to R55, R60: every step keeps the analyzer's and the telemetry's values finite and in range, the sample counter
below `FS + 2*BLOCK`. -/
def Obligations.StepKeepsSpectrumValues : Prop :=
  ∀ s t : State, strapsLegal s.par = true → (specOk s.par s.spec && tlmOk s.tlm) = true → step s = .next t →
    strapsLegal t.par = true → (specOk t.par t.spec && tlmOk t.tlm) = true

/-- The value invariants hold at reset, for every legal straps. -/
def Obligations.ResetValuesAreInRange : Prop :=
  ∀ p : Params, strapsLegal p = true → valuesOk (State.resetWith p) = true

/-! ### Control packets -/

/-- R270. -/
def Obligations.ModgWritesTheGain : Prop :=
  ∀ (g : V) (s : State),
    encode (.modg g) = [0x03000001, g] ∧
    (isFinite g = true → exec (.modg g) s = .next { s with gain := g }) ∧
    (isNaN g = true → ∃ k, exec (.modg g) s = .next (withEvents s [.cmdIgnored (.nanOperand .modg k)])) ∧
    (isInf g = true → exec (.modg g) s = .next (withEvents s [.cmdIgnored (.nonFiniteGain .modg)]))

/-- R150. -/
def Obligations.ModfWritesOneSection : Prop :=
  ∀ (index : BitVec 8) (x : FilterParams) (s : State),
    (∀ h : index.toNat < Config.nBands,
      isNaN x.frequency = false → isNaN x.gain = false → isNaN x.q = false →
      let f := clamp x.frequency Config.fLo (fHi s.par)
      let g := clamp x.gain Config.gLo Config.gHi
      let q := clamp x.q Config.qLo Config.qHi
      let row := coef s.par (kindOf index.toNat) f (fMul q (qScale s.fb.qmode)) g
      let clamped := clampedEvent .frequency x.frequency Config.fLo (fHi s.par)
        ++ clampedEvent .gain x.gain Config.gLo Config.gHi ++ clampedEvent .q x.q Config.qLo Config.qHi
      (rowOk row = true → exec (.modf index x) s =
        .next (withEvents { s with fb := { s.fb with
          sections := s.fb.sections.set index.toNat { f := f, g := g, q := q, row := row } h } } clamped)) ∧
      (rowOk row = false → ∃ es, exec (.modf index x) s =
        .next (withEvents s (es ++ [.cmdIgnored (.nonFiniteCoef index.toNat)])))) ∧
    (Config.nBands ≤ index.toNat → exec (.modf index x) s = .next (withEvents s [.cmdIgnored (.badIndex index)])) ∧
    (index.toNat < Config.nBands → isNaN x.frequency = true ∨ isNaN x.gain = true ∨ isNaN x.q = true →
      ∃ k, exec (.modf index x) s = .next (withEvents s [.cmdIgnored (.nanOperand .modf k)]))

/-- R151. That a section whose row is not finite still raises its `ParamClamped` is the model's reading (log 14); that
the event names `frequency` and records `CENTER[i]`, since RSTF has no operands, is the model's choice (log 35). -/
def Obligations.RstfResetsEverySection : Prop :=
  ∀ s : State,
    let f := fun i : Fin Config.nBands => clamp Config.center[i] Config.fLo (fHi s.par)
    let row := fun i : Fin Config.nBands =>
      coef s.par (kindOf i.val) (f i) (fMul Config.qDefault (qScale s.fb.qmode)) posZero
    ∃ secs : Vector Section Config.nBands,
      exec .rstf s = .next (withEvents { s with fb := { s.fb with sections := secs } }
        ((List.finRange Config.nBands).flatMap fun i =>
          clampedEvent .frequency Config.center[i] Config.fLo (fHi s.par)
            ++ (if rowOk (row i) then [] else [.cmdIgnored (.nonFiniteCoef i.val)]))) ∧
      ∀ i : Fin Config.nBands, secs[i] =
        if rowOk (row i) then { f := f i, g := posZero, q := Config.qDefault, row := row i } else s.fb.sections[i]

/-- R152. -/
def Obligations.SetqDerivesEveryRow : Prop :=
  ∀ s : State,
    (∀ m : QualityMode,
      let row := fun i : Fin Config.nBands =>
        coef s.par (kindOf i.val) s.fb.sections[i].f (fMul s.fb.sections[i].q (qScale m)) s.fb.sections[i].g
      ∃ secs : Vector Section Config.nBands,
        exec (.setq (modeBits m)) s = .next (withEvents { s with fb := { s.fb with sections := secs, qmode := m } }
          ((List.finRange Config.nBands).flatMap fun i =>
            if rowOk (row i) then [] else [.cmdIgnored (.nonFiniteCoef i.val)])) ∧
        ∀ i : Fin Config.nBands, secs[i] =
          if rowOk (row i) then { s.fb.sections[i] with row := row i } else s.fb.sections[i]) ∧
    exec (.setq 3) s = .next (withEvents s [.cmdIgnored (.badMode 3)])

/-- R210. -/
def Obligations.SetxWritesTheOptions : Prop :=
  ∀ (enabled : Bool) (g : V) (s : State),
    (isFinite g = true →
      exec (.setx enabled g) s = .next { s with exc := { s.exc with enabled := enabled, userGain := g } }) ∧
    (isNaN g = true → ∃ k, exec (.setx enabled g) s = .next (withEvents s [.cmdIgnored (.nanOperand .setx k)])) ∧
    (isInf g = true → exec (.setx enabled g) s = .next (withEvents s [.cmdIgnored (.nonFiniteGain .setx)]))

/-- R180 to R182. -/
def Obligations.SetlWritesTheLimiterOptions : Prop :=
  ∀ (enabled : Bool) (det : DetectorMode) (x : LimiterParams) (s : State),
    (isNaN x.attack = false → isNaN x.threshold = false → isNaN x.knee = false → isNaN x.lookaheadMs = false →
      isNaN x.rmsTimeMs = false →
      let att := clamp x.attack Config.attMin Config.attMax
      let la := clamp x.lookaheadMs Config.laMinMs Config.laMaxMs
      let rms := clamp x.rmsTimeMs Config.rmsMinMs Config.rmsMaxMs
      let kept := { s.dyn with
        attackSec := att, thresholdLinear := clamp x.threshold Config.thMin Config.thMax
        kneeDb := clamp x.knee Config.kneeMin Config.kneeMax, lookaheadMs := la, rmsWindowMs := rms
        detectorMode := det, enabled := enabled
        kA := kcoef (fMul att (fsf s.par)), kR := kcoef (fMul s.dyn.releaseSec (fsf s.par))
        kRms := kcoef (fDiv (fMul rms (fsf s.par)) thousand)
        delay := min (rnd (fDiv (fMul la (fsf s.par)) thousand)) (dMax s.par) }
      let clamped := clampedEvent .attack x.attack Config.attMin Config.attMax
        ++ clampedEvent .threshold x.threshold Config.thMin Config.thMax
        ++ clampedEvent .knee x.knee Config.kneeMin Config.kneeMax
        ++ clampedEvent .lookaheadMs x.lookaheadMs Config.laMinMs Config.laMaxMs
        ++ clampedEvent .rmsTimeMs x.rmsTimeMs Config.rmsMinMs Config.rmsMaxMs
      exec (.setl enabled det x) s = .next (withEvents { s with
        dyn := if s.dyn.enabled = false ∧ enabled = true then
            { kept with g := one, ms := posZero, wr := 0, minRed := one, dl := ⟨[], []⟩ }
          else kept } clamped)) ∧
    (isNaN x.attack = true ∨ isNaN x.threshold = true ∨ isNaN x.knee = true ∨ isNaN x.lookaheadMs = true ∨
        isNaN x.rmsTimeMs = true →
      ∃ k, exec (.setl enabled det x) s = .next (withEvents s [.cmdIgnored (.nanOperand .setl k)]))

/-- R240. -/
def Obligations.SetvWritesTheRate : Prop :=
  ∀ (x : V) (s : State),
    (isNaN x = false →
      let f := clamp x Config.fpsMin Config.fpsMax
      exec (.setv x) s = .next (withEvents { s with spec := { s.spec with fps := f, fpr := fDiv (fsf s.par) f } }
        (clampedEvent .fps x Config.fpsMin Config.fpsMax))) ∧
    (isNaN x = true → ∃ k, exec (.setv x) s = .next (withEvents s [.cmdIgnored (.nanOperand .setv k)]))

/-- R271: an INIT is the sixteen packets it stands for, in order. -/
def Obligations.InitIsItsSixteenParts : Prop :=
  ∀ (p : InitPacket) (s : State), (Instr.init p).wellFormed = true →
    (initParts p).length = 16 ∧ ∃ t, exec (.init p) s = .next t ∧ runPackets (initParts p) s = .next t

/-- R271, corner case: an INIT of which nothing is valid raises sixteen events and changes no state element. -/
def Obligations.InitWithNothingValid : Prop :=
  ∀ (p : InitPacket) (s : State), (Instr.init p).wellFormed = true → p.qualityMode = 3 →
    (encodeOperands (.init p)).all isNaN = true →
    ∃ es : List Event, es.length = 16 ∧ (∀ e ∈ es, ∃ r, e = .cmdIgnored r) ∧
      exec (.init p) s = .next (withEvents s es)

/-- R59, R104: what no control packet writes. -/
def Obligations.ControlPacketsKeepRuntimeState : Prop :=
  ∀ (i : Instr) (s : State), opIsCtrl (opOfInstr i) = true →
    ∃ t, exec i s = .next t ∧
      t.par = s.par ∧ t.cq = s.cq ∧ t.fb.hist = s.fb.hist ∧ t.dyn.ratio = s.dyn.ratio ∧
      t.dyn.releaseSec = s.dyn.releaseSec ∧
      (s.dyn.enabled = true ∨ t.dyn.enabled = false →
        t.dyn.g = s.dyn.g ∧ t.dyn.ms = s.dyn.ms ∧ t.dyn.wr = s.dyn.wr ∧ t.dyn.minRed = s.dyn.minRed ∧
          t.dyn.dl = s.dyn.dl) ∧
      t.exc.ch = s.exc.ch ∧ t.exc.active = s.exc.active ∧ t.exc.hold = s.exc.hold ∧ t.exc.actGain = s.exc.actGain ∧
      t.exc.rng = s.exc.rng ∧ t.spec.acc = s.spec.acc ∧ t.spec.sb = s.spec.sb ∧ t.tlm = s.tlm ∧
      t.ctrlBuf = s.ctrlBuf ∧ t.ainBuf = s.ainBuf ∧ t.aout = s.aout ∧ t.tlmo = s.tlmo ∧ t.aoutSent = s.aoutSent ∧
      t.tlmSent = s.tlmSent ∧ t.host = s.host

/-! ### FilterBank -/

/-- R160, R161: the cascade of one sample, section by section, its events, and what it leaves alone. -/
def Obligations.CascadeFollowsTheRecurrence : Prop :=
  ∀ (fb : FilterBank) (c : Chan) (n : Nat) (x : V),
    let o := fbProcess fb c n x
    o.st.sections = fb.sections ∧ o.st.qmode = fb.qmode ∧
    (∀ d : Chan, d ≠ c → chGet o.st.hist d = chGet fb.hist d) ∧
    ∃ v raw : Nat → V, v 0 = x ∧ o.out = v Config.nBands ∧
      o.ev = ((List.range Config.nBands).flatMap fun i =>
        if isFinite (raw i) then [] else [.sampleReplaced (.section_ i) (some c) n]) ∧
      ∀ i : Fin Config.nBands,
        let r := fb.sections[i].row
        let b := (chGet fb.hist c)[i]
        let d1 := fSub (fMul r.b1 b.x1) (fMul r.a1 b.y1)
        let d2 := fSub (fMul r.b2 b.x2) (fMul r.a2 b.y2)
        raw i.val = fAdd (fMul r.b0 (v i.val)) (fAdd d1 d2) ∧
        v (i.val + 1) = (if isFinite (raw i.val) then raw i.val else posZero) ∧
        (chGet o.st.hist c)[i] = { x1 := v i.val, x2 := b.x1, y1 := v (i.val + 1), y2 := b.y1 }

/-- R161: what channel `c` gives does not depend on the other channel's registers. -/
def Obligations.ChannelsDoNotInterfere : Prop :=
  ∀ (fb fb' : FilterBank) (c : Chan) (n : Nat) (x : V),
    fb.sections = fb'.sections → chGet fb.hist c = chGet fb'.hist c →
    (fbProcess fb c n x).out = (fbProcess fb' c n x).out ∧
    chGet (fbProcess fb c n x).st.hist c = chGet (fbProcess fb' c n x).st.hist c ∧
    (fbProcess fb c n x).ev = (fbProcess fb' c n x).ev

/-- R159, from the intermediates: a section at 0 dB (`A = 1.0`) is flat, whatever its kind. -/
def Obligations.ZeroGainRowsAreFlat : Prop :=
  ∀ (kind : Kind) (m : CoefMid), m.bigA = one → fIn posZero 0x40800000 m.alpha = true → fIn negOne one m.cw = true →
    flatRow (normalise (rawCoef kind m)) = true ∧ rowOk (normalise (rawCoef kind m)) = true

/-- R163: so does the whole cascade, with no sample replaced. -/
def Obligations.FlatCascadeIsTheIdentity : Prop :=
  ∀ (fb : FilterBank) (c : Chan) (n : Nat) (x : V),
    fb.sections.toList.all (fun s => flatRow s.row) = true → (chGet fb.hist c).toList.all matched = true →
    small x = true →
    passes x (fbProcess fb c n x).out ∧ (chGet (fbProcess fb c n x).st.hist c).toList.all matched = true ∧
      (fbProcess fb c n x).ev = []

/-- R275, R333: in the neutral configuration a block comes back unchanged, and the state stays neutral. -/
def Obligations.NeutralBlockPassesAudio : Prop :=
  ∀ (s : State) (p : AudioPacket), neutral s = true → audioFits s.par.block p.nch p.samples.length = true →
    p.samples.all small = true →
    ∃ t out, exec (.proc p) s = .next t ∧ t.aout = some { nch := p.nch, samples := out } ∧
      List.Forall₂ passes p.samples out ∧ neutral t = true

/-- R333, R159: the state after reset is neutral, for every legal straps. -/
def Obligations.ResetIsNeutral : Prop := ∀ p : Params, strapsLegal p = true → neutral (State.resetWith p) = true

/-! ### DynamicsProcessor -/

/-- R183: the static curve below, at and above the threshold. -/
def Obligations.TargetGainCurve : Prop :=
  ∀ lev thr : V, isFinite lev = true → isFinite thr = true → fLt posZero thr = true →
    (fLt lev thr = true → targetGain lev thr = one) ∧
    (lev = thr → targetGain lev thr = one) ∧
    (fLt thr lev = true → targetGain lev thr =
      fDiv (fAdd thr (fDiv (fSub lev thr) (fAdd one (fSub lev thr)))) lev)

/-- R189: below the threshold, at full gain, with no lookahead and in peak mode, the output is the input exactly. -/
def Obligations.LimiterPassesBelowThreshold : Prop :=
  ∀ (p : Params) (stereo : Bool) (n : Nat) (x : Stereo V) (d : Dynamics),
    d.detectorMode = .peak → d.g = one → d.delay = 0 → d.wr < laCap p → isFinite d.kR = true →
    isFinite x.ch0 = true → isFinite x.ch1 = true → fLt (linkedMag stereo x) d.thresholdLinear = true →
    let o := dynProcess p stereo n x d
    o.out.ch0 = x.ch0 ∧ (stereo = true → o.out.ch1 = x.ch1) ∧ o.st.g = one ∧ o.ev = []

/-- R184, R185: one frame through the enabled limiter: the level, the gain, the registers, the delay line and the
linked output. -/
def Obligations.LimiterFrame : Prop :=
  ∀ (p : Params) (stereo : Bool) (n : Nat) (x : Stereo V) (d : Dynamics),
    let o := dynProcess p stereo n x d
    let m := if stereo then fMax (fAbs x.ch0) (fAbs x.ch1) else fAbs x.ch0
    let ms := if d.detectorMode = .rms then sanV (fAdd d.ms (fMul d.kRms (fSub (fMul m m) d.ms))) else d.ms
    let gT := targetGain (if d.detectorMode = .rms then fSqrt ms else m) d.thresholdLinear
    let rd := (d.wr + laCap p - d.delay) % laCap p
    o.st.ms = ms ∧
    o.st.g = sanV (fAdd d.g (fMul (if fLt gT d.g then d.kA else d.kR) (fSub gT d.g))) ∧
    o.st.wr = (d.wr + 1) % laCap p ∧ o.st.minRed = fMin d.minRed o.st.g ∧
    (∀ k, memRead o.st.dl.ch0 k = if k = d.wr then x.ch0 else memRead d.dl.ch0 k) ∧
    (∀ k, memRead o.st.dl.ch1 k = if stereo = true ∧ k = d.wr then x.ch1 else memRead d.dl.ch1 k) ∧
    o.out.ch0 = sanV (fMul (memRead o.st.dl.ch0 rd) o.st.g) ∧
    (stereo = true → o.out.ch1 = sanV (fMul (memRead o.st.dl.ch1 rd) o.st.g)) ∧
    sameDynConfig d o.st ∧ o.st.ratio = d.ratio ∧ o.st.releaseSec = d.releaseSec

/-- R92, R185, R187: the output of a frame is the input of `dyn.D` frames earlier times the gain of this frame. -/
def Obligations.LookaheadDelaysByD : Prop :=
  ∀ (p : Params) (stereo : Bool) (n : Nat) (xs : List (Stereo V)) (x : Stereo V) (d : Dynamics),
    d.wr < laCap p → d.delay ≤ dMax p → d.delay ≤ xs.length →
    let o := dynProcess p stereo (n + xs.length) x (dynFrames p stereo n xs d)
    let past := (xs ++ [x]).getD (xs.length - d.delay) ⟨posZero, posZero⟩
    o.out.ch0 = sanV (fMul past.ch0 o.st.g) ∧ (stereo = true → o.out.ch1 = sanV (fMul past.ch1 o.st.g))

/-- R188: the meter reports 20 times the logarithm of the least gain within [-120, 0] dB, the bounds outside it and for
a NaN, and resets; at full gain it reports `+0`. -/
def Obligations.MeterReportsAndResets : Prop :=
  ∀ d : Dynamics,
    let rd := fMul (Config.lit 20) (fLog10 d.minRed)
    (readReduction d).2 = { d with minRed := one } ∧ fIn Config.redFloorDb posZero (readReduction d).1 = true ∧
    (readReduction d).1 = (if isNaN rd || fLt rd Config.redFloorDb then Config.redFloorDb
      else if fLt posZero rd then posZero else rd) ∧
    (d.minRed = one → (readReduction d).1 = posZero)

/-! ### HarmonicExciter -/

/-- R214, R215: disabled or not activated, the exciter passes every word and keeps every register. -/
def Obligations.ExciterBypass : Prop :=
  ∀ (e : Exciter) (c : Chan) (n : Nat) (x : V), e.enabled = false ∨ fLt posZero e.actGain = false →
    (excProcess e c n x).out = x ∧ (excProcess e c n x).st = e ∧ (excProcess e c n x).ev = []

/-- R214: a synthesised sample: the registers of its channel, one noise draw, and nothing else. -/
def Obligations.ExciterSynthesis : Prop :=
  ∀ (e : Exciter) (c : Chan) (n : Nat) (x : V), e.enabled = true → fLt posZero e.actGain = true →
    let o := excProcess e c n x
    let k := chGet e.ch c
    let nz := noiseOf (rngNext e.rng)
    let hpo := sanV (fMul Config.hpAlpha (fSub (fAdd k.hpY1 x) k.hpX1))
    let h := fAbs hpo
    let ef := sanV (fAdd (fMul Config.aFast k.envFast) (fMul (fSub one Config.aFast) h))
    let es := sanV (fAdd (fMul Config.aSlow k.envSlow) (fMul (fSub one Config.aSlow) h))
    let trig := fMax posZero (fSub ef (fMul Config.trigK es))
    let tail := if fLt k.tail trig then trig else fMul k.tail Config.tailDecay
    let syn := fMin one (fMul tail Config.synK)
    let nhp := sanV (fMul Config.nzAlpha (fSub (fAdd k.nzHp nz) k.nzX1))
    let mk := fMul (fMul Config.makeupK e.userGain) e.actGain
    o.out = sanV (fAdd (fAdd x (fMul (fMul h syn) mk)) (fMul (fMul (fMul nhp syn) mk) Config.nzMix)) ∧
    o.st.rng = rngNext e.rng ∧
    chGet o.st.ch c = { envFast := ef, envSlow := es, tail := tail, hpX1 := x, hpY1 := hpo, nzHp := nhp, nzX1 := nz } ∧
    (∀ d : Chan, d ≠ c → chGet o.st.ch d = chGet e.ch d) ∧
    o.st = { e with ch := o.st.ch, rng := o.st.rng }

/-- R213, R211: the ramp rises while the exciter is enabled and active and falls otherwise, stays in [0, 1.0] and moves
nothing else. -/
def Obligations.RampStaysInUnit : Prop :=
  ∀ (p : Params) (e : Exciter),
    (e.enabled = true ∧ e.active = true → excRamp p e =
      { e with actGain := fMin one (fAdd e.actGain (fDiv one (fMul Config.rampUpSec (toF p.fs)))) }) ∧
    (e.enabled = false ∨ e.active = false → excRamp p e =
      { e with actGain := fMax posZero (fSub e.actGain (fDiv one (fMul Config.rampDownSec (toF p.fs)))) }) ∧
    (strapsLegal p = true → fIn posZero one e.actGain = true → fIn posZero one (excRamp p e).actGain = true)

/-- R216: the generator never reaches 0, loses no state, and its noise lies in [-1.0, 1.0 - 2^-23]. -/
def Obligations.NoiseGeneratorNeverStops : Prop :=
  (∀ r : Word, r ≠ 0 → rngNext r ≠ 0) ∧ (∀ r r' : Word, rngNext r = rngNext r' → r = r') ∧
  (∀ r : Word, fIn negOne (fSub one twoPowNeg23) (noiseOf r) = true)

/-- R217, R218: which frames pass the test, and the classification and the hold after one that passes and one that
fails. -/
def Obligations.HoldKeepsTheClassification : Prop :=
  ∀ (p : Params) (w : Work) (elapsed : Nat) (e : Exciter), strapsLegal p = true →
    let t := excDetect p w elapsed e
    let pass := binOfHz p 2000 < binOfHz p 4500 ∧ binOfHz p 8000 < binOfHz p 12000 ∧ binOfHz p 14000 < binOfHz p 18000 ∧
      fLt Config.noiseFloor (meanEnergy p w 2000 4500) = true ∧
      fLt (meanEnergy p w 14000 18000) (fMul Config.rHigh (meanEnergy p w 2000 4500)) = true ∧
      fLt (meanEnergy p w 8000 12000) (fMul Config.rCut (meanEnergy p w 2000 4500)) = true
    t = { e with active := t.active, hold := t.hold } ∧
    (pass → t.active = true ∧ t.hold.toNat = 5 * p.fs) ∧
    (¬ pass → t.hold.toNat = e.hold.toNat - elapsed ∧
      (t.active = true ↔ e.active = true ∧ elapsed < e.hold.toNat))

/-! ### SpectrumAnalyzer -/

/-- R242. -/
def Obligations.WindowSlides : Prop :=
  ∀ (sb : Mem) (mix : List V) (j : Nat), mix.length ≤ Config.fftSize → j < Config.fftSize →
    memRead (specPush sb mix) j =
      if j < Config.fftSize - mix.length then memRead sb (j + mix.length)
      else mix.getD (j - (Config.fftSize - mix.length)) posZero

/-- R243: counting from a fresh counter, no emit before the first multiple of BLOCK that reaches `spec.fpr`, and one
emit there. -/
def Obligations.EmitAtTheFirstMultipleOfBlock : Prop :=
  ∀ (s : State) (n : Nat), s.spec.acc = 0 → 0 < n → n * s.par.block < 2 ^ 32 →
    (∀ k, 0 < k → k < n → fLe s.spec.fpr (toF (k * s.par.block)) = false) →
    fLe s.spec.fpr (toF (n * s.par.block)) = true →
    (∀ k, k < n → (ticks k s).tlm = s.tlm ∧ (ticks k s).spec.acc.toNat = k * s.par.block) ∧
    (ticks n s).tlm.seq = s.tlm.seq + 1 ∧ (ticks n s).spec.acc = 0

/-- R250: what an emit writes, and nothing else. -/
def Obligations.EmitWritesTheTelemetry : Prop :=
  ∀ (elapsed : Nat) (s : State),
    let t := emit elapsed s
    t = { s with exc := t.exc, dyn := { s.dyn with minRed := one }, tlm := t.tlm, tlmo := t.tlmo } ∧
    t.exc = excDetect s.par (transform s.spec.sb) elapsed s.exc ∧
    (∀ k, k < Config.fftSize / 2 →
      memRead t.tlm.mem k = binLevel (energy (workGet (transform s.spec.sb) k))) ∧
    t.tlm.red = reductionDb s.dyn.minRed ∧ t.tlm.sbrActive = (s.exc.enabled && t.exc.active) ∧
    t.tlm.seq = s.tlm.seq + 1 ∧
    t.tlmo = some { sbrActive := t.tlm.sbrActive, seq := t.tlm.seq, red := t.tlm.red
                    data := memElems t.tlm.mem (Config.fftSize / 2) }

/-- R248, R249: the level reported of a bin's energy, which lies in [0, 1.0] whatever the bin holds, grows weakly with
the energy, and is 1.0 from the energy 1.0 (the magnitude 1.0) up. -/
def Obligations.MagnitudesLieInUnit : Prop :=
  (∀ e : V, fIn posZero one (binLevel e) = true ∧
    let db := fMul (Config.lit 20) (fLog10 (fAdd (fSqrt e) Config.eps))
    binLevel e = if isNaN db then posZero
      else fDiv (fAdd (clamp db Config.dbLo Config.dbHi) (Config.lit 100)) (Config.lit 100)) ∧
  (∀ e e' : V, fLe posZero e = true → fLe e e' = true → isFinite e' = true → fLe (binLevel e) (binLevel e') = true) ∧
  (∀ e : V, fLe one e = true → isFinite e = true → binLevel e = one)

/-- R93, R246: the load puts every windowed sample, once, at its bit-reversed place. -/
def Obligations.LoadIsABitReversal : Prop :=
  (∀ i, i < Config.fftSize → bitrevRom i < Config.fftSize ∧ bitrevRom (bitrevRom i) = i) ∧
  ∀ (sb : Mem) (n : Nat), n < Config.fftSize →
    workGet (fftLoad Config.log2F (memRead sb)) (bitrevRom n) = ⟨fMul (memRead sb n) (windowAt n), posZero⟩

/-- R247: one butterfly, its two outputs from the old elements, every other element as it was; and the transform of `F`
points is the stages 1 to 13 in order, each of them a butterfly on every one of its pairs, from the elements before the
stage. -/
def Obligations.ButterflyWritesItsPair : Prop :=
  (∀ (w : Work) (a b k : Nat), a ≠ b → a < w.size → b < w.size →
    let u := butterfly w a b k
    butterflyAt w u a b k ∧ u.size = w.size ∧ ∀ i, i ≠ a → i ≠ b → workGet u i = workGet w i) ∧
  (∀ w : Work, w.size = 8192 →
    ∃ v : Nat → Work, v 0 = w ∧ fftRun Config.log2F w = v 13 ∧
      ∀ s, 1 ≤ s → s ≤ 13 → (v s).size = 8192 ∧
        let m := 2 ^ s
        ∀ g j, g < 8192 / m → j < m / 2 →
          butterflyAt (v (s - 1)) (v s) (g * m + j) (g * m + j + m / 2) (j * (8192 / m))) ∧
  (∀ sb : Mem, (fftLoad Config.log2F (memRead sb)).size = 8192 ∧
    transform sb = fftRun Config.log2F (fftLoad Config.log2F (memRead sb)))

/-! ### Audio blocks and ports -/

/-- R98, R133, R273, R274, R241: a block that fits goes frame by frame through the pipeline, its mix joins the window,
the cadence ticks once, and exactly one AOUT packet of its channel count and length answers it; any other submission has
no meaning: refused by name, which is the model's choice of a stop (log 4). -/
def Obligations.ProcAnswersOneBlock : Prop :=
  ∀ (p : AudioPacket) (s : State),
    (audioFits s.par.block p.nch p.samples.length = true →
      let stereo := p.nch == 2
      let input := (List.range s.par.block).map fun t =>
        (⟨p.samples.getD t posZero, p.samples.getD (s.par.block + t) posZero⟩ : Stereo V)
      let a := pipeFrames s.par s.gain stereo 0 input ⟨s.fb, s.exc, s.dyn⟩
      let mix := a.1.map fun o => if stereo then sanV (fMul (fAdd o.ch0 o.ch1) (Config.lit 1 2)) else o.ch0
      let out := a.1.map Stereo.ch0 ++ (if stereo then a.1.map Stereo.ch1 else [])
      out.length = p.samples.length ∧
      ∃ evs : List Event, (∀ e ∈ evs, isReplacement e = true) ∧
        exec (.proc p) s = .next
          { specTick { s with
              fb := a.2.fb, exc := a.2.exc, dyn := a.2.dyn
              spec := { s.spec with sb := specPush s.spec.sb mix }
              events := s.events ++ evs } with
            aout := some { nch := p.nch, samples := out } }) ∧
    (audioFits s.par.block p.nch p.samples.length = false → exec (.proc p) s = .refused .malformedAudio)

/-- R59: what no PROC writes; what it leaves in a one-channel block (R161), with the limiter off (R186), and when the
cadence does not fire (R243). -/
def Obligations.ProcKeepsConfiguration : Prop :=
  ∀ (p : AudioPacket) (s : State), audioFits s.par.block p.nch p.samples.length = true →
    ∃ t, exec (.proc p) s = .next t ∧
      t.par = s.par ∧ t.cq = s.cq ∧ t.fb.sections = s.fb.sections ∧ t.fb.qmode = s.fb.qmode ∧ t.gain = s.gain ∧
      sameDynConfig s.dyn t.dyn ∧ t.dyn.ratio = s.dyn.ratio ∧ t.dyn.releaseSec = s.dyn.releaseSec ∧
      t.exc.enabled = s.exc.enabled ∧ t.exc.userGain = s.exc.userGain ∧ t.spec.fps = s.spec.fps ∧
      t.spec.fpr = s.spec.fpr ∧ t.ctrlBuf = s.ctrlBuf ∧ t.ainBuf = s.ainBuf ∧ t.aoutSent = s.aoutSent ∧
      t.tlmSent = s.tlmSent ∧ t.host = s.host ∧
      (p.nch = 1 → t.fb.hist.ch1 = s.fb.hist.ch1 ∧ t.exc.ch.ch1 = s.exc.ch.ch1 ∧ t.dyn.dl.ch1 = s.dyn.dl.ch1) ∧
      (s.dyn.enabled = false →
        t.dyn.g = s.dyn.g ∧ t.dyn.ms = s.dyn.ms ∧ t.dyn.wr = s.dyn.wr ∧ t.dyn.dl = s.dyn.dl) ∧
      (fLe s.spec.fpr (toF (s.spec.acc + BitVec.ofNat 32 s.par.block).toNat) = false →
        t.tlm = s.tlm ∧ t.tlmo = s.tlmo ∧ t.exc.active = s.exc.active ∧ t.exc.hold = s.exc.hold)

/-- R277: every word of an AOUT packet is finite, whatever the state and the samples. -/
def Obligations.OutputsAreFinite : Prop :=
  ∀ (p : AudioPacket) (s : State), audioFits s.par.block p.nch p.samples.length = true →
    ∃ t, exec (.proc p) s = .next t ∧ aoutFinite t = true

/-- R96, R98, R99: what handing a packet over at its port does (the model's reading, log 5). -/
def Obligations.PortsHandOverWholePackets : Prop :=
  (∀ (p : AudioPacket) (s : State), exec (.aout p) s =
    .next { s with aout := none
                   aoutSent := s.aoutSent ++ mkHeader 0x11 p.nch p.samples.length :: p.samples }) ∧
  (∀ (p : TlmPacket) (s : State), exec (.tlm p) s =
    .next { s with tlmo := none
                   tlmSent := s.tlmSent
                     ++ mkHeader 0x20 (if p.sbrActive then 1 else 0) (p.data.length + 2) :: p.seq :: p.red :: p.data })
end

