-- ==== Sys2Proof/Laws/Float.lean ====
section
/-! SUPPORT. The facts about the working format that the datapath's claims rest on: its operations written out for
binary32, the encodings, the rounding (nearest, monotone, exact on representable values), the guard, clamp, maximum and
minimum, and the properties of the elementary functions. -/

namespace Sys2Proof.Machine

/-! ### The operations, written out for binary32 (00_scope R16) -/

/-- Rounding to a natural, and to the working format. -/
abbrev roundNat (num den : Nat) : Nat := Fp.roundNat num den
def roundMag (num den : Nat) : Nat := Fp.roundMag Config.numerics.format num den
def fRound (neg : Bool) (num den : Nat) : V := Fp.round Config.numerics.format neg num den
def fInt (a : V) : Int := Fp.int Config.numerics.format a
def fKey (a : V) : Int := Fp.key Config.numerics.format a

@[simp] theorem ofWord_eq (w : Word) : ofWord w = w := rfl
@[simp] theorem toWord_eq (v : V) : toWord v = v := rfl
@[simp] theorem map_ofWord (ws : List Word) : ws.map ofWord = ws := List.map_id ws
@[simp] theorem map_toWord (vs : List V) : vs.map toWord = vs := List.map_id vs

theorem infMag_eq : infMag = 0x7F800000 := by decide
theorem fMag_eq (a : V) : fMag a = a.toNat % 2 ^ 31 := rfl
theorem fSign_eq_msb (a : V) : fSign a = a.msb := rfl
theorem mkV_eq (neg : Bool) (m : Nat) : mkV neg m = BitVec.ofNat 32 (if neg then 2 ^ 31 + m else m) := rfl
theorem isNaN_eq (a : V) : isNaN a = decide (infMag < fMag a) := rfl
theorem isInf_eq (a : V) : isInf a = (fMag a == infMag) := rfl
theorem isFinite_eq (a : V) : isFinite a = decide (fMag a < infMag) := rfl

theorem posZero_eq : posZero = 0x00000000#32 := by decide
theorem negZero_eq : negZero = 0x80000000#32 := by decide
theorem posInf_eq : posInf = 0x7F800000#32 := by decide
theorem negInf_eq : negInf = 0xFF800000#32 := by decide
theorem one_eq : one = 0x3F800000#32 := by decide +kernel
theorem negOne_eq : negOne = 0xBF800000#32 := by decide +kernel
theorem half_eq : half = 0x3F000000#32 := by decide +kernel
theorem two_eq : two = 0x40000000#32 := by decide +kernel
theorem negTwo_eq : negTwo = 0xC0000000#32 := by decide +kernel

theorem fUnits_eq (a : V) : fUnits a =
    if fMag a / 2 ^ 23 = 0 then fMag a % 2 ^ 23 else (2 ^ 23 + fMag a % 2 ^ 23) * 2 ^ (fMag a / 2 ^ 23 - 1) := rfl
theorem fInt_eq (a : V) : fInt a = if fSign a then -(fUnits a : Int) else (fUnits a : Int) := rfl
theorem fKey_eq (a : V) : fKey a = if fSign a then -(fMag a : Int) else (fMag a : Int) := rfl
theorem roundMag_eq (num den : Nat) : roundMag num den =
    min ((Nat.log2 (num / den) - 23) * 2 ^ 23 + roundNat num (den * 2 ^ (Nat.log2 (num / den) - 23))) infMag := rfl
theorem fRound_eq (neg : Bool) (num den : Nat) : fRound neg num den = mkV neg (roundMag num den) := rfl
theorem fAbs_eq (a : V) : fAbs a = mkV false (fMag a) := rfl
theorem fNeg_eq (a : V) : fNeg a = mkV (!fSign a) (fMag a) := rfl
theorem fLt_eq (a b : V) : fLt a b = (!isNaN a && !isNaN b && decide (fKey a < fKey b)) := rfl
theorem fLe_eq (a b : V) : fLe a b = (!isNaN a && !isNaN b && decide (fKey a ≤ fKey b)) := rfl
theorem fEq_eq (a b : V) : fEq a b = (!isNaN a && !isNaN b && decide (fKey a = fKey b)) := rfl
theorem rnd_eq (v : V) : rnd v = (fUnits v + 2 ^ 148) / 2 ^ 149 := rfl
theorem lit_eq (num den : Nat) : Config.lit num den = fRound false (num * 2 ^ 149) den := rfl

/-- R17: the sum, with the special cases. -/
theorem fAdd_eq (a b : V) : fAdd a b =
    if isNaN a || isNaN b then 0x7FC00000#32
    else if isInf a then (if isInf b && fSign a != fSign b then 0x7FC00000#32 else a)
    else if isInf b then b
    else if fInt a + fInt b = 0 then mkV (fSign a && fSign b) 0
    else fRound (decide (fInt a + fInt b < 0)) (fInt a + fInt b).natAbs 1 := rfl

theorem fSub_eq (a b : V) : fSub a b = fAdd a (fNeg b) := rfl

/-- R17: the product, with the special cases. -/
theorem fMul_eq (a b : V) : fMul a b =
    if isNaN a || isNaN b then 0x7FC00000#32
    else if isInf a || isInf b then
      (if fMag a == 0 || fMag b == 0 then 0x7FC00000#32 else mkV (fSign a != fSign b) infMag)
    else fRound (fSign a != fSign b) (fUnits a * fUnits b) (2 ^ 149) := rfl

/-- R17: the quotient, with the special cases. -/
theorem fDiv_eq (a b : V) : fDiv a b =
    if isNaN a || isNaN b then 0x7FC00000#32
    else if isInf a then (if isInf b then 0x7FC00000#32 else mkV (fSign a != fSign b) infMag)
    else if isInf b then mkV (fSign a != fSign b) 0
    else if fMag b == 0 then (if fMag a == 0 then 0x7FC00000#32 else mkV (fSign a != fSign b) infMag)
    else fRound (fSign a != fSign b) (fUnits a * 2 ^ 149) (fUnits b) := rfl

/-- R17: the square root, with the special cases. -/
theorem fSqrt_eq (a : V) : fSqrt a =
    if isNaN a then 0x7FC00000#32
    else if fMag a == 0 then a
    else if fSign a then 0x7FC00000#32
    else if isInf a then a
    else
      let n := fUnits a * 2 ^ 149
      fRound false (2 * Fp.isqrt n + (if Fp.isqrt n * Fp.isqrt n = n then 0 else 1)) 2 := rfl

/-- R17 on finite operands: the exact sum, rounded once. -/
theorem fAdd_of_finite {a b : V} (ha : isFinite a = true) (hb : isFinite b = true) : fAdd a b =
    if fInt a + fInt b = 0 then mkV (fSign a && fSign b) 0
    else fRound (decide (fInt a + fInt b < 0)) (fInt a + fInt b).natAbs 1 := by
  have hn : ∀ v : V, isFinite v = true → isNaN v = false ∧ isInf v = false := by
    intro v hv
    simp only [isFinite_eq, isNaN_eq, isInf_eq, decide_eq_true_eq] at *
    simp
    omega
  rw [fAdd_eq, (hn a ha).1, (hn b hb).1, (hn a ha).2, (hn b hb).2]
  rfl

/-! ### Encodings -/

theorem fMag_lt (a : V) : fMag a < 2 ^ 31 := Nat.mod_lt a.toNat (y := 2 ^ 31) (by norm_num)

theorem fSign_eq (a : V) : fSign a = decide (2 ^ 31 ≤ a.toNat) := by
  simp [fSign_eq_msb, BitVec.msb_eq_decide]

/-- Sign and magnitude are the whole value. -/
theorem mkV_self (a : V) : mkV (fSign a) (fMag a) = a := by
  apply BitVec.eq_of_toNat_eq
  have h := a.isLt
  rw [fSign_eq]
  rw [mkV_eq, fMag_eq]
  by_cases hs : 2 ^ 31 ≤ a.toNat
  · simp only [hs, decide_true, if_true, BitVec.toNat_ofNat]
    omega
  · simp only [hs, decide_false, Bool.false_eq_true, if_false, BitVec.toNat_ofNat]
    omega

theorem fMag_mkV (neg : Bool) (m : Nat) (h : m < 2 ^ 31) : fMag (mkV neg m) = m := by
  rw [fMag_eq, mkV_eq]
  cases neg <;> simp only [Bool.false_eq_true, if_false, if_true, BitVec.toNat_ofNat] <;> omega

theorem fSign_mkV (neg : Bool) (m : Nat) (h : m < 2 ^ 31) : fSign (mkV neg m) = neg := by
  rw [fSign_eq]
  rw [mkV_eq]
  cases neg <;> simp only [Bool.false_eq_true, if_false, if_true, BitVec.toNat_ofNat, decide_eq_true_eq,
    decide_eq_false_iff_not] <;> omega

/-- Two values with the same sign and magnitude are the same. -/
theorem eq_of_sign_mag {a b : V} (hs : fSign a = fSign b) (hm : fMag a = fMag b) : a = b := by
  rw [← mkV_self a, ← mkV_self b, hs, hm]

theorem isFinite_iff (a : V) : isFinite a = true ↔ fMag a < infMag := by simp [isFinite_eq]

theorem isNaN_of_isFinite {a : V} (h : isFinite a = true) : isNaN a = false := by
  rw [isFinite_iff] at h
  simp [isNaN_eq]
  omega

theorem isInf_of_isFinite {a : V} (h : isFinite a = true) : isInf a = false := by
  rw [isFinite_iff] at h
  simp [isInf_eq]
  omega

@[simp] theorem fMag_fAbs (a : V) : fMag (fAbs a) = fMag a := by rw [fAbs_eq, fMag_mkV _ _ (fMag_lt a)]

@[simp] theorem isFinite_fAbs (a : V) : isFinite (fAbs a) = isFinite a := by simp [isFinite_eq]

/-! ### Rounding to a natural -/

/-- Nearest: twice the operand is within one denominator of twice the result, and a tie goes to the even one. -/
theorem roundNat_spec (num den : Nat) (hd : 0 < den) :
    2 * num ≤ (2 * roundNat num den + 1) * den ∧ 2 * roundNat num den * den ≤ 2 * num + den ∧
      (2 * num = (2 * roundNat num den + 1) * den → roundNat num den % 2 = 0) ∧
      (2 * roundNat num den * den = 2 * num + den → roundNat num den % 2 = 0) := by
  have hdiv := Nat.div_add_mod num den
  have hlt := Nat.mod_lt num hd
  have hnum : num = num / den * den + num % den := by rw [Nat.mul_comm]; exact hdiv.symm
  unfold roundNat Fp.roundNat
  dsimp only
  generalize num / den = q at *
  generalize num % den = r at *
  split
  · rename_i h
    simp only [Bool.or_eq_true, decide_eq_true_eq, Bool.and_eq_true, beq_iff_eq] at h
    have e1 : (2 * (q + 1) + 1) * den = 2 * (q * den) + 3 * den := by ring
    have e2 : 2 * (q + 1) * den = 2 * (q * den) + 2 * den := by ring
    rw [e1, e2, hnum]
    refine ⟨by omega, by omega, by omega, fun h' => ?_⟩
    omega
  · rename_i h
    simp only [Bool.or_eq_true, decide_eq_true_eq, Bool.and_eq_true, beq_iff_eq, not_or, not_and] at h
    have e1 : (2 * q + 1) * den = 2 * (q * den) + den := by ring
    have e2 : 2 * q * den = 2 * (q * den) := by ring
    rw [e1, e2, hnum]
    refine ⟨by omega, by omega, fun h' => ?_, by omega⟩
    have := h.2 (by omega)
    omega

/-- Rounding keeps the order of the exact quotients. -/
theorem roundNat_mono {n₁ d₁ n₂ d₂ : Nat} (h₁ : 0 < d₁) (h₂ : 0 < d₂) (h : n₁ * d₂ ≤ n₂ * d₁) :
    roundNat n₁ d₁ ≤ roundNat n₂ d₂ := by
  obtain ⟨-, a₂, -, a₄⟩ := roundNat_spec n₁ d₁ h₁
  obtain ⟨b₁, -, b₃, -⟩ := roundNat_spec n₂ d₂ h₂
  set a := roundNat n₁ d₁
  set b := roundNat n₂ d₂
  by_contra hab
  have hba : b + 1 ≤ a := by omega
  -- both operands lie exactly half way between `b` and `a = b + 1`
  have k1 : (2 * b + 2) * d₁ * d₂ ≤ 2 * a * d₁ * d₂ := by
    have : 2 * b + 2 ≤ 2 * a := by omega
    exact Nat.mul_le_mul_right _ (Nat.mul_le_mul_right _ this)
  have k2 : 2 * a * d₁ * d₂ ≤ (2 * n₁ + d₁) * d₂ := Nat.mul_le_mul_right _ a₂
  have k3 : 2 * n₂ * d₁ ≤ (2 * b + 1) * d₂ * d₁ := Nat.mul_le_mul_right _ b₁
  have e1 : (2 * b + 2) * d₁ * d₂ = (2 * b + 1) * d₂ * d₁ + d₁ * d₂ := by ring
  have e2 : (2 * n₁ + d₁) * d₂ = 2 * (n₁ * d₂) + d₁ * d₂ := by ring
  have e3 : 2 * n₂ * d₁ = 2 * (n₂ * d₁) := by ring
  have t1 : 2 * a * d₁ * d₂ = (2 * n₁ + d₁) * d₂ := by omega
  have t2 : 2 * n₂ * d₁ = (2 * b + 1) * d₂ * d₁ := by omega
  have t3 : (2 * b + 2) * d₁ * d₂ = 2 * a * d₁ * d₂ := by omega
  have ha : a % 2 = 0 := a₄ (Nat.eq_of_mul_eq_mul_right h₂ t1)
  have hb : b % 2 = 0 := b₃ (Nat.eq_of_mul_eq_mul_right h₁ t2)
  have : 2 * b + 2 = 2 * a := Nat.eq_of_mul_eq_mul_right h₁ (Nat.eq_of_mul_eq_mul_right h₂ t3)
  omega

@[simp] theorem roundNat_one (n : Nat) : roundNat n 1 = n := by simp [roundNat, Fp.roundNat, Nat.mod_one]

/-- A whole quotient is its own rounding. -/
theorem roundNat_mul (k d : Nat) (hd : 0 < d) : roundNat (k * d) d = k := by
  apply le_antisymm
  · simpa using roundNat_mono (n₂ := k) (d₂ := 1) hd one_pos (by simp)
  · simpa using roundNat_mono (n₁ := k) (d₁ := 1) one_pos hd (by simp)

/-! ### Rounding to the format -/

/-- The exponent of the quotient leaves at most 24 bits. -/
theorem quot_lt_exp (num den : Nat) : num / den < 2 ^ (Nat.log2 (num / den) - 23 + 24) := by
  have h : num / den < 2 ^ (Nat.log2 (num / den) + 1) := Nat.lt_log2_self
  exact lt_of_lt_of_le h (Nat.pow_le_pow_right (by norm_num) (by omega))

/-- The significand of a result never passes 2^24. -/
theorem roundNat_le_two_pow (num den : Nat) (hd : 0 < den) :
    roundNat num (den * 2 ^ (Nat.log2 (num / den) - 23)) ≤ 2 ^ 24 := by
  set e := Nat.log2 (num / den) - 23 with he
  have hq := quot_lt_exp num den
  rw [← he] at hq
  have hnum : num < den * 2 ^ (e + 24) := by
    have := (Nat.div_lt_iff_lt_mul hd).mp hq
    rwa [Nat.mul_comm] at this
  have := roundNat_mono (n₁ := num) (d₁ := den * 2 ^ e) (n₂ := 2 ^ 24) (d₂ := 1)
    (by positivity) one_pos (by
      have e1 : den * 2 ^ (e + 24) = 2 ^ 24 * (den * 2 ^ e) := by rw [pow_add]; ring
      omega)
  simpa using this

/-- In a range above the lowest the significand has its top bit. -/
theorem two_pow_le_roundNat (num den : Nat) (hd : 0 < den) (he : 0 < Nat.log2 (num / den) - 23) :
    2 ^ 23 ≤ roundNat num (den * 2 ^ (Nat.log2 (num / den) - 23)) := by
  set e := Nat.log2 (num / den) - 23 with hedef
  have hq : num / den ≠ 0 := by
    intro h0
    rw [h0] at hedef
    simp at hedef
    omega
  have hlow : 2 ^ Nat.log2 (num / den) ≤ num / den := Nat.log2_self_le hq
  have hl : Nat.log2 (num / den) = e + 23 := by omega
  rw [hl] at hlow
  have hnum : den * 2 ^ (e + 23) ≤ num := by
    have := (Nat.le_div_iff_mul_le hd).mp hlow
    rwa [Nat.mul_comm] at this
  have := roundNat_mono (n₁ := 2 ^ 23) (d₁ := 1) (n₂ := num) (d₂ := den * 2 ^ e) one_pos (by positivity) (by
      have e1 : den * 2 ^ (e + 23) = 2 ^ 23 * (den * 2 ^ e) := by rw [pow_add]; ring
      omega)
  simpa using this

theorem log2_mono {a b : Nat} (h : a ≤ b) : Nat.log2 a ≤ Nat.log2 b := by
  rw [Nat.log2_eq_log_two, Nat.log2_eq_log_two]
  exact Nat.log_mono_right h

/-- Correct rounding is monotone: a greater exact quotient never rounds to a smaller magnitude. -/
theorem roundMag_mono {n₁ d₁ n₂ d₂ : Nat} (h₁ : 0 < d₁) (h₂ : 0 < d₂) (h : n₁ * d₂ ≤ n₂ * d₁) :
    roundMag n₁ d₁ ≤ roundMag n₂ d₂ := by
  have hq : n₁ / d₁ ≤ n₂ / d₂ := by
    rw [Nat.le_div_iff_mul_le h₂]
    have h3 : n₁ / d₁ * d₁ ≤ n₁ := Nat.div_mul_le_self n₁ d₁
    have h4 : n₁ / d₁ * d₂ * d₁ ≤ n₂ * d₁ := by
      calc n₁ / d₁ * d₂ * d₁ = n₁ / d₁ * d₁ * d₂ := by ring
        _ ≤ n₁ * d₂ := Nat.mul_le_mul_right _ h3
        _ ≤ n₂ * d₁ := h
    exact Nat.le_of_mul_le_mul_right h4 h₁
  have he : Nat.log2 (n₁ / d₁) - 23 ≤ Nat.log2 (n₂ / d₂) - 23 := Nat.sub_le_sub_right (log2_mono hq) 23
  have top := roundNat_le_two_pow n₁ d₁ h₁
  rw [roundMag_eq, roundMag_eq]
  apply min_le_min_right
  rcases Nat.lt_or_eq_of_le he with hlt | heq
  · have bot := two_pow_le_roundNat n₂ d₂ h₂ (by omega)
    have : (Nat.log2 (n₁ / d₁) - 23 + 1) * 2 ^ 23 ≤ (Nat.log2 (n₂ / d₂) - 23) * 2 ^ 23 :=
      Nat.mul_le_mul_right _ hlt
    norm_num at this top bot ⊢
    omega
  · rw [heq]
    apply Nat.add_le_add_left
    apply roundNat_mono (by positivity) (by positivity)
    calc n₁ * (d₂ * 2 ^ (Nat.log2 (n₂ / d₂) - 23)) = n₁ * d₂ * 2 ^ (Nat.log2 (n₂ / d₂) - 23) := by ring
      _ ≤ n₂ * d₁ * 2 ^ (Nat.log2 (n₂ / d₂) - 23) := Nat.mul_le_mul_right _ h
      _ = n₂ * (d₁ * 2 ^ (Nat.log2 (n₂ / d₂) - 23)) := by ring

/-- Equal quotients round to the same magnitude. -/
theorem roundMag_congr {n₁ d₁ n₂ d₂ : Nat} (h₁ : 0 < d₁) (h₂ : 0 < d₂) (h : n₁ * d₂ = n₂ * d₁) :
    roundMag n₁ d₁ = roundMag n₂ d₂ :=
  le_antisymm (roundMag_mono h₁ h₂ h.le) (roundMag_mono h₂ h₁ h.ge)

theorem roundMag_le_infMag (n d : Nat) : roundMag n d ≤ infMag := Nat.min_le_right _ _

/-- A finite value is its own rounding. -/
theorem roundMag_fUnits {a : V} (h : isFinite a = true) : roundMag (fUnits a) 1 = fMag a := by
  rw [isFinite_iff] at h
  rw [fUnits_eq]
  generalize fMag a = b at h
  rw [infMag_eq] at h
  have hb := Nat.div_add_mod b (2 ^ 23)
  have hf : b % 2 ^ 23 < 2 ^ 23 := Nat.mod_lt _ (by norm_num)
  by_cases he : b / 2 ^ 23 = 0
  · simp only [he, if_true]
    have hlog : Nat.log2 (b % 2 ^ 23 / 1) - 23 = 0 := by
      rcases Nat.eq_zero_or_pos (b % 2 ^ 23) with h0 | hpos
      · rw [h0]
        decide
      · have : Nat.log2 (b % 2 ^ 23 / 1) < 23 := by
          rw [Nat.div_one]
          exact (Nat.log2_lt hpos.ne').mpr hf
        omega
    rw [roundMag_eq]
    rw [hlog]
    simp only [Nat.zero_mul, pow_zero, Nat.mul_one, roundNat_one, Nat.zero_add]
    rw [he] at hb
    rw [infMag_eq]
    omega
  · simp only [he, if_false]
    obtain ⟨e, he'⟩ : ∃ e, b / 2 ^ 23 = e + 1 := ⟨b / 2 ^ 23 - 1, by omega⟩
    set m := 2 ^ 23 + b % 2 ^ 23 with hm
    have hm1 : 2 ^ 23 ≤ m := by omega
    have hm2 : m < 2 ^ 24 := by norm_num at hf hm ⊢; omega
    have hlog : Nat.log2 (m * 2 ^ e) = e + 23 := by
      rw [Nat.log2_eq_log_two]
      apply Nat.log_eq_of_pow_le_of_lt_pow
      · rw [pow_add, Nat.mul_comm]
        exact Nat.mul_le_mul_right _ hm1
      · have : (2 : Nat) ^ (e + 23 + 1) = 2 ^ 24 * 2 ^ e := by rw [← pow_add]; congr 1; omega
        rw [this]
        exact Nat.mul_lt_mul_of_pos_right hm2 (by positivity)
    rw [he', show e + 1 - 1 = e by omega]
    rw [roundMag_eq]
    rw [Nat.div_one, hlog, show e + 23 - 23 = e by omega, Nat.one_mul, roundNat_mul m (2 ^ e) (by positivity)]
    rw [he'] at hb
    have : e * 2 ^ 23 + m = b := by
      norm_num at hb hm ⊢
      omega
    rw [this]
    rw [infMag_eq]
    omega

/-- The finite magnitudes order as their units do. -/
theorem roundMag_le_of_le_units {n d : Nat} {b : V} (hd : 0 < d) (hb : isFinite b = true) (h : n ≤ fUnits b * d) :
    roundMag n d ≤ fMag b := by
  rw [← roundMag_fUnits hb]
  exact roundMag_mono hd one_pos (by simpa using h)

theorem le_roundMag_of_units_le {n d : Nat} {b : V} (hd : 0 < d) (hb : isFinite b = true) (h : fUnits b * d ≤ n) :
    fMag b ≤ roundMag n d := by
  rw [← roundMag_fUnits hb]
  exact roundMag_mono one_pos hd (by simpa using h)

theorem infMag_lt : infMag < 2 ^ 31 := by rw [infMag_eq]; norm_num

theorem fMag_fRound (neg : Bool) (n d : Nat) : fMag (fRound neg n d) = roundMag n d :=
  fMag_mkV _ _ (lt_of_le_of_lt (roundMag_le_infMag n d) infMag_lt)

theorem fSign_fRound (neg : Bool) (n d : Nat) : fSign (fRound neg n d) = neg :=
  fSign_mkV _ _ (lt_of_le_of_lt (roundMag_le_infMag n d) infMag_lt)

/-- A finite value, with its sign and its exact magnitude, rounds to itself. -/
theorem fRound_self {a : V} (h : isFinite a = true) {n d : Nat} (hd : 0 < d) (hn : n = fUnits a * d) :
    fRound (fSign a) n d = a := by
  rw [fRound_eq]
  rw [roundMag_congr (n₂ := fUnits a) (d₂ := 1) hd one_pos (by simp [hn]), roundMag_fUnits h, mkV_self]

/-! ### Products and quotients -/

theorem fMul_of_finite {a b : V} (ha : isFinite a = true) (hb : isFinite b = true) :
    fMul a b = fRound (fSign a != fSign b) (fUnits a * fUnits b) (2 ^ 149) := by
  simp [fMul_eq, isNaN_of_isFinite ha, isNaN_of_isFinite hb, isInf_of_isFinite ha, isInf_of_isFinite hb]

/-- A product with a factor of magnitude at most 1.0 is no greater than the other factor. -/
theorem fMag_fMul_le {a b : V} (ha : isFinite a = true) (hb : isFinite b = true) (h1 : fUnits b ≤ 2 ^ 149) :
    fMag (fMul a b) ≤ fMag a := by
  rw [fMul_of_finite ha hb, fMag_fRound]
  exact roundMag_le_of_le_units (by positivity) ha (Nat.mul_le_mul_left _ h1)

theorem fUnits_one : fUnits one = 2 ^ 149 := by decide +kernel

/-- 1.0 is neutral on the left and on the right. -/
theorem fMul_one_left {a : V} (ha : isFinite a = true) : fMul one a = a := by
  rw [fMul_of_finite (by decide) ha, fUnits_one]
  have : (fSign one != fSign a) = fSign a := by
    rw [show fSign one = false by decide]
    cases fSign a <;> rfl
  rw [this]
  exact fRound_self ha (by positivity) (by ring)

theorem fMul_one_right {a : V} (ha : isFinite a = true) : fMul a one = a := by
  rw [fMul_of_finite ha (by decide), fUnits_one]
  have : (fSign a != fSign one) = fSign a := by
    rw [show fSign one = false by decide]
    cases fSign a <;> rfl
  rw [this]
  exact fRound_self ha (by positivity) rfl

/-- The units of a finite value determine its magnitude. -/
theorem fMag_eq_zero_iff {a : V} (ha : isFinite a = true) : fUnits a = 0 ↔ fMag a = 0 := by
  constructor
  · intro h
    have := roundMag_fUnits ha
    rw [h] at this
    rw [← this]
    decide
  · intro h
    simp [fUnits_eq, h]

/-- A quotient of a value by itself is 1.0. -/
theorem fDiv_self {a : V} (ha : isFinite a = true) (h0 : fMag a ≠ 0) : fDiv a a = one := by
  have hu : 0 < fUnits a := Nat.pos_of_ne_zero fun h => h0 ((fMag_eq_zero_iff ha).mp h)
  have hd : fDiv a a = fRound (fSign a != fSign a) (fUnits a * 2 ^ 149) (fUnits a) := by
    simp [fDiv_eq, isNaN_of_isFinite ha, isInf_of_isFinite ha, h0]
  rw [hd, bne_self_eq_false]
  have := fRound_self (a := one) (by decide) hu (n := fUnits a * 2 ^ 149) (by rw [fUnits_one]; ring)
  rwa [show fSign one = false by decide] at this

/-! ### The guard, the clamp, maximum and minimum -/

/-- R22: what `san` returns is finite. -/
@[simp] theorem isFinite_sanV (v : V) : isFinite (sanV v) = true := by
  unfold sanV
  split
  · assumption
  · decide

/-- R22: a finite value passes `san` unchanged. -/
theorem sanV_of_isFinite {v : V} (h : isFinite v = true) : sanV v = v := by simp [sanV, h]

theorem isFinite_fMin {a b : V} (ha : isFinite a = true) (hb : isFinite b = true) : isFinite (fMin a b) = true := by
  unfold fMin
  split <;> assumption

theorem isFinite_fMax {a b : V} (ha : isFinite a = true) (hb : isFinite b = true) : isFinite (fMax a b) = true := by
  unfold fMax
  split <;> assumption

/-- R23: the clamp of a non-NaN value lies in the range. -/
theorem fIn_clamp {v lo hi : V} (hv : isNaN v = false) (hlo : isNaN lo = false) (hhi : isNaN hi = false)
    (h : fLe lo hi = true) : fIn lo hi (clamp v lo hi) = true := by
  simp only [fLe_eq, Bool.and_eq_true, decide_eq_true_eq] at h
  unfold clamp
  split
  · simp [fIn, fLe_eq, hlo, hhi, h.2]
  · rename_i h1
    split
    · simp [fIn, fLe_eq, hlo, hhi, h.2]
    · rename_i h2
      simp only [fLt_eq, hv, hlo, hhi, Bool.not_false, Bool.true_and, decide_eq_true_eq, not_lt] at h1 h2
      simp [fIn, fLe_eq, hv, hlo, hhi, h1, h2]

/-! ### Order -/

theorem fLe_trans {a b c : V} (hab : fLe a b = true) (hbc : fLe b c = true) : fLe a c = true := by
  simp only [fLe_eq, Bool.and_eq_true, decide_eq_true_eq] at *
  exact ⟨⟨hab.1.1, hbc.1.2⟩, le_trans hab.2 hbc.2⟩

theorem fLt_of_fLe_of_fLt {a b c : V} (hab : fLe a b = true) (hbc : fLt b c = true) : fLt a c = true := by
  simp only [fLe_eq, fLt_eq, Bool.and_eq_true, decide_eq_true_eq] at *
  exact ⟨⟨hab.1.1, hbc.1.2⟩, lt_of_le_of_lt hab.2 hbc.2⟩

theorem fLt_of_fLt_of_fLe {a b c : V} (hab : fLt a b = true) (hbc : fLe b c = true) : fLt a c = true := by
  simp only [fLe_eq, fLt_eq, Bool.and_eq_true, decide_eq_true_eq] at *
  exact ⟨⟨hab.1.1, hbc.1.2⟩, lt_of_lt_of_le hab.2 hbc.2⟩

/-- Of two finite values the one with the smaller magnitude bits has the fewer units. -/
theorem fUnits_mono {a b : V} (ha : isFinite a = true) (hb : isFinite b = true) (h : fMag a ≤ fMag b) :
    fUnits a ≤ fUnits b := by
  by_contra hlt
  have hmag : fMag b ≤ fMag a := by
    rw [← roundMag_fUnits ha, ← roundMag_fUnits hb]
    exact roundMag_mono one_pos one_pos (by omega)
  have : fUnits a = fUnits b := by rw [fUnits_eq, fUnits_eq, le_antisymm h hmag]
  omega

/-- A value from 1.0 up is not NaN, and its magnitude is at least that of 1.0. -/
theorem fMag_of_one_le {x : V} (h : fLe one x = true) : isNaN x = false ∧ fMag one ≤ fMag x := by
  simp only [fLe_eq, Bool.and_eq_true, decide_eq_true_eq, Bool.not_eq_true'] at h
  refine ⟨h.1.2, ?_⟩
  have hk := h.2
  rw [fKey_eq, fKey_eq, show fSign one = false by decide +kernel] at hk
  simp only [Bool.false_eq_true, if_false] at hk
  split at hk <;> omega

/-! ### The elementary functions (00_scope R21) -/

/-- `FS` as a value, for the sample rates R5 admits. -/
theorem toF_rate {fs : Nat} (hlo : Config.fsMin ≤ fs) (hhi : fs < Config.fsMax + 1) :
    isFinite (toF fs) = true ∧ fMag (toF fs) ≠ 0 ∧ fUnits (toF fs) ≤ 2 ^ 149 * 2 ^ 149 := by
  have hmag : fMag (toF fs) = roundMag (fs * 2 ^ 149) 1 := by
    show fMag (Config.lit fs) = _
    rw [lit_eq, fMag_fRound]
  have low : fMag one ≤ fMag (toF fs) := by
    rw [hmag, show fMag one = roundMag (1 * 2 ^ 149) 1 by decide +kernel]
    exact roundMag_mono one_pos one_pos (by unfold Config.fsMin at hlo; omega)
  have high : fMag (toF fs) ≤ fMag (toF Config.fsMax) := by
    rw [hmag, show fMag (toF Config.fsMax) = roundMag (Config.fsMax * 2 ^ 149) 1 by decide +kernel]
    exact roundMag_mono one_pos one_pos (by omega)
  have hf : isFinite (toF fs) = true := by
    rw [isFinite_iff]
    exact lt_of_le_of_lt high (by decide +kernel)
  refine ⟨hf, ?_, le_trans (fUnits_mono hf (by decide +kernel) high) (by decide +kernel)⟩
  have : fMag one ≠ 0 := by decide +kernel
  omega

/-- A product with `TWO_PI` is no smaller than the other factor, if that is at least 1.0. -/
theorem fMag_twoPi_mul {x : V} (h : fLe one x = true) :
    fMag one ≤ fMag (fMul Config.twoPi x) ∧ fMag (fMul Config.twoPi x) ≤ infMag := by
  obtain ⟨hn, hm⟩ := fMag_of_one_le h
  have hp : isFinite Config.twoPi = true := by decide +kernel
  by_cases hx : isFinite x = true
  · rw [fMul_of_finite hp hx, fMag_fRound]
    refine ⟨le_trans hm ?_, roundMag_le_infMag _ _⟩
    apply le_roundMag_of_units_le (by positivity) hx
    rw [Nat.mul_comm]
    exact Nat.mul_le_mul_right _ (by decide +kernel)
  · have hi : isInf x = true := by
      simp only [isFinite_eq, isNaN_eq, isInf_eq, decide_eq_true_eq, decide_eq_false_iff_not, beq_iff_eq] at *
      omega
    have hz : (fMag Config.twoPi == 0) = false := by decide +kernel
    have hx0 : (fMag x == 0) = false := by
      have : fMag one ≠ 0 := by decide +kernel
      simp only [beq_eq_false_iff_ne]
      omega
    rw [fMul_eq, isNaN_of_isFinite hp, hn, hi, hz, hx0]
    simp only [Bool.or_self, Bool.or_true, Bool.false_eq_true, if_true, if_false, fMag_mkV _ _ infMag_lt]
    exact ⟨by decide +kernel, le_refl _⟩

/-- No `w0` of a frequency from 1.0 Hz up is a zero. -/
theorem w0Of_ne_posZero {fs : Nat} (hlo : Config.fsMin ≤ fs) (hhi : fs < Config.fsMax + 1) {x : V}
    (hx : fLe Config.fLo x = true) : w0Of fs x ≠ posZero := by
  obtain ⟨hd, hd0, hdu⟩ := toF_rate hlo hhi
  obtain ⟨hlow, hhigh⟩ := fMag_twoPi_mul (x := x) hx
  suffices h : fMag (w0Of fs x) ≠ 0 from fun h0 => h (by rw [h0]; decide +kernel)
  unfold w0Of
  generalize fMul Config.twoPi x = p at hlow hhigh
  by_cases hp : isFinite p = true
  · have hb : (fMag (toF fs) == 0) = false := by simpa using hd0
    have : fDiv p (toF fs) = fRound (fSign p != fSign (toF fs)) (fUnits p * 2 ^ 149) (fUnits (toF fs)) := by
      simp [fDiv_eq, isNaN_of_isFinite hp, isInf_of_isFinite hp, isNaN_of_isFinite hd, isInf_of_isFinite hd, hb]
    rw [this, fMag_fRound]
    have hpos : 0 < fUnits (toF fs) := Nat.pos_of_ne_zero fun h => hd0 ((fMag_eq_zero_iff hd).mp h)
    have hone : 2 ^ 149 ≤ fUnits p := fUnits_one ▸ fUnits_mono (by decide +kernel) hp hlow
    have := le_roundMag_of_units_le (n := fUnits p * 2 ^ 149) (b := leastPos) hpos (by decide +kernel) (by
      rw [show fUnits leastPos = 1 by decide +kernel, Nat.one_mul]
      exact le_trans hdu (Nat.mul_le_mul_right _ hone))
    have : fMag leastPos = 1 := by decide +kernel
    omega
  · have hi : isInf p = true := by
      simp only [isFinite_eq, isInf_eq, decide_eq_true_eq, beq_iff_eq] at *
      omega
    have hn : isNaN p = false := by
      simp only [isNaN_eq, decide_eq_false_iff_not]
      omega
    simp only [fDiv_eq, hn, hi, isNaN_of_isFinite hd, isInf_of_isFinite hd, Bool.or_self, Bool.false_eq_true, if_true,
      if_false, fMag_mkV _ _ infMag_lt]
    decide +kernel

theorem sinBase_ok : SinOk sinBase := by
  refine ⟨by decide +kernel, fun a _ => ?_, fun fs hhi hlo x hx => ?_⟩
  · unfold sinBase
    split <;> decide +kernel
  · have : w0Of fs x ≠ posZero := w0Of_ne_posZero hlo hhi (by simp_all [fIn])
    simp only [sinBase, this, if_false]
    decide +kernel

theorem cosBase_ok : CosOk cosBase := ⟨rfl, rfl, fun _ _ => by unfold cosBase; decide +kernel⟩

theorem pow10Base_ok : Pow10Ok pow10Base := by
  refine ⟨rfl, rfl, fun a _ => ?_⟩
  unfold pow10Base
  exact ⟨by decide +kernel, by decide +kernel, fun _ => by decide +kernel, fun _ => by decide +kernel⟩

theorem log10Base_ok : Log10Ok log10Base := by
  have range : ∀ a, fLe (log10Base a) posZero = true := by
    intro a
    unfold log10Base
    split <;> decide +kernel
  refine ⟨by decide +kernel, fun a _ _ => range a, fun a _ b _ hab => ?_, .inl (by decide +kernel)⟩
  by_cases h : fLt b one = true
  · have : log10Base a = negInf := if_pos (fLt_of_fLe_of_fLt hab h)
    rw [this, show log10Base b = negInf from if_pos h]
    decide +kernel
  · rw [show log10Base b = posZero from if_neg h]
    exact range a

/-- A function that is `f` where `f` has the property and else `g`, which has it, has it. -/
theorem guarded_ok {P : (V → V) → Prop} {f g : V → V} [Decidable (P f)] (hg : P g) :
    P fun a => if P f then f a else g a := by
  by_cases h : P f
  · simpa only [if_pos h] using h
  · simpa only [if_neg h] using hg

/-- R21: the elementary functions have NP2 to NP6. -/
theorem fSin_ok : SinOk fSin := guarded_ok sinBase_ok
theorem fCos_ok : CosOk fCos := guarded_ok cosBase_ok
theorem fPow10_ok : Pow10Ok fPow10 := guarded_ok pow10Base_ok
theorem fLog10_ok : Log10Ok fLog10 := guarded_ok log10Base_ok

end Sys2Proof.Machine
end

