-- ==== Sys2Proof/Laws/Memory.lean ====
section
/-! SUPPORT. What each memory operation can do: reads after writes and shifts, and the canonical form kept. -/

namespace Sys2Proof.Machine

/-! ### Reading -/

/-- An index no cell has reads as the default. -/
theorem memRead_of_forall_ne (m : Mem) (i : Nat) (h : ∀ c ∈ m, c.1 ≠ i) : memRead m i = memDefault := by
  induction m with
  | nil => rfl
  | cons c m ih =>
    obtain ⟨a, v⟩ := c
    have ha : a ≠ i := h (a, v) (by simp)
    simp only [memRead, ha, if_false]
    exact ih fun c hc => h c (by simp [hc])

theorem memRead_append (m₁ m₂ : Mem) (i : Nat) (h : ∀ c ∈ m₁, c.1 ≠ i) : memRead (m₁ ++ m₂) i = memRead m₂ i := by
  induction m₁ with
  | nil => rfl
  | cons c m ih =>
    obtain ⟨a, v⟩ := c
    have ha : a ≠ i := h (a, v) (by simp)
    simp only [List.cons_append, memRead, ha, if_false]
    exact ih fun c hc => h c (by simp [hc])

/-- Cells after the one read do not matter if none of them has its index. -/
theorem memRead_append_of_right (m₁ m₂ : Mem) (i : Nat) (h : ∀ c ∈ m₂, c.1 ≠ i) :
    memRead (m₁ ++ m₂) i = memRead m₁ i := by
  induction m₁ with
  | nil => simpa [memRead] using memRead_of_forall_ne m₂ i h
  | cons c m ih =>
    obtain ⟨a, v⟩ := c
    simp only [List.cons_append, memRead, ih]

/-- Filtering on the index keeps the reads of the indices kept. -/
theorem memRead_filter (m : Mem) (p : Nat → Bool) (i : Nat) :
    memRead (m.filter fun c => p c.1) i = if p i then memRead m i else memDefault := by
  induction m with
  | nil => simp [memRead]
  | cons c m ih =>
    obtain ⟨a, v⟩ := c
    by_cases hp : p a <;> by_cases ha : a = i <;> simp_all [memRead]

/-! ### Writing -/

theorem cellsFrom_bounds (base : Nat) (vs : List V) : ∀ c ∈ cellsFrom base vs, base ≤ c.1 ∧ c.1 < base + vs.length := by
  induction vs generalizing base with
  | nil => simp [cellsFrom]
  | cons v vs ih =>
    intro c hc
    simp only [cellsFrom] at hc
    simp only [List.length_cons]
    split at hc
    · have := ih (base + 1) c hc
      omega
    · rcases List.mem_cons.mp hc with rfl | hc
      · simp
      · have := ih (base + 1) c hc
        omega

theorem memRead_cellsFrom (base : Nat) (vs : List V) (i : Nat) :
    memRead (cellsFrom base vs) i = if base ≤ i then vs.getD (i - base) memDefault else memDefault := by
  induction vs generalizing base with
  | nil => simp [cellsFrom, memRead]
  | cons v vs ih =>
    have tail : base ≠ i → memRead (cellsFrom (base + 1) vs) i
        = if base ≤ i then (v :: vs).getD (i - base) memDefault else memDefault := by
      intro hne
      rw [ih]
      by_cases h : base + 1 ≤ i
      · obtain ⟨k, rfl⟩ := Nat.exists_eq_add_of_le h
        have e1 : base + 1 + k - (base + 1) = k := by omega
        have e2 : base + 1 + k - base = k + 1 := by omega
        simp [e1, e2, show base ≤ base + 1 + k by omega]
      · simp [h, show ¬ base ≤ i by omega]
    simp only [cellsFrom]
    split
    · rename_i hv
      by_cases hi : base = i
      · subst hi
        rw [ih]
        simp [hv]
      · exact tail hi
    · by_cases hi : base = i
      · subst hi
        simp [memRead]
      · simp only [memRead, hi, if_false]
        exact tail hi

/-- What a range store leaves at every index: the new elements in the range, the old ones outside it. -/
theorem memRead_memStore (m : Mem) (base : Nat) (vs : List V) (i : Nat) :
    memRead (memStore m base vs) i
      = if base ≤ i ∧ i < base + vs.length then vs.getD (i - base) memDefault else memRead m i := by
  have hlow := memRead_filter m (fun a => decide (a < base)) i
  have hhigh := memRead_filter m (fun a => decide (base + vs.length ≤ a)) i
  have hcells := memRead_cellsFrom base vs i
  unfold memStore
  by_cases h1 : i < base
  · rw [memRead_append_of_right, memRead_append_of_right, hlow]
    · simp [h1, show ¬ base ≤ i by omega]
    · intro c hc
      have := cellsFrom_bounds base vs c hc
      omega
    · intro c hc
      have := (List.mem_filter.mp hc).2
      simp only [decide_eq_true_eq] at this
      omega
  · rw [List.append_assoc, memRead_append]
    · by_cases h2 : i < base + vs.length
      · rw [memRead_append_of_right, hcells]
        · simp [h2, show base ≤ i by omega]
        · intro c hc
          have := (List.mem_filter.mp hc).2
          simp only [decide_eq_true_eq] at this
          omega
      · rw [memRead_append, hhigh]
        · simp [h2, show base + vs.length ≤ i by omega]
        · intro c hc
          have := cellsFrom_bounds base vs c hc
          omega
    · intro c hc
      have := (List.mem_filter.mp hc).2
      simp only [decide_eq_true_eq] at this
      omega

/-- A read after a write: the value written at its index, the old value elsewhere. -/
theorem memRead_memWrite (m : Mem) (i j : Nat) (v : V) :
    memRead (memWrite m i v) j = if j = i then v else memRead m j := by
  unfold memWrite
  rw [memRead_memStore]
  by_cases h : j = i
  · subst h
    simp
  · rw [if_neg (by simp only [List.length_singleton]; omega), if_neg h]

/-- A shifted space reads at an index what the space read `k` above it. -/
theorem memRead_memShift (m : Mem) (k i : Nat) : memRead (memShift m k) i = memRead m (i + k) := by
  unfold memShift
  induction m with
  | nil => rfl
  | cons c m ih =>
    obtain ⟨a, v⟩ := c
    by_cases hk : k ≤ a
    · rw [List.filter_cons_of_pos (by simpa using hk), List.map_cons]
      simp only [memRead]
      by_cases ha : a = i + k
      · simp [ha]
      · rw [if_neg (by omega), if_neg ha]
        exact ih
    · rw [List.filter_cons_of_neg (by simpa using hk)]
      simp only [memRead]
      rw [if_neg (by omega)]
      exact ih

/-! ### The canonical form -/

theorem memWf_iff (bound : Nat) (m : Mem) :
    memWf bound m = true ↔ m.Pairwise (fun c d => c.1 < d.1) ∧ ∀ c ∈ m, c.1 < bound ∧ c.2 ≠ memDefault := by
  induction m with
  | nil => simp [memWf]
  | cons c m ih =>
    obtain ⟨a, v⟩ := c
    simp only [memWf, Bool.and_eq_true, decide_eq_true_eq, bne_iff_ne, List.all_eq_true, ih, List.pairwise_cons,
      List.forall_mem_cons]
    tauto

/-- The empty space is in canonical form. -/
@[simp] theorem memWf_nil (bound : Nat) : memWf bound [] = true := rfl

theorem cellsFrom_pairwise (base : Nat) (vs : List V) : (cellsFrom base vs).Pairwise fun c d => c.1 < d.1 := by
  induction vs generalizing base with
  | nil => simp [cellsFrom]
  | cons v vs ih =>
    simp only [cellsFrom]
    split
    · exact ih _
    · refine List.pairwise_cons.mpr ⟨fun d hd => ?_, ih _⟩
      have := cellsFrom_bounds (base + 1) vs d hd
      show base < d.1
      omega

theorem cellsFrom_ne_default (base : Nat) (vs : List V) : ∀ c ∈ cellsFrom base vs, c.2 ≠ memDefault := by
  induction vs generalizing base with
  | nil => simp [cellsFrom]
  | cons v vs ih =>
    intro c hc
    simp only [cellsFrom] at hc
    split at hc
    · exact ih _ c hc
    · rename_i hv
      rcases List.mem_cons.mp hc with rfl | hc
      · exact hv
      · exact ih _ c hc

/-- A store within the bound keeps the canonical form. -/
theorem memStore_wf (bound : Nat) (m : Mem) (base : Nat) (vs : List V) (hm : memWf bound m = true)
    (hb : base + vs.length ≤ bound) : memWf bound (memStore m base vs) = true := by
  rw [memWf_iff] at hm ⊢
  obtain ⟨hp, hall⟩ := hm
  have hlow : ∀ c ∈ m.filter (fun c => c.1 < base), c.1 < base := fun c hc => by
    simpa using (List.mem_filter.mp hc).2
  have hhigh : ∀ c ∈ m.filter (fun c => base + vs.length ≤ c.1), base + vs.length ≤ c.1 := fun c hc => by
    simpa using (List.mem_filter.mp hc).2
  constructor
  · unfold memStore
    refine List.pairwise_append.mpr ⟨List.pairwise_append.mpr
      ⟨hp.sublist List.filter_sublist, cellsFrom_pairwise _ _, ?_⟩, hp.sublist List.filter_sublist, ?_⟩
    · intro c hc d hd
      have := hlow c hc
      have := cellsFrom_bounds base vs d hd
      omega
    · intro c hc d hd
      have hd' := hhigh d hd
      rcases List.mem_append.mp hc with hc | hc
      · have := hlow c hc
        omega
      · have := cellsFrom_bounds base vs c hc
        omega
  · intro c hc
    unfold memStore at hc
    rcases List.mem_append.mp hc with hc | hc
    · rcases List.mem_append.mp hc with hc | hc
      · exact hall c (List.mem_of_mem_filter hc)
      · have := cellsFrom_bounds base vs c hc
        exact ⟨by omega, cellsFrom_ne_default base vs c hc⟩
    · exact hall c (List.mem_of_mem_filter hc)

/-- A write within the bound keeps the canonical form. -/
theorem memWrite_wf (bound : Nat) (m : Mem) (i : Nat) (v : V) (hm : memWf bound m = true) (hi : i < bound) :
    memWf bound (memWrite m i v) = true :=
  memStore_wf bound m i [v] hm (by simp only [List.length_singleton]; omega)

/-- A shift toward index 0 keeps the canonical form. -/
theorem memShift_wf (bound : Nat) (m : Mem) (k : Nat) (hm : memWf bound m = true) :
    memWf bound (memShift m k) = true := by
  rw [memWf_iff] at hm ⊢
  obtain ⟨hp, hall⟩ := hm
  unfold memShift
  constructor
  · rw [List.pairwise_map]
    refine (hp.sublist List.filter_sublist).imp_of_mem ?_
    intro c d hc hd hcd
    have hc' : k ≤ c.1 := by simpa using (List.mem_filter.mp hc).2
    have hd' : k ≤ d.1 := by simpa using (List.mem_filter.mp hd).2
    show c.1 - k < d.1 - k
    omega
  · intro c hc
    obtain ⟨d, hd, rfl⟩ := List.mem_map.mp hc
    have := hall d (List.mem_of_mem_filter hd)
    exact ⟨by show d.1 - k < bound; omega, this.2⟩

end Sys2Proof.Machine
end

