-- ==== Sys2Proof/Laws/PerInstr.lean ====
section
/-! SUPPORT. Per instruction: the words of a packet begin with a header that carries its row's opcode, its `a` byte
and the number of its operand words (30_encoding R120, R121, R124). -/

namespace Sys2Proof.Laws

theorem hdrOp_mkHeader (op a : BitVec 8) (n : Nat) : hdrOp (mkHeader op a n) = op := by
  apply BitVec.eq_of_getLsbD_eq
  intro i hi
  rw [hdrOp, BitVec.getLsbD_extractLsb', mkHeader, BitVec.getLsbD_append, BitVec.getLsbD_append]
  simp [hi, show ¬ 24 + i < 16 by omega, show ¬ 24 + i - 16 < 8 by omega, show 24 + i - 16 - 8 = i by omega]

theorem hdrA_mkHeader (op a : BitVec 8) (n : Nat) : hdrA (mkHeader op a n) = a := by
  apply BitVec.eq_of_getLsbD_eq
  intro i hi
  rw [hdrA, BitVec.getLsbD_extractLsb', mkHeader, BitVec.getLsbD_append, BitVec.getLsbD_append]
  simp [hi]

theorem hdrN_mkHeader (op a : BitVec 8) (n : Nat) (h : n < 65536) : hdrN (mkHeader op a n) = n := by
  have e : (mkHeader op a n).extractLsb' 0 16 = BitVec.ofNat 16 n := by
    apply BitVec.eq_of_getLsbD_eq
    intro i hi
    rw [BitVec.getLsbD_extractLsb', mkHeader, BitVec.getLsbD_append]
    simp [hi]
  simp only [hdrN, e, BitVec.toNat_ofNat]
  exact Nat.mod_eq_of_lt h

/-- A packet's first word is a header that says what follows it. -/
def Framing.Statement (i : Instr) : Prop :=
  i.wellFormed = true →
    ∃ h, encode i = h :: encodeOperands i ∧ hdrOp h = opCode (opOfInstr i) ∧ hdrA h = encodeA i ∧
      hdrN h = (encodeOperands i).length

/-- It is enough that the header can count the operands. -/
theorem framing_of_length (i : Instr) (h : i.wellFormed = true → (encodeOperands i).length < 65536) :
    Framing.Statement i := fun w =>
  ⟨_, rfl, hdrOp_mkHeader _ _ _, hdrA_mkHeader _ _ _, hdrN_mkHeader _ _ _ (h w)⟩

theorem length_flatMap_encodeFilter (xs : List FilterParams) :
    (xs.flatMap encodeFilter).length = 3 * xs.length := by
  induction xs with
  | nil => rfl
  | cons x xs ih =>
    simp only [List.flatMap_cons, List.length_append, ih, encodeFilter, List.length_cons, List.length_nil]
    omega

theorem Framing.init (p : InitPacket) : Framing.Statement (.init p) := by
  apply framing_of_length
  intro h
  have h : p.filters.length = 11 := by simpa [Instr.wellFormed] using h
  simp only [encodeOperands, encodeLimiter, List.length_cons, List.length_append, length_flatMap_encodeFilter, h,
    List.length_nil]
  omega

theorem Framing.modf (index : BitVec 8) (p : FilterParams) : Framing.Statement (.modf index p) :=
  framing_of_length _ fun _ => by simp [encodeOperands, encodeFilter]

theorem Framing.modg (gain : V) : Framing.Statement (.modg gain) := framing_of_length _ fun _ => by simp [encodeOperands]

theorem Framing.rstf : Framing.Statement .rstf := framing_of_length _ fun _ => by simp [encodeOperands]

theorem Framing.setq (mode : BitVec 2) : Framing.Statement (.setq mode) := framing_of_length _ fun _ => by simp [encodeOperands]

theorem Framing.setx (enabled : Bool) (gain : V) : Framing.Statement (.setx enabled gain) :=
  framing_of_length _ fun _ => by simp [encodeOperands]

theorem Framing.setl (enabled : Bool) (detectorMode : DetectorMode) (p : LimiterParams) :
    Framing.Statement (.setl enabled detectorMode p) := framing_of_length _ fun _ => by simp [encodeOperands, encodeLimiter]

theorem Framing.setv (fps : V) : Framing.Statement (.setv fps) := framing_of_length _ fun _ => by simp [encodeOperands]

theorem length_of_wellFormed (p : AudioPacket) (h : p.wellFormed = true) : p.samples.length < 65536 := by
  simp only [AudioPacket.wellFormed, Bool.and_eq_true, decide_eq_true_eq] at h
  exact h.2

theorem Framing.proc (p : AudioPacket) : Framing.Statement (.proc p) := framing_of_length _ fun w => by
  simpa [encodeOperands] using length_of_wellFormed p w

theorem Framing.aout (p : AudioPacket) : Framing.Statement (.aout p) := framing_of_length _ fun w => by
  simpa [encodeOperands] using length_of_wellFormed p w

theorem Framing.tlm (p : TlmPacket) : Framing.Statement (.tlm p) := by
  apply framing_of_length
  intro h
  have h : p.data.length = Config.fftSize / 2 := by simpa [Instr.wellFormed] using h
  simp [encodeOperands, h, Config.fftSize]

end Sys2Proof.Laws
end

