-- ==== Sys2Proof/Laws/Pipeline.lean ====
section
/-! SUPPORT. What each shared operation of the audio step leaves unchanged (10_state R59), one lemma for each, so that
a proof about PROC does not unfold the stages. -/

namespace Sys2Proof.Machine

/-- `t` differs from `s` at most in what a frame may write (R59): the filter state, the limiter's runtime registers
and delay line, the exciter's synthesis state, ramp and generator, and the event history. -/
structure FrameOnly (s t : State) : Prop where
  rest : t = { s with fb := { s.fb with hist := t.fb.hist }, dyn := t.dyn, exc := t.exc, events := t.events }
  dyn : t.dyn = { s.dyn with g := t.dyn.g, ms := t.dyn.ms, wr := t.dyn.wr, minRed := t.dyn.minRed, dl := t.dyn.dl }
  exc : t.exc = { s.exc with ch := t.exc.ch, actGain := t.exc.actGain, rng := t.exc.rng }

theorem FrameOnly.refl (s : State) : FrameOnly s s := ⟨rfl, rfl, rfl⟩

theorem FrameOnly.trans {s t u : State} (h : FrameOnly s t) (k : FrameOnly t u) : FrameOnly s u := by
  obtain ⟨a, b, c⟩ := h
  obtain ⟨d, e, f⟩ := k
  refine ⟨?_, ?_, ?_⟩
  · rw [d, a]
  · rw [e, b]
  · rw [f, c]

theorem FrameOnly.par {s t : State} (h : FrameOnly s t) : t.par = s.par := by rw [h.rest]
theorem FrameOnly.sections {s t : State} (h : FrameOnly s t) : t.fb.sections = s.fb.sections := by rw [h.rest]
theorem FrameOnly.gain {s t : State} (h : FrameOnly s t) : t.gain = s.gain := by rw [h.rest]
theorem FrameOnly.spec {s t : State} (h : FrameOnly s t) : t.spec = s.spec := by rw [h.rest]
theorem FrameOnly.dynEnabled {s t : State} (h : FrameOnly s t) : t.dyn.enabled = s.dyn.enabled := by rw [h.dyn]
theorem FrameOnly.excEnabled {s t : State} (h : FrameOnly s t) : t.exc.enabled = s.exc.enabled := by rw [h.exc]

/-- A sample through the FilterBank changes filter state only. -/
theorem fbProcess_st (fb : FilterBank) (c : Chan) (t : Nat) (x : V) :
    (fbProcess fb c t x).st = { fb with hist := (fbProcess fb c t x).st.hist } := rfl

/-- A sample through the exciter changes synthesis state and the generator only. -/
theorem excProcess_st (e : Exciter) (c : Chan) (t : Nat) (x : V) :
    (excProcess e c t x).st = { e with ch := (excProcess e c t x).st.ch, rng := (excProcess e c t x).st.rng } := by
  unfold excProcess
  split <;> rfl

/-- A frame through the limiter changes its runtime registers and the delay line only. -/
theorem dynProcess_st (p : Params) (stereo : Bool) (t : Nat) (x : Stereo V) (d : Dynamics) :
    let o := (dynProcess p stereo t x d).st
    o = { d with g := o.g, ms := o.ms, wr := o.wr, minRed := o.minRed, dl := o.dl } := by
  unfold dynProcess detectLevel
  split <;> rfl

/-- The ramp changes `exc.actGain` only. -/
theorem excRamp_st (p : Params) (e : Exciter) : excRamp p e = { e with actGain := (excRamp p e).actGain } := by
  unfold excRamp
  split <;> rfl

/-- An exciter that agrees on the other registers differs in `ch`, `actGain` and `rng` only. -/
theorem exciter_of_agree {e f : Exciter}
    (h : f.enabled = e.enabled ∧ f.userGain = e.userGain ∧ f.active = e.active ∧ f.hold = e.hold) :
    f = { e with ch := f.ch, actGain := f.actGain, rng := f.rng } := by
  obtain ⟨h1, h2, h3, h4⟩ := h
  cases f
  simp only at h1 h2 h3 h4
  simp only [h1, h2, h3, h4]

theorem channelStep_frameOnly (c : Chan) (t : Nat) (x : V) (s : State) : FrameOnly s (channelStep c t x s).2 := by
  refine ⟨rfl, rfl, exciter_of_agree ?_⟩
  have h := excProcess_st s.exc c t (sanV (fMul (fbProcess s.fb c t (sanV x)).out s.gain))
  have h1 := congrArg Exciter.enabled h
  have h2 := congrArg Exciter.userGain h
  have h3 := congrArg Exciter.active h
  have h4 := congrArg Exciter.hold h
  exact ⟨h1, h2, h3, h4⟩

theorem channels_frameOnly (stereo : Bool) (t : Nat) (x : Stereo V) (s : State) :
    FrameOnly s (channels stereo t x s).2 := by
  unfold channels
  cases stereo
  · exact channelStep_frameOnly _ _ _ _
  · exact (channelStep_frameOnly _ _ _ _).trans (channelStep_frameOnly _ _ _ _)

theorem limiter_frameOnly (stereo : Bool) (t : Nat) (x : Stereo V) (s : State) :
    FrameOnly s (limiter stereo t x s).2 := by
  unfold limiter
  split
  · refine ⟨rfl, ?_, rfl⟩
    exact dynProcess_st _ _ _ _ _
  · exact .refl s

/-- The bypass (41_dynamics R186): nothing of the limiter is read or written. -/
theorem limiter_bypass (stereo : Bool) (t : Nat) (x : Stereo V) (s : State) (h : s.dyn.enabled = false) :
    limiter stereo t x s = (x, s) := by simp [limiter, h]

theorem frame_frameOnly (stereo : Bool) (t : Nat) (x : Stereo V) (s : State) : FrameOnly s (frame stereo t x s).2 := by
  have h := excRamp_st s.par s.exc
  have h1 := congrArg Exciter.enabled h
  have h2 := congrArg Exciter.userGain h
  have h3 := congrArg Exciter.active h
  have h4 := congrArg Exciter.hold h
  have r : FrameOnly s { s with exc := excRamp s.par s.exc } := ⟨rfl, rfl, exciter_of_agree ⟨h1, h2, h3, h4⟩⟩
  exact (r.trans (channels_frameOnly _ _ _ _)).trans (limiter_frameOnly _ _ _ _)

theorem frames_frameOnly (stereo : Bool) (t : Nat) (xs : List (Stereo V)) (s : State) :
    FrameOnly s (frames stereo t xs s).2 := by
  induction xs generalizing t s with
  | nil => exact .refl s
  | cons x xs ih => exact (frame_frameOnly _ _ _ _).trans (ih _ _)

/-- One frame out for each frame in (44_orchestrator R273). -/
theorem frames_length (stereo : Bool) (t : Nat) (xs : List (Stereo V)) (s : State) :
    (frames stereo t xs s).1.length = xs.length := by
  induction xs generalizing t s with
  | nil => rfl
  | cons x xs ih => exact congrArg (· + 1) (ih _ _)

/-- The detection changes the classification and the hold only (42_exciter R218). -/
theorem excDetect_st (p : Params) (w : Array Cplx) (elapsed : Nat) (e : Exciter) :
    excDetect p w elapsed e = { e with active := (excDetect p w elapsed e).active, hold := (excDetect p w elapsed e).hold } := by
  unfold excDetect holdUpdate
  split <;> rfl

/-- The cadence keeps everything but the counter, or emits with the counter cleared (43_spectrum R243). -/
theorem specTick_cases (s : State) :
    let acc := s.spec.acc + BitVec.ofNat 32 s.par.block
    (tickFires acc s.spec.fpr = false ∧ specTick s = { s with spec := { s.spec with acc := acc } }) ∨
    (tickFires acc s.spec.fpr = true ∧ specTick s = emit acc.toNat { s with spec := { s.spec with acc := 0 } }) := by
  intro acc
  unfold specTick
  cases h : tickFires acc s.spec.fpr with
  | false => exact .inl ⟨rfl, if_neg (by simp [acc, h])⟩
  | true => exact .inr ⟨rfl, if_pos h⟩

end Sys2Proof.Machine
end

