-- ==== Sys2Proof/Laws/State.lean ====
section
/-! SUPPORT. The field of each state update, one lemma per field, for `simp`: no later proof unfolds a record. -/

namespace Sys2Proof.Machine

/-! ### raise -/

@[simp] theorem raise_par (s : State) (es : List Event) : (raise s es).par = s.par := rfl
@[simp] theorem raise_cq (s : State) (es : List Event) : (raise s es).cq = s.cq := rfl
@[simp] theorem raise_fb (s : State) (es : List Event) : (raise s es).fb = s.fb := rfl
@[simp] theorem raise_gain (s : State) (es : List Event) : (raise s es).gain = s.gain := rfl
@[simp] theorem raise_dyn (s : State) (es : List Event) : (raise s es).dyn = s.dyn := rfl
@[simp] theorem raise_exc (s : State) (es : List Event) : (raise s es).exc = s.exc := rfl
@[simp] theorem raise_spec (s : State) (es : List Event) : (raise s es).spec = s.spec := rfl
@[simp] theorem raise_tlm (s : State) (es : List Event) : (raise s es).tlm = s.tlm := rfl
@[simp] theorem raise_ctrlBuf (s : State) (es : List Event) : (raise s es).ctrlBuf = s.ctrlBuf := rfl
@[simp] theorem raise_ainBuf (s : State) (es : List Event) : (raise s es).ainBuf = s.ainBuf := rfl
@[simp] theorem raise_aout (s : State) (es : List Event) : (raise s es).aout = s.aout := rfl
@[simp] theorem raise_tlmo (s : State) (es : List Event) : (raise s es).tlmo = s.tlmo := rfl
@[simp] theorem raise_aoutSent (s : State) (es : List Event) : (raise s es).aoutSent = s.aoutSent := rfl
@[simp] theorem raise_tlmSent (s : State) (es : List Event) : (raise s es).tlmSent = s.tlmSent := rfl
@[simp] theorem raise_events (s : State) (es : List Event) : (raise s es).events = s.events ++ es := rfl
@[simp] theorem raise_host (s : State) (es : List Event) : (raise s es).host = s.host := rfl

/-! ### ignore -/

@[simp] theorem ignore_par (s : State) (r : IgnoreReason) : (ignore s r).par = s.par := rfl
@[simp] theorem ignore_cq (s : State) (r : IgnoreReason) : (ignore s r).cq = s.cq := rfl
@[simp] theorem ignore_fb (s : State) (r : IgnoreReason) : (ignore s r).fb = s.fb := rfl
@[simp] theorem ignore_gain (s : State) (r : IgnoreReason) : (ignore s r).gain = s.gain := rfl
@[simp] theorem ignore_dyn (s : State) (r : IgnoreReason) : (ignore s r).dyn = s.dyn := rfl
@[simp] theorem ignore_exc (s : State) (r : IgnoreReason) : (ignore s r).exc = s.exc := rfl
@[simp] theorem ignore_spec (s : State) (r : IgnoreReason) : (ignore s r).spec = s.spec := rfl
@[simp] theorem ignore_tlm (s : State) (r : IgnoreReason) : (ignore s r).tlm = s.tlm := rfl
@[simp] theorem ignore_ctrlBuf (s : State) (r : IgnoreReason) : (ignore s r).ctrlBuf = s.ctrlBuf := rfl
@[simp] theorem ignore_ainBuf (s : State) (r : IgnoreReason) : (ignore s r).ainBuf = s.ainBuf := rfl
@[simp] theorem ignore_aout (s : State) (r : IgnoreReason) : (ignore s r).aout = s.aout := rfl
@[simp] theorem ignore_tlmo (s : State) (r : IgnoreReason) : (ignore s r).tlmo = s.tlmo := rfl
@[simp] theorem ignore_aoutSent (s : State) (r : IgnoreReason) : (ignore s r).aoutSent = s.aoutSent := rfl
@[simp] theorem ignore_tlmSent (s : State) (r : IgnoreReason) : (ignore s r).tlmSent = s.tlmSent := rfl
@[simp] theorem ignore_events (s : State) (r : IgnoreReason) : (ignore s r).events = s.events ++ [.cmdIgnored r] := rfl
@[simp] theorem ignore_host (s : State) (r : IgnoreReason) : (ignore s r).host = s.host := rfl

/-! ### takeAinWord -/

@[simp] theorem takeAinWord_par (s : State) (w : Word) : (takeAinWord s w).par = s.par := rfl
@[simp] theorem takeAinWord_cq (s : State) (w : Word) : (takeAinWord s w).cq = s.cq := rfl
@[simp] theorem takeAinWord_fb (s : State) (w : Word) : (takeAinWord s w).fb = s.fb := rfl
@[simp] theorem takeAinWord_gain (s : State) (w : Word) : (takeAinWord s w).gain = s.gain := rfl
@[simp] theorem takeAinWord_dyn (s : State) (w : Word) : (takeAinWord s w).dyn = s.dyn := rfl
@[simp] theorem takeAinWord_exc (s : State) (w : Word) : (takeAinWord s w).exc = s.exc := rfl
@[simp] theorem takeAinWord_spec (s : State) (w : Word) : (takeAinWord s w).spec = s.spec := rfl
@[simp] theorem takeAinWord_tlm (s : State) (w : Word) : (takeAinWord s w).tlm = s.tlm := rfl
@[simp] theorem takeAinWord_ctrlBuf (s : State) (w : Word) : (takeAinWord s w).ctrlBuf = s.ctrlBuf := rfl
@[simp] theorem takeAinWord_ainBuf (s : State) (w : Word) : (takeAinWord s w).ainBuf = s.ainBuf ++ [w] := rfl
@[simp] theorem takeAinWord_aout (s : State) (w : Word) : (takeAinWord s w).aout = s.aout := rfl
@[simp] theorem takeAinWord_tlmo (s : State) (w : Word) : (takeAinWord s w).tlmo = s.tlmo := rfl
@[simp] theorem takeAinWord_aoutSent (s : State) (w : Word) : (takeAinWord s w).aoutSent = s.aoutSent := rfl
@[simp] theorem takeAinWord_tlmSent (s : State) (w : Word) : (takeAinWord s w).tlmSent = s.tlmSent := rfl
@[simp] theorem takeAinWord_events (s : State) (w : Word) : (takeAinWord s w).events = s.events := rfl
@[simp] theorem takeAinWord_host (s : State) (w : Word) : (takeAinWord s w).host = s.host := rfl

/-! ### deliverAout -/

@[simp] theorem deliverAout_par (s : State) (p : AudioPacket) : (deliverAout s p).par = s.par := rfl
@[simp] theorem deliverAout_cq (s : State) (p : AudioPacket) : (deliverAout s p).cq = s.cq := rfl
@[simp] theorem deliverAout_fb (s : State) (p : AudioPacket) : (deliverAout s p).fb = s.fb := rfl
@[simp] theorem deliverAout_gain (s : State) (p : AudioPacket) : (deliverAout s p).gain = s.gain := rfl
@[simp] theorem deliverAout_dyn (s : State) (p : AudioPacket) : (deliverAout s p).dyn = s.dyn := rfl
@[simp] theorem deliverAout_exc (s : State) (p : AudioPacket) : (deliverAout s p).exc = s.exc := rfl
@[simp] theorem deliverAout_spec (s : State) (p : AudioPacket) : (deliverAout s p).spec = s.spec := rfl
@[simp] theorem deliverAout_tlm (s : State) (p : AudioPacket) : (deliverAout s p).tlm = s.tlm := rfl
@[simp] theorem deliverAout_ctrlBuf (s : State) (p : AudioPacket) : (deliverAout s p).ctrlBuf = s.ctrlBuf := rfl
@[simp] theorem deliverAout_ainBuf (s : State) (p : AudioPacket) : (deliverAout s p).ainBuf = s.ainBuf := rfl
@[simp] theorem deliverAout_aout (s : State) (p : AudioPacket) : (deliverAout s p).aout = some p := rfl
@[simp] theorem deliverAout_tlmo (s : State) (p : AudioPacket) : (deliverAout s p).tlmo = s.tlmo := rfl
@[simp] theorem deliverAout_aoutSent (s : State) (p : AudioPacket) : (deliverAout s p).aoutSent = s.aoutSent := rfl
@[simp] theorem deliverAout_tlmSent (s : State) (p : AudioPacket) : (deliverAout s p).tlmSent = s.tlmSent := rfl
@[simp] theorem deliverAout_events (s : State) (p : AudioPacket) : (deliverAout s p).events = s.events := rfl
@[simp] theorem deliverAout_host (s : State) (p : AudioPacket) : (deliverAout s p).host = s.host := rfl

/-! ### publishTlm -/

@[simp] theorem publishTlm_par (s : State) (p : TlmPacket) : (publishTlm s p).par = s.par := rfl
@[simp] theorem publishTlm_cq (s : State) (p : TlmPacket) : (publishTlm s p).cq = s.cq := rfl
@[simp] theorem publishTlm_fb (s : State) (p : TlmPacket) : (publishTlm s p).fb = s.fb := rfl
@[simp] theorem publishTlm_gain (s : State) (p : TlmPacket) : (publishTlm s p).gain = s.gain := rfl
@[simp] theorem publishTlm_dyn (s : State) (p : TlmPacket) : (publishTlm s p).dyn = s.dyn := rfl
@[simp] theorem publishTlm_exc (s : State) (p : TlmPacket) : (publishTlm s p).exc = s.exc := rfl
@[simp] theorem publishTlm_spec (s : State) (p : TlmPacket) : (publishTlm s p).spec = s.spec := rfl
@[simp] theorem publishTlm_tlm (s : State) (p : TlmPacket) : (publishTlm s p).tlm = s.tlm := rfl
@[simp] theorem publishTlm_ctrlBuf (s : State) (p : TlmPacket) : (publishTlm s p).ctrlBuf = s.ctrlBuf := rfl
@[simp] theorem publishTlm_ainBuf (s : State) (p : TlmPacket) : (publishTlm s p).ainBuf = s.ainBuf := rfl
@[simp] theorem publishTlm_aout (s : State) (p : TlmPacket) : (publishTlm s p).aout = s.aout := rfl
@[simp] theorem publishTlm_tlmo (s : State) (p : TlmPacket) : (publishTlm s p).tlmo = some p := rfl
@[simp] theorem publishTlm_aoutSent (s : State) (p : TlmPacket) : (publishTlm s p).aoutSent = s.aoutSent := rfl
@[simp] theorem publishTlm_tlmSent (s : State) (p : TlmPacket) : (publishTlm s p).tlmSent = s.tlmSent := rfl
@[simp] theorem publishTlm_events (s : State) (p : TlmPacket) : (publishTlm s p).events = s.events := rfl
@[simp] theorem publishTlm_host (s : State) (p : TlmPacket) : (publishTlm s p).host = s.host := rfl

/-! ### handAout -/

@[simp] theorem handAout_par (s : State) (p : AudioPacket) : (handAout s p).par = s.par := rfl
@[simp] theorem handAout_cq (s : State) (p : AudioPacket) : (handAout s p).cq = s.cq := rfl
@[simp] theorem handAout_fb (s : State) (p : AudioPacket) : (handAout s p).fb = s.fb := rfl
@[simp] theorem handAout_gain (s : State) (p : AudioPacket) : (handAout s p).gain = s.gain := rfl
@[simp] theorem handAout_dyn (s : State) (p : AudioPacket) : (handAout s p).dyn = s.dyn := rfl
@[simp] theorem handAout_exc (s : State) (p : AudioPacket) : (handAout s p).exc = s.exc := rfl
@[simp] theorem handAout_spec (s : State) (p : AudioPacket) : (handAout s p).spec = s.spec := rfl
@[simp] theorem handAout_tlm (s : State) (p : AudioPacket) : (handAout s p).tlm = s.tlm := rfl
@[simp] theorem handAout_ctrlBuf (s : State) (p : AudioPacket) : (handAout s p).ctrlBuf = s.ctrlBuf := rfl
@[simp] theorem handAout_ainBuf (s : State) (p : AudioPacket) : (handAout s p).ainBuf = s.ainBuf := rfl
@[simp] theorem handAout_aout (s : State) (p : AudioPacket) : (handAout s p).aout = none := rfl
@[simp] theorem handAout_tlmo (s : State) (p : AudioPacket) : (handAout s p).tlmo = s.tlmo := rfl
@[simp] theorem handAout_aoutSent (s : State) (p : AudioPacket) : (handAout s p).aoutSent = s.aoutSent ++ encode (.aout p) := rfl
@[simp] theorem handAout_tlmSent (s : State) (p : AudioPacket) : (handAout s p).tlmSent = s.tlmSent := rfl
@[simp] theorem handAout_events (s : State) (p : AudioPacket) : (handAout s p).events = s.events := rfl
@[simp] theorem handAout_host (s : State) (p : AudioPacket) : (handAout s p).host = s.host := rfl

/-! ### handTlm -/

@[simp] theorem handTlm_par (s : State) (p : TlmPacket) : (handTlm s p).par = s.par := rfl
@[simp] theorem handTlm_cq (s : State) (p : TlmPacket) : (handTlm s p).cq = s.cq := rfl
@[simp] theorem handTlm_fb (s : State) (p : TlmPacket) : (handTlm s p).fb = s.fb := rfl
@[simp] theorem handTlm_gain (s : State) (p : TlmPacket) : (handTlm s p).gain = s.gain := rfl
@[simp] theorem handTlm_dyn (s : State) (p : TlmPacket) : (handTlm s p).dyn = s.dyn := rfl
@[simp] theorem handTlm_exc (s : State) (p : TlmPacket) : (handTlm s p).exc = s.exc := rfl
@[simp] theorem handTlm_spec (s : State) (p : TlmPacket) : (handTlm s p).spec = s.spec := rfl
@[simp] theorem handTlm_tlm (s : State) (p : TlmPacket) : (handTlm s p).tlm = s.tlm := rfl
@[simp] theorem handTlm_ctrlBuf (s : State) (p : TlmPacket) : (handTlm s p).ctrlBuf = s.ctrlBuf := rfl
@[simp] theorem handTlm_ainBuf (s : State) (p : TlmPacket) : (handTlm s p).ainBuf = s.ainBuf := rfl
@[simp] theorem handTlm_aout (s : State) (p : TlmPacket) : (handTlm s p).aout = s.aout := rfl
@[simp] theorem handTlm_tlmo (s : State) (p : TlmPacket) : (handTlm s p).tlmo = none := rfl
@[simp] theorem handTlm_aoutSent (s : State) (p : TlmPacket) : (handTlm s p).aoutSent = s.aoutSent := rfl
@[simp] theorem handTlm_tlmSent (s : State) (p : TlmPacket) : (handTlm s p).tlmSent = s.tlmSent ++ encode (.tlm p) := rfl
@[simp] theorem handTlm_events (s : State) (p : TlmPacket) : (handTlm s p).events = s.events := rfl
@[simp] theorem handTlm_host (s : State) (p : TlmPacket) : (handTlm s p).host = s.host := rfl

/-! ### Reset -/

@[simp] theorem resetWith_par (p : Params) : (State.resetWith p).par = p := rfl
@[simp] theorem resetWith_cq (p : Params) : (State.resetWith p).cq = [] := rfl
@[simp] theorem resetWith_fb (p : Params) : (State.resetWith p).fb = fbReset p := rfl
@[simp] theorem resetWith_gain (p : Params) : (State.resetWith p).gain = one := rfl
@[simp] theorem resetWith_dyn (p : Params) : (State.resetWith p).dyn = dynReset p := rfl
@[simp] theorem resetWith_exc (p : Params) : (State.resetWith p).exc = excReset := rfl
@[simp] theorem resetWith_spec (p : Params) : (State.resetWith p).spec = specReset p := rfl
@[simp] theorem resetWith_tlm (p : Params) : (State.resetWith p).tlm = tlmReset := rfl
@[simp] theorem resetWith_ctrlBuf (p : Params) : (State.resetWith p).ctrlBuf = [] := rfl
@[simp] theorem resetWith_ainBuf (p : Params) : (State.resetWith p).ainBuf = [] := rfl
@[simp] theorem resetWith_aout (p : Params) : (State.resetWith p).aout = none := rfl
@[simp] theorem resetWith_tlmo (p : Params) : (State.resetWith p).tlmo = none := rfl
@[simp] theorem resetWith_aoutSent (p : Params) : (State.resetWith p).aoutSent = [] := rfl
@[simp] theorem resetWith_tlmSent (p : Params) : (State.resetWith p).tlmSent = [] := rfl
@[simp] theorem resetWith_events (p : Params) : (State.resetWith p).events = [] := rfl
@[simp] theorem resetWith_host (p : Params) : (State.resetWith p).host = [] := rfl

@[simp] theorem resetBlock_par (s : State) (p : Params) : (resetBlock s p).par = p := rfl
@[simp] theorem resetBlock_cq (s : State) (p : Params) : (resetBlock s p).cq = [] := rfl
@[simp] theorem resetBlock_fb (s : State) (p : Params) : (resetBlock s p).fb = fbReset p := rfl
@[simp] theorem resetBlock_gain (s : State) (p : Params) : (resetBlock s p).gain = one := rfl
@[simp] theorem resetBlock_dyn (s : State) (p : Params) : (resetBlock s p).dyn = dynReset p := rfl
@[simp] theorem resetBlock_exc (s : State) (p : Params) : (resetBlock s p).exc = excReset := rfl
@[simp] theorem resetBlock_spec (s : State) (p : Params) : (resetBlock s p).spec = specReset p := rfl
@[simp] theorem resetBlock_tlm (s : State) (p : Params) : (resetBlock s p).tlm = tlmReset := rfl
@[simp] theorem resetBlock_ctrlBuf (s : State) (p : Params) : (resetBlock s p).ctrlBuf = [] := rfl
@[simp] theorem resetBlock_ainBuf (s : State) (p : Params) : (resetBlock s p).ainBuf = [] := rfl
@[simp] theorem resetBlock_aout (s : State) (p : Params) : (resetBlock s p).aout = none := rfl
@[simp] theorem resetBlock_tlmo (s : State) (p : Params) : (resetBlock s p).tlmo = none := rfl
@[simp] theorem resetBlock_aoutSent (s : State) (p : Params) : (resetBlock s p).aoutSent = s.aoutSent := rfl
@[simp] theorem resetBlock_tlmSent (s : State) (p : Params) : (resetBlock s p).tlmSent = s.tlmSent := rfl
@[simp] theorem resetBlock_events (s : State) (p : Params) : (resetBlock s p).events = [] := rfl
@[simp] theorem resetBlock_host (s : State) (p : Params) : (resetBlock s p).host = s.host := rfl

/-! ### Channels -/

@[simp] theorem chGet_c0 {α : Type} (x : Stereo α) : chGet x .c0 = x.ch0 := rfl
@[simp] theorem chGet_c1 {α : Type} (x : Stereo α) : chGet x .c1 = x.ch1 := rfl
@[simp] theorem chSet_c0_ch0 {α : Type} (x : Stereo α) (v : α) : (chSet x .c0 v).ch0 = v := rfl
@[simp] theorem chSet_c0_ch1 {α : Type} (x : Stereo α) (v : α) : (chSet x .c0 v).ch1 = x.ch1 := rfl
@[simp] theorem chSet_c1_ch0 {α : Type} (x : Stereo α) (v : α) : (chSet x .c1 v).ch0 = x.ch0 := rfl
@[simp] theorem chSet_c1_ch1 {α : Type} (x : Stereo α) (v : α) : (chSet x .c1 v).ch1 = v := rfl

/-- A channel written is the channel read back. -/
@[simp] theorem chGet_chSet {α : Type} (x : Stereo α) (c : Chan) (v : α) : chGet (chSet x c v) c = v := by
  cases c <;> rfl

end Sys2Proof.Machine
end

