-- ==== Sys2Proof/Tests/Slice0.lean ====
section
/-! SUPPORT. The model's own tests. Each expected value is the spec's: a row of 95_test_vectors or a sentence of a
rule, named in the test's comment; a value the spec marks as coming through an elementary function is used as an
input only. The second half shows, for each statement of Certificates/Slice0/Obligations that has hypotheses, a state
and operands that meet them. -/

open Sys2Proof Sys2Proof.Machine Sys2Proof.Claims

namespace Sys2Proof.Tests

set_option Elab.async false

/-! ### Helpers -/

/-- A section whose row is the identity. -/
def unitSection : Section := { f := 0x447A0000, g := posZero, q := one, row := ⟨one, posZero, posZero, posZero, posZero⟩ }

/-- The state after reset with identity rows in place of the rows that go through `sin` and `cos`. -/
def quiet (block depth : Nat) : State :=
  let s := State.resetWith ⟨48000, block, depth⟩
  { s with fb := { s.fb with sections := Vector.replicate Config.nBands unitSection } }

/-- What a property says of the state after a packet. -/
def afterHolds (i : Instr) (s : State) (p : State → Bool) : Bool :=
  match exec i s with
  | .next t => p t
  | .fault _ => false
  | .refused _ => false

/-- What a property says of the state after `k` steps. -/
def stepsHold (k : Nat) (s : State) (p : State → Bool) : Bool :=
  match Sys2Proof.core.run k s with
  | .next t => p t
  | .fault _ => false
  | .refused _ => false

/-- The words at port AOUT. -/
def aoutWords (s : State) : List Word :=
  match s.aout with
  | none => []
  | some p => encode (.aout p)

def filter0 : FilterParams := ⟨0x447A0000, 0x40C00000, 0x3F800000⟩

/-- The limiter operands of V1: attack 0.0, threshold 0.5, knee 0.0, lookahead 0.0, RMS window 10.0. -/
def limiterV1 : LimiterParams := ⟨0, 0x3F000000, 0, 0, 0x41200000⟩

/-- Program P1's configuration. -/
def initP1 : InitPacket :=
  { qualityMode := 1, sbrEnabled := true, limiterEnabled := true, detectorMode := .peak, gain := 0x3F000000
    filters := [⟨0x42000000, 0, one⟩, ⟨0x42800000, 0, one⟩, ⟨0x42FA0000, 0, one⟩, ⟨0x437A0000, 0, one⟩,
      ⟨0x43FA0000, 0, one⟩, ⟨0x447A0000, 0x40C00000, one⟩, ⟨0x44FA0000, 0, one⟩, ⟨0x457A0000, 0, one⟩,
      ⟨0x45FA0000, 0, one⟩, ⟨0x463B8000, 0, one⟩, ⟨0x467A0000, 0, one⟩]
    sbrGain := one, limiter := ⟨0, 0x3F000000, 0x40C00000, 0, 0x41200000⟩, fps := 0x42700000 }

/-- The 42 words of program P1 (95_test_vectors section 3). -/
def wordsP1 : List Word :=
  [0x010D0029, 0x3F000000, 0x42000000, 0, 0x3F800000, 0x42800000, 0, 0x3F800000, 0x42FA0000, 0, 0x3F800000,
   0x437A0000, 0, 0x3F800000, 0x43FA0000, 0, 0x3F800000, 0x447A0000, 0x40C00000, 0x3F800000, 0x44FA0000, 0,
   0x3F800000, 0x457A0000, 0, 0x3F800000, 0x45FA0000, 0, 0x3F800000, 0x463B8000, 0, 0x3F800000, 0x467A0000, 0,
   0x3F800000, 0x3F800000, 0x00000000, 0x3F000000, 0x40C00000, 0x00000000, 0x41200000, 0x42700000]

/-- A TLM packet of `n` zero values. -/
def tlmOf (n : Nat) : TlmPacket := { sbrActive := true, seq := 1, red := posZero, data := List.replicate n posZero }

/-! ### WellFormed: a packet refused by each check -/

theorem test_wf_init : (Instr.init initP1).wellFormed = true := by decide +kernel
theorem test_wf_init_ten_filters : (Instr.init { initP1 with filters := initP1.filters.tail }).wellFormed = false := by
  decide +kernel
theorem test_wf_proc_stereo : (Instr.proc ⟨2, [one, one]⟩).wellFormed = true := by decide +kernel
theorem test_wf_proc_three_channels : (Instr.proc ⟨3, [one, one, one]⟩).wellFormed = false := by decide +kernel
theorem test_wf_proc_odd_length : (Instr.proc ⟨2, [one, one, one]⟩).wellFormed = false := by decide +kernel
theorem test_wf_aout_too_long : (Instr.aout ⟨1, List.replicate 65536 posZero⟩).wellFormed = false := by
  decide +kernel
theorem test_wf_tlm : (Instr.tlm (tlmOf 4096)).wellFormed = true := by decide +kernel
theorem test_wf_tlm_short : (Instr.tlm (tlmOf 4095)).wellFormed = false := by decide +kernel

/-! ### Decoding: words written out from R121 to R129 and 95_test_vectors 2.9 -/

theorem test_decode_init : decode wordsP1 = .ok (.init initP1, []) := by decide +kernel
theorem test_encode_init : encode (.init initP1) = wordsP1 := by decide +kernel
/-- R125, opcode_table.json: the words of the table, and R5: `F` is 2 to the `LOG2F`. -/
theorem test_match_and_mask :
    [Op.init, .modf, .modg, .rstf, .setq, .setx, .setl, .setv, .proc, .aout, .tlm].map (fun o => (opMatch o, opMask o)) =
    [(0x01000029, 0xFFE0FFFF), (0x02000003, 0xFF00FFFF), (0x03000001, 0xFFFFFFFF), (0x04000000, 0xFFFFFFFF),
      (0x05000000, 0xFFFCFFFF), (0x06000001, 0xFFFEFFFF), (0x07000005, 0xFFFCFFFF), (0x08000001, 0xFFFFFFFF),
      (0x10000000, 0xFF000000), (0x11000000, 0xFF000000), (0x20001002, 0xFFFEFFFF)] ∧
    Config.fftSize = 2 ^ Config.log2F := by decide +kernel
-- R134: MODF 5, 1000.0, 6.0, 1.0
theorem test_decode_modf : decode [0x02050003, 0x447A0000, 0x40C00000, 0x3F800000] = .ok (.modf 5 filter0, []) := by
  decide +kernel
theorem test_decode_modg : decode [0x03000001, 0x3F000000] = .ok (.modg 0x3F000000, []) := by decide +kernel
theorem test_decode_rstf : decode [0x04000000, 0x05020000] = .ok (.rstf, [0x05020000]) := by decide +kernel
theorem test_decode_setq : decode [0x05020000] = .ok (.setq 2, []) := by decide +kernel
theorem test_decode_setx : decode [0x06000001, 0x40000000] = .ok (.setx false 0x40000000, []) := by decide +kernel
-- a = 3: enabled, rms
theorem test_decode_setl : decode [0x07030005, 0x3BA3D70A, 0x3F63D70A, 0, 0x40A00000, 0x41200000] =
    .ok (.setl true .rms ⟨0x3BA3D70A, 0x3F63D70A, 0, 0x40A00000, 0x41200000⟩, []) := by decide +kernel
-- R134: SETL on, 0.0, 0.5, 0.0, 0.0, peak, 10.0
theorem test_encode_setl : encode (.setl true .peak limiterV1) = [0x07010005, 0, 0x3F000000, 0, 0, 0x41200000] := by
  decide +kernel
theorem test_decode_setv : decode [0x08000001, 0x41F00000] = .ok (.setv 0x41F00000, []) := by decide +kernel
-- P2's submission, and its answer
theorem test_decode_proc : decode [0x10020002, 0x3F800000, 0xBF000000] = .ok (.proc ⟨2, [0x3F800000, 0xBF000000]⟩, []) := by
  decide +kernel
theorem test_decode_aout : decode [0x11010001, 0x3F800000] = .ok (.aout ⟨1, [0x3F800000]⟩, []) := by decide +kernel
theorem test_decode_tlm_header : [0x20001002, 0x20011002, 0x20011001, 0x20021002].map headerRow =
    [.ok .tlm, .ok .tlm, .error (.badLength 0x20011001), .error (.reservedBits 0x20021002)] := by decide +kernel
theorem test_decode_tlm_fields : build .tlm 1 [1, 0, posZero, posZero] = some (.tlm (tlmOf 2)) := by decide +kernel

/-- 2.9: the ignored packets, and the header after each is found. -/
theorem test_decode_stream_of_ignored :
    (decodeStream [0x09000002, 0x11111111, 0x22222222, 0, 0x03000002, 0x3F000000, 0x3F000000, 0x04000001, 0,
      0x04010000, 0x05040000, 0x05030000, 0x03000001, 0x7FC00000, 0x03000001, 0xFF800000, 0x04000000, 0x03000001]) =
    ([.ignoreRaw 0x09000002 (.unknownOpcode 0x09000002), .ignoreRaw 0 (.unknownOpcode 0),
      .ignoreRaw 0x03000002 (.badLength 0x03000002), .ignoreRaw 0x04000001 (.badLength 0x04000001),
      .ignoreRaw 0x04010000 (.reservedBits 0x04010000), .ignoreRaw 0x05040000 (.reservedBits 0x05040000),
      .ignorePacket (.setq 3) (.badMode 3), .ignorePacket (.modg 0x7FC00000) (.nanOperand .modg 0),
      .ignorePacket (.modg 0xFF800000) (.nonFiniteGain .modg), .apply .rstf], [0x03000001]) := by decide +kernel
-- 2.9: a PROC header on CTRL is unknown; INIT with a[5] set is refused whole
theorem test_decode_ctrl_proc : decodeCtrl 0x10010001 [0] = .ignoreRaw 0x10010001 (.unknownOpcode 0x10010001) := by
  decide +kernel
theorem test_decode_ctrl_init_reserved :
    decodeCtrl 0x01200029 wordsP1.tail = .ignoreRaw 0x01200029 (.reservedBits 0x01200029) := by decide +kernel
-- 2.9: AIN with BLOCK = 128
theorem test_ain_refuses : [0x10030180, 0x10010100, 0x10000000, 0x11010080, 0x10010080, 0x10020100].map
    (fun h => ainStatus 128 [h]) = [.bad, .bad, .bad, .bad, .wait, .wait] := by decide +kernel
-- R100
theorem test_bytes_little_endian : wordsOfBytes [0x00, 0x00, 0x02, 0x05] = [0x05020000] := by decide +kernel
-- R134
theorem test_asm_setl : asm (.setl true .peak limiterV1) =
    some "SETL on, 0x00000000, 0x3F000000, 0x00000000, 0x00000000, peak, 0x41200000" := by decide +kernel

/-- R134's worked encodings, from the lines; P5's `SETQ 3`. -/
theorem test_assemble : ["MODF 5, 1000.0, 6.0, 1.0", "SETQ hifi", "SETL on, 0.0, 0.5, 0.0, 0.0, peak, 10.0", "RSTF",
      "MODG -1e-10", "SETX off, 0x40000000", "SETQ 3", "SETQ 4", "PROC 0x1, 0.5, -0.5"].map
      (fun l => (assemble l.toList).map encode) =
    [some [0x02050003, 0x447A0000, 0x40C00000, 0x3F800000], some [0x05020000],
      some [0x07010005, 0, 0x3F000000, 0, 0, 0x41200000], some [0x04000000], some [0x03000001, 0xAEDBE6FF],
      some [0x06000001, 0x40000000], some [0x05030000], none, some [0x10010002, 0x3F000000, 0xBF000000]] := by decide +kernel
theorem test_assemble_init : (assemble ("INIT 0.5, 32,0,1, 64,0,1, 125,0,1, 250,0,1, 500,0,1, 1000,6,1, 2000,0,1, "
      ++ "4000,0,1, 8000,0,1, 12000,0,1, 16000,0,1, quality, on, 1.0, on, 0.0, 0.5, 6.0, 0.0, peak, 10.0, 60.0").toList).map
      encode = some wordsP1 := by decide +kernel

/-! ### Numerics, literals, tables -/

/-- R19, R5 to R10: the parameters, as encodings of the nearest binary32 values to their decimals. -/
theorem test_literals :
    [Config.qScaleEfficient, Config.qScaleHifi, Config.qLo, Config.thMin, Config.relSec, Config.hpAlpha, Config.aFast,
      Config.aSlow, Config.trigK, Config.tailDecay, Config.nzAlpha, Config.nzMix, Config.makeupK, Config.rampUpSec,
      Config.rampDownSec, Config.rHigh, Config.rCut, Config.eps, Config.twoPi, twoPowNeg23] =
    [0x3F4CCCCD, 0x3F99999A, 0x3E4CCCCD, 0x3A800000, 0x3DCCCCCD, 0x3F19999A, 0x3F59999A, 0x3F7DF3B6, 0x3FCCCCCD,
      0x3F7FD8AE, 0x3E99999A, 0x3E19999A, 0x3F4CCCCD, 0x3D4CCCCD, 0x3F000000, 0x3A83126F, 0x3C23D70A, 0x2EDBE6FF,
      0x40C90FDB, 0x34000000] := by decide +kernel
theorem test_center : Config.center.toList = [0x42000000, 0x42800000, 0x42FA0000, 0x437A0000, 0x43FA0000, 0x447A0000,
    0x44FA0000, 0x457A0000, 0x45FA0000, 0x463B8000, 0x467A0000] := by decide +kernel
theorem test_whole_literals :
    [Config.qHi, Config.gLo, Config.gHi, Config.kneeMax, Config.ratio, Config.laMaxMs, Config.rmsMaxMs,
      Config.redFloorDb, Config.synK, Config.dbLo, Config.fpsMax, thousand, forty, twenty, hundred, fpsReset] =
    [0x41300000, 0xC1F00000, 0x41F00000, 0x42200000, 0x41A00000, 0x41A00000, 0x447A0000, 0xC2F00000, 0x41700000,
      0xC2C80000, 0x43700000, 0x447A0000, 0x42200000, 0x41A00000, 0x42C80000, 0x41F00000] := by decide +kernel
/-- R16: the same arithmetic in binary64 (IEEE 754's encodings): 0.1 + 0.2, the square root of 2, 1/3, and a binary32
word widened and sent back. -/
theorem test_binary64 :
    Fp.add binary64 (Fp.lit binary64 false 1 10) (Fp.lit binary64 false 2 10) = 0x3FD3333333333334 ∧
    Fp.sqrt binary64 (Fp.lit binary64 false 2 1) = 0x3FF6A09E667F3BCD ∧
    Fp.div binary64 (Fp.lit binary64 false 1 1) (Fp.lit binary64 false 3 1) = 0x3FD5555555555555 ∧
    Config.inBinary64.ofWord 0x3F800000 = (0x3FF0000000000000 : BitVec 64) ∧
    Config.inBinary64.toWord (Config.inBinary64.ofWord 0x3F63D70A) = 0x3F63D70A := by decide +kernel
-- 2.7: F_HI at FS = 48000; 2.4: the ramp steps and the follower constants; R8
theorem test_derived_parameters :
    [fHi Config.defaults, upStep Config.defaults, downStep Config.defaults, oneMinusFast, oneMinusSlow] =
      [0x46BB7E00, 0x39DA740E, 0x382EC33E, 0x3E199998, 0x3C031280] ∧ dMax Config.defaults = 960 := by decide +kernel
-- R17's special cases
theorem test_special_cases : isNaN (fSub posInf posInf) = true ∧ isNaN (fMul posZero negInf) = true ∧
    isNaN (fDiv posZero negZero) = true ∧ fDiv one negZero = negInf ∧ isNaN (fSqrt negOne) = true ∧
    fSqrt negZero = negZero ∧ fAdd negZero posZero = posZero ∧ fMul leastPos half = posZero := by decide +kernel
-- 2.7
theorem test_rom : [0, 1, 2, 3, 512, 1024, 2047, 2048, 2049, 3072, 4095].map (fun k => (cosRom k, sinRom k)) =
    [(0x3F800000, 0), (0x3F7FFFFB, 0x3A490FD9), (0x3F7FFFEC, 0x3AC90FD5), (0x3F7FFFD4, 0x3B16CBDB),
      (0x3F6C835E, 0x3EC3EF15), (0x3F3504F3, 0x3F3504F3), (0x3A490FD9, 0x3F7FFFFB), (0, 0x3F800000),
      (0xBA490FD9, 0x3F7FFFFB), (0xBF3504F3, 0x3F3504F3), (0xBF7FFFFB, 0x3A490FD9)] := by decide +kernel
theorem test_bitrev : [0, 1, 2, 3, 4, 5, 6, 341, 1000, 4095, 4096, 4097, 8190, 8191].map bitrevRom =
    [0, 4096, 2048, 6144, 1024, 5120, 3072, 5456, 760, 8190, 1, 4097, 4095, 8191] := by decide +kernel
theorem test_window : [0, 1, 2, 2048, 4095, 4096, 4097, 6144, 8191].map windowAt =
    [0, 0x34200000, 0x35200000, 0x3F000000, 0x3F7FFFFE, 0x3F800000, 0x3F7FFFFE, 0x3F000000, 0x34200000] := by
  decide +kernel
/-- 2.6: the 8-point instance after its last stage. -/
theorem test_fft8 : (fftRun 3 (fftLoad 3 fun n => toF (n + 1))).toList.map (fun z => (z.re, z.im)) =
    [(0x41A00000, 0), (0xC1200000, 0x407504F4), (0, 0xBF5413D0), (0, 0xBE2FB0C8), (0xB5800000, 0),
      (0, 0x3E2FB0C8), (0, 0x3F5413D0), (0xC1200000, 0xC07504F4)] := by decide +kernel
-- 2.5
theorem test_noise : [0x2545F491, 0xE124B63A, 0x8B9A74AB, 0x64E1B3AC].map (fun r => (rngNext r, noiseOf (rngNext r))) =
    [(0xE124B63A, 0x3F42496C), (0x8B9A74AB, 0x3DB9A740), (0x64E1B3AC, 0xBE58F268), (0x00174626, 0xBF7FD174)] := by
  decide +kernel

/-! ### Coefficients, from the intermediates of 2.1 -/

/-- Peaking, 1000 Hz, +6 dB. -/
theorem test_peaking : normalise (rawCoef .peaking ⟨0x3F7DCF55, 0x3D85A8A9, 0x3FB4CE08⟩) =
    ⟨0x3F85A041, 0xBFF299DE, 0x3F5E230C, 0xBFF299DE, 0x3F69638E⟩ := by decide +kernel
/-- Low shelf, 100 Hz, +6 dB. -/
theorem test_lowshelf : normalise (rawCoef .lowshelf ⟨0x3F7FFA63, 0x3C192F89, 0x3FB4CE08⟩) =
    ⟨0x3F806A7F, 0xBFFDFA8C, 0x3F7B2FD9, 0xBFFDFC83, 0x3F7C00EA⟩ := by decide +kernel
/-- High shelf, 16000 Hz, -6 dB. -/
theorem test_highshelf : normalise (rawCoef .highshelf ⟨0xBF000001, 0x3EDDB3D7, 0x3F353BEF⟩) =
    ⟨0x3F4C577F, 0x3F3559A2, 0x3EB2121B, 0x3EFB3436, 0x3EBA402B⟩ := by decide +kernel

/-! ### Control packets -/

-- P1: the registers of INIT that go through no elementary function
theorem test_exec_init : afterHolds (.init initP1) (quiet 4 4) (fun t =>
    t.gain == 0x3F000000 && t.fb.qmode == .quality && t.exc.enabled && t.exc.userGain == one && t.dyn.enabled
      && t.dyn.kneeDb == 0x40C00000 && t.dyn.kA == one && t.dyn.kR == 0x395A6868 && t.dyn.kRms == 0x3B083FDE
      && t.spec.fpr == 0x44480000) = true := by decide +kernel
-- 2.1: BadIndex and NanOperand
theorem test_exec_modf_bad_index : afterHolds (.modf 11 filter0) (quiet 4 4) (fun t =>
    t.events == [.cmdIgnored (.badIndex 11)]) = true := by decide +kernel
theorem test_exec_modf_clamps : clampFilter Config.defaults ⟨posInf, negInf, posZero⟩ =
    ⟨0x46BB7E00, 0xC1F00000, 0x3E4CCCCD⟩ := by decide +kernel
theorem test_exec_modg : afterHolds (.modg 0x3F000000) (quiet 4 4) (fun t => t.gain == 0x3F000000) = true := by
  decide +kernel
theorem test_exec_modg_infinite : afterHolds (.modg negInf) (quiet 4 4) (fun t =>
    t.gain == one && t.events == [.cmdIgnored (.nonFiniteGain .modg)]) = true := by decide +kernel
-- R151: the quality mode and the gain stay
theorem test_exec_rstf : afterHolds .rstf { quiet 4 4 with gain := half } (fun t =>
    t.fb.qmode == .quality && t.gain == half) = true := by decide +kernel
theorem test_exec_setq : afterHolds (.setq 2) (quiet 4 4) (fun t => t.fb.qmode == .hifi) = true := by decide +kernel
theorem test_exec_setq_three : afterHolds (.setq 3) (quiet 4 4) (fun t =>
    t.fb.qmode == .quality && t.events == [.cmdIgnored (.badMode 3)]) = true := by decide +kernel
-- X5
theorem test_exec_setx : afterHolds (.setx true two) (quiet 4 4) (fun t => t.exc.enabled && t.exc.userGain == two)
    = true := by decide +kernel
theorem test_exec_setx_nan : afterHolds (.setx true 0x7FC00000) (quiet 4 4) (fun t =>
    !t.exc.enabled && t.events == [.cmdIgnored (.nanOperand .setx 0)]) = true := by decide +kernel
-- 2.3: lookahead 0.05 ms gives 2 frames, 0.0105 ms gives 1, 25.0 ms is clamped to 960 frames; threshold 2.0 to 1.0
theorem test_exec_setl_clamps : afterHolds (.setl true .peak { limiterV1 with lookaheadMs := 0x41C80000, threshold := two })
    (quiet 4 4) (fun t => t.dyn.delay == 960 && t.dyn.lookaheadMs == 0x41A00000 && t.dyn.thresholdLinear == one
      && t.events == [.paramClamped .threshold two, .paramClamped .lookaheadMs 0x41C80000]) = true := by decide +kernel
theorem test_exec_setl_lookahead : [0x3C2A64C3, 0x3C2C0831, 0x3D4CCCCD, 0x3F800000, 0x40A00000].map (fun v =>
    (dynDerive Config.defaults { dynReset Config.defaults with lookaheadMs := v }).delay) = [0, 1, 2, 48, 240] := by
  decide +kernel
-- 2.8
theorem test_exec_setv : afterHolds (.setv 0x423C0000) (quiet 4 4) (fun t => t.spec.fpr == 0x447F51B4) = true := by
  decide +kernel
theorem test_exec_setv_clamps : afterHolds (.setv 0x447A0000) (quiet 4 4) (fun t =>
    t.spec.fps == 0x43700000 && t.spec.fpr == 0x43480000 && t.events == [.paramClamped .fps 0x447A0000]) = true := by
  decide +kernel

/-! ### The datapath -/

/-- 2.2: the impulse response of the 1000 Hz section, from its row. -/
theorem test_impulse_response :
    let row : CoefRow := ⟨0x3F85A041, 0xBFF299DE, 0x3F5E230C, 0xBFF299DE, 0x3F69638E⟩
    let fb : FilterBank := { fbReset Config.defaults with
      sections := (Vector.replicate Config.nBands unitSection).set 5 { unitSection with row := row } }
    let a := fbProcess fb .c0 0 one
    let b := fbProcess a.st .c0 1 posZero
    [a.out, b.out, (fbProcess b.st .c0 2 posZero).out] = [0x3F85A041, 0x3DAA9BE0, 0x3D974702] := by decide +kernel
-- T1
theorem test_target_gain :
    [(0x3E800000, 0x3F000000), (0x3F000000, 0x3F000000), (0x3F400000, 0x3F000000), (0x40200000, 0x3F000000),
      (0x42C80000, 0x3F000000), (0x3FC00000, 0x3F63D70A), (0x3F6147AE, 0x3F63D70A)].map
      (fun x : V × V => targetGain x.1 x.2) =
    [0x3F800000, 0x3F800000, 0x3F6EEEEF, 0x3EEEEEF0, 0x3C742138, 0x3F588E4D, 0x3F800000] := by decide +kernel
/-- P4: lookahead 2, the first block. -/
theorem test_exec_proc_limiter :
    afterHolds (.setl true .peak { limiterV1 with lookaheadMs := 0x3D4CCCCD }) (quiet 4 4) (fun s =>
      afterHolds (.proc ⟨1, [0x3E800000, 0x3E800000, 0x3FC00000, 0x3E800000]⟩) s (fun t =>
        aoutWords t == [0x11010004, 0, 0, 0x3E2AAAAB, 0x3E2AAF38] && t.dyn.wr == 4
          && t.dyn.minRed == 0x3F2AAAAB)) = true := by decide +kernel
/-- 2.10: the guard at the input. -/
theorem test_exec_proc_guard :
    afterHolds (.proc ⟨1, [0x3F800000, 0x7FC00000, 0x3F000000, 0x7F800000]⟩) (quiet 4 4) (fun t =>
      aoutWords t == [0x11010004, 0x3F800000, 0, 0x3F000000, 0]
        && t.events == [.sampleReplaced .input (some .c0) 1, .sampleReplaced .input (some .c0) 3]) = true := by
  decide +kernel
/-- X1, frames 1 and 2. -/
theorem test_exciter :
    let e : Exciter := { excReset with enabled := true, actGain := one }
    let a := excProcess e .c0 0 0x3F000000
    let b := excProcess a.st .c0 1 0xBE800000
    [a.out, (chGet a.st.ch .c0).tail, b.out, (chGet b.st.ch .c0).envSlow, b.st.rng] =
      [0x3F2A4058, 0x3D289760, 0xBD4C3BBF, 0x3B94CB12, 0x8B9A74AB] := by decide +kernel
/-- V4: the RMS detector's first frame. -/
theorem test_rms_detector :
    let d : Dynamics := { dynReset Config.defaults with detectorMode := .rms, thresholdLinear := half }
    (dynProcess Config.defaults false 0 ⟨0x3FC00000, posZero⟩ d).st.ms = 0x3B9947DA := by decide +kernel
-- R96, R98: the packet taken leaves the port
theorem test_exec_aout : afterHolds (.aout ⟨1, [one]⟩) { quiet 4 4 with aout := some ⟨1, [one]⟩ } (fun t =>
    t.aout == none && t.aoutSent == [0x11010001, 0x3F800000]) = true := by decide +kernel
theorem test_exec_tlm : afterHolds (.tlm (tlmOf 2)) { quiet 4 4 with tlmo := some (tlmOf 2) } (fun t =>
    t.tlmo == none && t.tlmSent.take 3 == [0x20010004, 1, 0]) = true := by decide +kernel
-- R242, R241: P2's window
theorem test_window_slides :
    let sb := specPush [(8191, one)] ([⟨one, half⟩, ⟨0xBF000000, half⟩].map (mixOf true))
    [8188, 8189, 8190, 8191].map (memRead sb) = [posZero, one, 0x3F400000, posZero] := by decide +kernel

/-! ### Witnesses: the hypotheses of each statement can be met -/

/-- A state whose queue is headed by MODG 0.5, in the host's silence. -/
def queued : State := { quiet 4 4 with cq := [.apply (.modg half)] }

/-- A block of four samples waiting on AIN. -/
def submitted : State := { quiet 4 4 with ainBuf := encode (.proc ⟨1, [one, posZero, posZero, posZero]⟩) }

def blockOf4 : AudioPacket := ⟨1, [one, posZero, posZero, posZero]⟩

theorem witness_DecodeOfEncode : (Instr.init initP1).wellFormed = true ∧ (Instr.proc ⟨2, [one, one]⟩).wellFormed = true ∧
    Instr.rstf.wellFormed = true := by decide +kernel
theorem witness_EncodeOfDecode : decode (wordsP1 ++ [0x04000000]) = .ok (.init initP1, [0x04000000]) := by
  decide +kernel
theorem witness_MaskAndMatchSelectTheRow : ∀ op, opIsCtrl op = true → (0x04010000 : Word) &&& opMask op ≠ opMatch op := by
  intro op
  cases op <;> decide +kernel
theorem witness_MalformedHeadersAreIgnored : (opOf (hdrOp 0x09000002)).any opIsCtrl = false ∧
    (opOf (hdrOp 0x10010001)).any opIsCtrl = false ∧
    opOf (hdrOp 0x04000001) = some .rstf ∧ opLength .rstf ≠ some (hdrN 0x04000001) ∧
    opOf (hdrOp 0x05040000) = some .setq ∧ opLength .setq = some (hdrN 0x05040000) ∧
    hdrA 0x05040000 &&& opReserved .setq ≠ 0 := by decide +kernel
theorem witness_ValidityOfMatchedPackets : Config.nBands ≤ (11 : BitVec 8).toNat ∧ (10 : BitVec 8).toNat < Config.nBands ∧
    isNaN 0x7FC00000 = true ∧ isNaN posInf = false ∧ isInf negInf = true ∧ isFinite one = true := by decide +kernel
theorem witness_PacketsAreFramedByTheirHeader : [0x11111111, (0x22222222 : Word)].length = hdrN 0x09000002 := by
  decide +kernel
theorem witness_OfferedWordsAppendOnePacket :
    let s : State := { quiet 4 1 with host := [.ctrl 0x03000001, .ctrl 0x3F000000, .wait] }
    strapsLegal s.par = true ∧ s.cq.length < s.par.cqDepth ∧ s.ctrlBuf = [] ∧
      [(0x3F000000 : Word)].length = hdrN 0x03000001 ∧
      s.host = ([0x03000001, 0x3F000000].map HostMove.ctrl) ++ [.wait] := by decide +kernel
theorem witness_OfferedWords_full :
    let s : State := { quiet 4 1 with cq := [.apply .rstf], host := [.ctrl 0x04000000] }
    strapsLegal s.par = true ∧ s.host = [.ctrl 0x04000000] ∧ s.cq = [.apply .rstf] ∧ s.par.cqDepth ≤ s.cq.length := by
  decide +kernel
theorem witness_StepRunsTheDecodedPacket :
    let s : State := { quiet 4 4 with cq := [decodeCtrl 0x03000001 [half]] }
    strapsLegal s.par = true ∧ s.cq = decodeCtrl 0x03000001 [half] :: [] ∧ s.host = [] ∧
      decode [0x03000001, half] = .ok (.modg half, []) ∧ invalidReason (.modg half) = none ∧
      decode [0x05030000] = .ok (.setq 3, []) ∧ invalidReason (.setq 3) = some (.badMode 3) ∧
      decodeCtrl 0x04010000 [] = .ignoreRaw 0x04010000 (.reservedBits 0x04010000) := by decide +kernel
theorem witness_StepRunsTheAudioPacket : strapsLegal submitted.par = true ∧ submitted.cq = [] ∧ submitted.aout = none ∧
    audioFits submitted.par.block blockOf4.nch blockOf4.samples.length = true ∧
    submitted.ainBuf = encode (.proc blockOf4) ∧ submitted.host = [] := by decide +kernel
theorem witness_StepHandsOverThePacketTaken :
    let s : State := { quiet 4 4 with aout := some blockOf4, tlmo := some (tlmOf 2), host := [.takeAout] }
    strapsLegal s.par = true ∧ s.aout = some blockOf4 ∧ s.tlmo = some (tlmOf 2) ∧ s.host = [.takeAout] := by
  decide +kernel
theorem witness_ResetSignalResetsTheBlock :
    ({ quiet 4 4 with host := [.reset ⟨44100, 64, 2⟩] } : State).host = .reset ⟨44100, 64, 2⟩ :: [] := rfl
theorem witness_IllegalInstanceHasNoStep : strapsLegal ⟨7999, 128, 16⟩ = false ∧ strapsLegal ⟨384001, 128, 16⟩ = false ∧
    strapsLegal ⟨48000, 0, 16⟩ = false ∧ strapsLegal ⟨48000, 8193, 16⟩ = false ∧ strapsLegal ⟨48000, 128, 0⟩ = false ∧
    strapsLegal ⟨8000, 1, 1⟩ = true ∧ strapsLegal ⟨384000, 8192, 1⟩ = true ∧
    (State.resetWith ⟨7999, 128, 16⟩).host = [] := by decide +kernel
theorem witness_IdleBlockKeepsAllState : strapsLegal (quiet 4 4).par = true ∧ (quiet 4 4).host = [] ∧ (quiet 4 4).cq = [] ∧
    ainStatus (quiet 4 4).par.block (quiet 4 4).ainBuf = .wait ∧ (some blockOf4 : Option AudioPacket) ≠ none := by
  decide +kernel
theorem witness_QueueDrainsBeforeTheBlock :
    let s : State := { submitted with cq := [.apply (.modg half), .ignorePacket (.setq 3) (.badMode 3)] }
    strapsLegal s.par = true ∧ s.host = [] ∧ s.cq.all isCtrlOutcome = true ∧ s.aout = none ∧
      audioFits s.par.block blockOf4.nch blockOf4.samples.length = true ∧ s.ainBuf = encode (.proc blockOf4) := by
  decide +kernel
theorem witness_AppendCommutesWithControlStep : ∃ t, queued.cq = .apply (.modg half) :: [] ∧
    isCtrlOutcome (.apply (.modg half)) = true ∧ blockMove queued = .next t := ⟨_, rfl, rfl, rfl⟩
theorem witness_StepKeepsStructure : ∃ t, structureOk queued = true ∧ step queued = .next t :=
  ⟨{ queued with cq := [], gain := half }, by decide +kernel, rfl⟩
theorem witness_StepKeepsValues : ∃ t, strapsLegal queued.par = true ∧ valuesOk queued = true ∧
    (fbOk queued.par queued.fb && isFinite queued.gain) = true ∧ (dynConfigOk queued.dyn && dynRunOk queued.dyn) = true ∧
    excOk queued.exc = true ∧ (specOk queued.par queued.spec && tlmOk queued.tlm) = true ∧ step queued = .next t ∧
    strapsLegal t.par = true :=
  ⟨{ queued with cq := [], gain := half }, by decide +kernel, by decide +kernel, by decide +kernel, by decide +kernel,
    by decide +kernel, by decide +kernel, rfl, by decide +kernel⟩
theorem witness_ResetValues : strapsLegal ⟨384000, 1, 16⟩ = true := by decide +kernel
theorem witness_ResetValuesAreInRange : strapsLegal Config.defaults = true ∧ strapsLegal ⟨8000, 8192, 1⟩ = true := by
  decide +kernel
theorem witness_ModgWritesTheGain : isFinite half = true ∧ isNaN 0x7FC00000 = true ∧ isInf posInf = true := by
  decide +kernel
theorem witness_ModfWritesOneSection : (10 : BitVec 8).toNat < Config.nBands ∧ Config.nBands ≤ (11 : BitVec 8).toNat ∧
    isNaN filter0.frequency = false ∧ isNaN filter0.gain = false ∧ isNaN filter0.q = false ∧
    isNaN 0x7FC00000 = true := by decide +kernel
theorem witness_ModfWritesOneSection_rows :
    rowOk ⟨0x3F85A041, 0xBFF299DE, 0x3F5E230C, 0xBFF299DE, 0x3F69638E⟩ = true ∧ rowOk ⟨one, posInf, one, one, one⟩ = false := by
  decide +kernel
theorem witness_SetxWritesTheOptions : isFinite two = true ∧ isNaN 0xFFC00000 = true ∧ isInf negInf = true := by
  decide +kernel
theorem witness_SetlWritesTheLimiterOptions : isNaN limiterV1.attack = false ∧ isNaN limiterV1.threshold = false ∧
    isNaN limiterV1.knee = false ∧ isNaN limiterV1.lookaheadMs = false ∧ isNaN limiterV1.rmsTimeMs = false ∧
    isNaN 0x7FC00000 = true := by decide +kernel
theorem witness_SetvWritesTheRate : isNaN posInf = false ∧ isNaN 0x7F800001 = true := by decide +kernel
theorem witness_InitIsItsSixteenParts : (Instr.init initP1).wellFormed = true := by decide +kernel
theorem witness_InitWithNothingValid :
    let n : V := 0x7FC00000
    let p : InitPacket :=
      { qualityMode := 3, sbrEnabled := true, limiterEnabled := true, detectorMode := .rms, gain := n
        filters := List.replicate 11 ⟨n, n, n⟩, sbrGain := n, limiter := ⟨n, n, n, n, n⟩, fps := n }
    (Instr.init p).wellFormed = true ∧ p.qualityMode = 3 ∧ (encodeOperands (.init p)).all isNaN = true := by
  decide +kernel
theorem witness_ControlPacketsKeepRuntimeState : opIsCtrl (opOfInstr (.setl true .peak limiterV1)) = true ∧
    (quiet 4 4).dyn.enabled = false := by decide +kernel
theorem witness_ChannelsDoNotInterfere :
    let fb : FilterBank := { (quiet 4 4).fb with hist := ⟨(quiet 4 4).fb.hist.ch0, Vector.replicate 11 ⟨one, one, one, one⟩⟩ }
    fb.sections = (quiet 4 4).fb.sections ∧ chGet fb.hist .c0 = chGet (quiet 4 4).fb.hist .c0 ∧
      fb ≠ (quiet 4 4).fb := by decide +kernel
theorem witness_ZeroGainRowsAreFlat :
    let m : CoefMid := ⟨0x3F7DCF55, 0x3D85A8A9, one⟩
    m.bigA = one ∧ fIn posZero 0x40800000 m.alpha = true ∧ fIn negOne one m.cw = true := by decide +kernel
theorem witness_FlatCascadeIsTheIdentity : (quiet 4 4).fb.sections.toList.all (fun s => flatRow s.row) = true ∧
    (chGet (quiet 4 4).fb.hist .c1).toList.all matched = true ∧ small negZero = true ∧ small half = true := by
  decide +kernel
theorem witness_NeutralBlockPassesAudio : neutral (quiet 4 4) = true ∧
    audioFits (quiet 4 4).par.block blockOf4.nch blockOf4.samples.length = true ∧
    blockOf4.samples.all small = true := by decide +kernel
theorem witness_TargetGainCurve : isFinite half = true ∧ fLt posZero half = true ∧ fLt 0x3E800000 half = true ∧
    fLt half one = true := by decide +kernel
theorem witness_LimiterPassesBelowThreshold :
    let d := dynReset Config.defaults
    d.detectorMode = .peak ∧ d.g = one ∧ d.delay = 0 ∧ d.wr < laCap Config.defaults ∧ isFinite d.kR = true ∧
      isFinite half = true ∧ fLt (linkedMag true ⟨half, negOne⟩) d.thresholdLinear = false ∧
      fLt (linkedMag true ⟨half, half⟩) d.thresholdLinear = true := by decide +kernel
theorem witness_LookaheadDelaysByD :
    let d : Dynamics := { dynReset Config.defaults with delay := 2 }
    d.wr < laCap Config.defaults ∧ d.delay ≤ dMax Config.defaults ∧ d.delay ≤ [(⟨half, half⟩ : Stereo V), ⟨one, one⟩].length := by
  decide +kernel
theorem witness_MeterReportsAndResets : (dynReset Config.defaults).minRed = one := rfl
theorem witness_ExciterBypass : excReset.enabled = false ∧
    fLt posZero ({ excReset with enabled := true } : Exciter).actGain = false := by decide +kernel
theorem witness_ExciterSynthesis :
    let e : Exciter := { excReset with enabled := true, actGain := 0x39DA740E }
    e.enabled = true ∧ fLt posZero e.actGain = true := by decide +kernel
theorem witness_RampStaysInUnit : strapsLegal Config.defaults = true ∧ fIn posZero one excReset.actGain = true ∧
    fIn posZero one one = true ∧ excReset.enabled = false ∧
    ({ excReset with enabled := true, active := true } : Exciter).enabled = true ∧
    ({ excReset with enabled := true, active := true } : Exciter).active = true := by decide +kernel
theorem witness_NoiseGeneratorNeverStops : Config.rngSeed ≠ 0 := by decide +kernel
theorem witness_HoldKeepsTheClassification : strapsLegal ⟨384000, 128, 16⟩ = true ∧
    (let p : Params := ⟨384000, 128, 16⟩
     let w : Work := Array.replicate 100 ⟨two, posZero⟩
     binOfHz p 2000 < binOfHz p 4500 ∧ binOfHz p 8000 < binOfHz p 12000 ∧ binOfHz p 14000 < binOfHz p 18000 ∧
      fLt Config.noiseFloor (meanEnergy p w 2000 4500) = true ∧
      fLt (meanEnergy p w 14000 18000) (fMul Config.rHigh (meanEnergy p w 2000 4500)) = true ∧
      fLt (meanEnergy p w 8000 12000) (fMul Config.rCut (meanEnergy p w 2000 4500)) = true) ∧
    ¬ fLt Config.noiseFloor (meanEnergy ⟨384000, 128, 16⟩ #[] 2000 4500) = true := by decide +kernel
theorem witness_MagnitudesLieInUnit : fLe posZero half = true ∧ fLe half two = true ∧ isFinite two = true ∧
    fLe one two = true ∧ fLe one one = true := by decide +kernel
theorem witness_ResetIsNeutral : strapsLegal ⟨8000, 1, 1⟩ = true ∧ strapsLegal ⟨384000, 8192, 16⟩ = true := by
  decide +kernel
theorem witness_WindowSlides : [half, one].length ≤ Config.fftSize ∧ 8189 < Config.fftSize - [half, one].length ∧
    ¬ 8190 < Config.fftSize - [half, one].length ∧ 8191 < Config.fftSize := by decide +kernel
theorem witness_EmitAtTheFirstMultipleOfBlock :
    let s : State := { quiet 128 4 with spec := { (quiet 128 4).spec with fpr := 0x43480000 } }
    s.spec.acc = 0 ∧ 2 * s.par.block < 2 ^ 32 ∧ fLe s.spec.fpr (toF (1 * s.par.block)) = false ∧
      fLe s.spec.fpr (toF (2 * s.par.block)) = true := by decide +kernel
theorem witness_LoadIsABitReversal : 0 < Config.fftSize ∧ 8191 < Config.fftSize := by decide
theorem witness_ButterflyWritesItsPair :
    let w : Work := #[⟨one, posZero⟩, ⟨half, posZero⟩]
    (0 : Nat) ≠ 1 ∧ 0 < w.size ∧ 1 < w.size := by decide +kernel
theorem witness_ButterflyWritesItsPair_stages : (Array.replicate 8192 (⟨one, posZero⟩ : Cplx)).size = 8192 ∧
    4095 < 8192 / 2 ^ 1 ∧ 0 < 2 ^ 1 / 2 ∧ 0 < 8192 / 2 ^ 13 ∧ 4095 < 2 ^ 13 / 2 :=
  ⟨Array.size_replicate, by decide⟩
theorem witness_ProcAnswersOneBlock : audioFits 4 blockOf4.nch blockOf4.samples.length = true ∧
    audioFits 4 3 12 = false ∧ audioFits 4 0 0 = false ∧ audioFits 4 2 4 = false := by decide +kernel
theorem witness_ProcKeepsConfiguration : audioFits (quiet 4 4).par.block blockOf4.nch blockOf4.samples.length = true ∧
    blockOf4.nch = 1 ∧ (quiet 4 4).dyn.enabled = false ∧
    fLe (quiet 4 4).spec.fpr (toF ((quiet 4 4).spec.acc + BitVec.ofNat 32 (quiet 4 4).par.block).toNat) = false := by
  decide +kernel
theorem witness_OutputsAreFinite : audioFits (quiet 4 4).par.block 1 [posInf, 0x7FC00000, one, one].length = true := by
  decide +kernel

end Sys2Proof.Tests
end

/-! PROOFS. The order of the format on exact integers, and interval arithmetic: a rounded result does not cross a finite
value (00_scope R17, R18), so an operation on intervals with finite ends stays within finite ends. -/

namespace Sys2Proof.Machine

/-! ### The exact integers behind the order (00_scope R17, R18) -/

/-- Finite magnitudes order as their units do. -/
theorem fUnits_le_iff {a b : V} (ha : isFinite a = true) (hb : isFinite b = true) :
    fUnits a ≤ fUnits b ↔ fMag a ≤ fMag b := by
  refine ⟨fun h => ?_, fUnits_mono ha hb⟩
  rw [← roundMag_fUnits ha, ← roundMag_fUnits hb]
  exact roundMag_mono one_pos one_pos (by omega)

theorem fKey_le_iff {a b : V} (ha : isFinite a = true) (hb : isFinite b = true) :
    fKey a ≤ fKey b ↔ fInt a ≤ fInt b := by
  have hab := fUnits_le_iff ha hb
  have hba := fUnits_le_iff hb ha
  have hza := fMag_eq_zero_iff ha
  have hzb := fMag_eq_zero_iff hb
  rw [fKey_eq, fKey_eq, fInt_eq, fInt_eq]
  cases fSign a <;> cases fSign b <;> simp only [Bool.false_eq_true, if_false, if_true] <;> omega

/-- The order of finite values is that of their exact integers. -/
theorem fLe_iff {a b : V} (ha : isFinite a = true) (hb : isFinite b = true) : fLe a b = true ↔ fInt a ≤ fInt b := by
  simp [fLe_eq, isNaN_of_isFinite ha, isNaN_of_isFinite hb, fKey_le_iff ha hb]

theorem fLt_iff {a b : V} (ha : isFinite a = true) (hb : isFinite b = true) : fLt a b = true ↔ fInt a < fInt b := by
  have h := fKey_le_iff hb ha
  simp only [fLt_eq, isNaN_of_isFinite ha, isNaN_of_isFinite hb, Bool.not_false, Bool.true_and, decide_eq_true_eq]
  omega

theorem fInt_posZero : fInt posZero = 0 := by decide +kernel
theorem fInt_one : fInt one = 2 ^ 149 := by decide +kernel

/-- A value between two finite ones is finite (R18). -/
theorem isFinite_of_fLe_fLe {l u v : V} (hl : isFinite l = true) (hu : isFinite u = true) (hlv : fLe l v = true)
    (hvu : fLe v u = true) : isFinite v = true := by
  simp only [fLe_eq, Bool.and_eq_true, decide_eq_true_eq] at hlv hvu
  obtain ⟨-, hlv⟩ := hlv
  obtain ⟨-, hvu⟩ := hvu
  rw [isFinite_iff] at *
  rw [fKey_eq, fKey_eq] at hlv hvu
  cases hs : fSign v <;> simp only [hs, Bool.false_eq_true, if_false, if_true] at hlv hvu
  · split at hvu <;> omega
  · split at hlv <;> omega

/-- A range with finite ends, on exact integers. -/
theorem fIn_iff {l u v : V} (hl : isFinite l = true) (hu : isFinite u = true) :
    fIn l u v = true ↔ isFinite v = true ∧ fInt l ≤ fInt v ∧ fInt v ≤ fInt u := by
  simp only [fIn, Bool.and_eq_true]
  constructor
  · rintro ⟨hlv, hvu⟩
    have hv := isFinite_of_fLe_fLe hl hu hlv hvu
    exact ⟨hv, (fLe_iff hl hv).mp hlv, (fLe_iff hv hu).mp hvu⟩
  · rintro ⟨hv, hlv, hvu⟩
    exact ⟨(fLe_iff hl hv).mpr hlv, (fLe_iff hv hu).mpr hvu⟩

theorem isFinite_of_fIn {l u v : V} (h : fIn l u v = true) (hl : isFinite l = true) (hu : isFinite u = true) :
    isFinite v = true := ((fIn_iff hl hu).mp h).1

/-! ### Negation (R18) -/

@[simp] theorem fMag_fNeg (a : V) : fMag (fNeg a) = fMag a := by rw [fNeg_eq, fMag_mkV _ _ (fMag_lt a)]
@[simp] theorem fSign_fNeg (a : V) : fSign (fNeg a) = !fSign a := by rw [fNeg_eq, fSign_mkV _ _ (fMag_lt a)]
@[simp] theorem isFinite_fNeg (a : V) : isFinite (fNeg a) = isFinite a := by simp [isFinite_eq]
@[simp] theorem isNaN_fNeg (a : V) : isNaN (fNeg a) = isNaN a := by simp [isNaN_eq]
@[simp] theorem isInf_fNeg (a : V) : isInf (fNeg a) = isInf a := by simp [isInf_eq]

theorem fInt_fNeg (a : V) : fInt (fNeg a) = -fInt a := by
  rw [fInt_eq, fInt_eq, fUnits_eq, fUnits_eq, fMag_fNeg, fSign_fNeg]
  cases fSign a <;> simp

theorem fKey_fNeg (a : V) : fKey (fNeg a) = -fKey a := by
  rw [fKey_eq, fKey_eq, fMag_fNeg, fSign_fNeg]
  cases fSign a <;> simp

/-- Negation turns the order round. -/
theorem fLe_fNeg (a b : V) : fLe (fNeg b) (fNeg a) = fLe a b := by
  simp only [fLe_eq, isNaN_fNeg, fKey_fNeg, Int.neg_le_neg_iff, Bool.and_comm]

/-! ### A rounded result does not cross a finite value (R17) -/

theorem isNaN_fRound (neg : Bool) (n d : Nat) : isNaN (fRound neg n d) = false := by
  have := roundMag_le_infMag n d
  simp [isNaN_eq, fMag_fRound, this]

theorem fNeg_fRound (neg : Bool) (n d : Nat) : fNeg (fRound neg n d) = fRound (!neg) n d :=
  eq_of_sign_mag (by simp [fSign_fRound]) (by simp [fMag_fRound])

/-- Rounding `x / d` from at most a finite value gives at most that value. -/
theorem fRound_le {neg : Bool} {n d : Nat} {c : V} {x : Int} (hx : x = if neg then -(n : Int) else (n : Int))
    (hd : 0 < d) (hc : isFinite c = true) (h : x ≤ fInt c * d) : fLe (fRound neg n d) c = true := by
  simp only [fLe_eq, isNaN_fRound, isNaN_of_isFinite hc, Bool.not_false, Bool.true_and, decide_eq_true_eq]
  rw [fKey_eq, fSign_fRound, fMag_fRound, fKey_eq]
  rw [fInt_eq] at h
  have up := roundMag_le_of_le_units (n := n) hd hc
  have down := le_roundMag_of_units_le (n := n) hd hc
  have hpos : (0 : Int) ≤ (fUnits c : Int) * d := by positivity
  have hcast : ((fUnits c * d : Nat) : Int) = (fUnits c : Int) * d := by push_cast; ring
  subst hx
  cases neg <;> cases hs : fSign c <;> simp only [hs, Bool.false_eq_true, if_false, if_true, Int.neg_mul] at h ⊢
  · have := up (by omega)
    omega
  · have := up (by omega)
    have := (fMag_eq_zero_iff hc).mp (by
      rcases Nat.eq_zero_or_pos (fUnits c) with h0 | h0
      · exact h0
      · have : (0 : Int) < (fUnits c : Int) * d := by positivity
        omega)
    omega
  · omega
  · have := down (by omega)
    omega

theorem le_fRound {neg : Bool} {n d : Nat} {c : V} {x : Int} (hx : x = if neg then -(n : Int) else (n : Int))
    (hd : 0 < d) (hc : isFinite c = true) (h : fInt c * d ≤ x) : fLe c (fRound neg n d) = true := by
  rw [← fLe_fNeg, fNeg_fRound]
  refine fRound_le (x := -x) ?_ hd (by simpa using hc) ?_
  · subst hx
    cases neg <;> simp
  · rw [fInt_fNeg, Int.neg_mul]
    omega

/-! ### Sums, products and quotients against a finite value (R17) -/

/-- The place in the order of a finite sum: that of the exact sum rounded, whatever the sign of a zero. -/
theorem fKey_fAdd {a b : V} (ha : isFinite a = true) (hb : isFinite b = true) : isNaN (fAdd a b) = false ∧
    fKey (fAdd a b) = fKey (fRound (decide (fInt a + fInt b < 0)) (fInt a + fInt b).natAbs 1) := by
  rw [fAdd_of_finite ha hb]
  split
  · rename_i h
    rw [h]
    cases fSign a && fSign b <;> decide +kernel
  · exact ⟨isNaN_fRound _ _ _, rfl⟩

theorem natAbs_signed (x : Int) : x = if decide (x < 0) = true then -(x.natAbs : Int) else (x.natAbs : Int) := by
  simp only [decide_eq_true_eq]
  split <;> omega

theorem fAdd_le {a b c : V} (ha : isFinite a = true) (hb : isFinite b = true) (hc : isFinite c = true)
    (h : fInt a + fInt b ≤ fInt c) : fLe (fAdd a b) c = true := by
  obtain ⟨hn, hk⟩ := fKey_fAdd ha hb
  have := fRound_le (natAbs_signed (fInt a + fInt b)) one_pos hc (by simpa using h)
  rw [fLe_eq, isNaN_fRound] at this
  rwa [fLe_eq, hn, hk]

theorem le_fAdd {a b c : V} (ha : isFinite a = true) (hb : isFinite b = true) (hc : isFinite c = true)
    (h : fInt c ≤ fInt a + fInt b) : fLe c (fAdd a b) = true := by
  obtain ⟨hn, hk⟩ := fKey_fAdd ha hb
  have := le_fRound (natAbs_signed (fInt a + fInt b)) one_pos hc (by simpa using h)
  rw [fLe_eq, isNaN_fRound] at this
  rwa [fLe_eq, hn, hk]

/-- The sign of a product or a quotient, on the exact integers. -/
theorem fInt_mul_natCast (a b : V) :
    fInt a * fInt b = if (fSign a != fSign b) = true then -((fUnits a * fUnits b : Nat) : Int)
      else ((fUnits a * fUnits b : Nat) : Int) := by
  rw [fInt_eq, fInt_eq]
  cases fSign a <;> cases fSign b <;> simp

theorem fMul_le {a b c : V} (ha : isFinite a = true) (hb : isFinite b = true) (hc : isFinite c = true)
    (h : fInt a * fInt b ≤ fInt c * 2 ^ 149) : fLe (fMul a b) c = true := by
  rw [fMul_of_finite ha hb]
  exact fRound_le (fInt_mul_natCast a b) (by positivity) hc (by exact_mod_cast h)

theorem le_fMul {a b c : V} (ha : isFinite a = true) (hb : isFinite b = true) (hc : isFinite c = true)
    (h : fInt c * 2 ^ 149 ≤ fInt a * fInt b) : fLe c (fMul a b) = true := by
  rw [fMul_of_finite ha hb]
  exact le_fRound (fInt_mul_natCast a b) (by positivity) hc (by exact_mod_cast h)

/-- A finite value over a positive one, as a rounded quotient. -/
theorem fDiv_of_pos {a b : V} (ha : isFinite a = true) (hb : isFinite b = true) (h0 : 0 < fInt b) :
    fInt b = fUnits b ∧ fDiv a b = fRound (fSign a) (fUnits a * 2 ^ 149) (fUnits b) := by
  have hs : fSign b = false := by
    rw [fInt_eq] at h0
    split at h0
    · omega
    · simp_all
  have hu : fInt b = fUnits b := by simp [fInt_eq, hs]
  have hm : (fMag b == 0) = false := by
    have := (fMag_eq_zero_iff hb).not
    simp only [beq_eq_false_iff_ne]
    omega
  refine ⟨hu, ?_⟩
  simp [fDiv_eq, isNaN_of_isFinite ha, isInf_of_isFinite ha, isNaN_of_isFinite hb, isInf_of_isFinite hb, hm, hs]

theorem fDiv_le {a b c : V} (ha : isFinite a = true) (hb : isFinite b = true) (hc : isFinite c = true)
    (h0 : 0 < fInt b) (h : fInt a * 2 ^ 149 ≤ fInt c * fInt b) : fLe (fDiv a b) c = true := by
  obtain ⟨hu, hd⟩ := fDiv_of_pos ha hb h0
  rw [hd]
  refine fRound_le (x := fInt a * 2 ^ 149) ?_ (by omega) hc (by rwa [← hu])
  rw [fInt_eq]
  split <;> push_cast <;> ring

theorem le_fDiv {a b c : V} (ha : isFinite a = true) (hb : isFinite b = true) (hc : isFinite c = true)
    (h0 : 0 < fInt b) (h : fInt c * fInt b ≤ fInt a * 2 ^ 149) : fLe c (fDiv a b) = true := by
  obtain ⟨hu, hd⟩ := fDiv_of_pos ha hb h0
  rw [hd]
  refine le_fRound (x := fInt a * 2 ^ 149) ?_ (by omega) hc (by rwa [← hu])
  rw [fInt_eq]
  split <;> push_cast <;> ring

/-! ### Intervals with finite ends -/

/-- The ends of a sum's interval. -/
abbrev AddEnds (la ua lb ub l u : V) : Prop :=
  [la, ua, lb, ub, l, u].all isFinite = true ∧ fInt l ≤ fInt la + fInt lb ∧ fInt ua + fInt ub ≤ fInt u

theorem fIn_fAdd {la ua lb ub l u a b : V} (ha : fIn la ua a = true) (hb : fIn lb ub b = true)
    (h : AddEnds la ua lb ub l u) : fIn l u (fAdd a b) = true := by
  obtain ⟨hf, hlow, hhigh⟩ := h
  simp only [List.all_cons, List.all_nil, Bool.and_eq_true] at hf
  obtain ⟨f1, f2, f3, f4, f5, f6, -⟩ := hf
  obtain ⟨fa, a1, a2⟩ := (fIn_iff f1 f2).mp ha
  obtain ⟨fb, b1, b2⟩ := (fIn_iff f3 f4).mp hb
  simp only [fIn, le_fAdd fa fb f5 (by omega), fAdd_le fa fb f6 (by omega), Bool.and_self]

theorem fIn_fNeg {l u a : V} (h : fIn l u a = true) : fIn (fNeg u) (fNeg l) (fNeg a) = true := by
  simp only [fIn, Bool.and_eq_true] at h ⊢
  exact ⟨by rw [fLe_fNeg]; exact h.2, by rw [fLe_fNeg]; exact h.1⟩

theorem fIn_fSub {la ua lb ub l u a b : V} (ha : fIn la ua a = true) (hb : fIn lb ub b = true)
    (h : AddEnds la ua (fNeg ub) (fNeg lb) l u) : fIn l u (fSub a b) = true := by
  rw [fSub_eq]
  exact fIn_fAdd ha (fIn_fNeg hb) h

/-- A product of two integers of intervals lies between the least and the greatest product of their ends. -/
theorem mul_mem_of_ends {a b c d l u x y : Int} (hax : a ≤ x) (hxb : x ≤ b) (hcy : c ≤ y) (hyd : y ≤ d)
    (hl : l ≤ a * c ∧ l ≤ a * d ∧ l ≤ b * c ∧ l ≤ b * d) (hu : a * c ≤ u ∧ a * d ≤ u ∧ b * c ≤ u ∧ b * d ≤ u) :
    l ≤ x * y ∧ x * y ≤ u := by
  obtain ⟨l1, l2, l3, l4⟩ := hl
  obtain ⟨u1, u2, u3, u4⟩ := hu
  have ends : ∀ z : Int, (l ≤ z * c ∧ z * c ≤ u) → (l ≤ z * d ∧ z * d ≤ u) → l ≤ z * y ∧ z * y ≤ u := by
    rintro z ⟨h1, h2⟩ ⟨h3, h4⟩
    rcases le_total 0 z with hz | hz <;> constructor <;> nlinarith
  obtain ⟨a1, a2⟩ := ends a ⟨l1, u1⟩ ⟨l2, u2⟩
  obtain ⟨b1, b2⟩ := ends b ⟨l3, u3⟩ ⟨l4, u4⟩
  rcases le_total 0 y with hy | hy <;> constructor <;> nlinarith

/-- The ends of a product's interval. -/
abbrev MulEnds (la ua lb ub l u : V) : Prop :=
  [la, ua, lb, ub, l, u].all isFinite = true ∧
    (fInt l * 2 ^ 149 ≤ fInt la * fInt lb ∧ fInt l * 2 ^ 149 ≤ fInt la * fInt ub ∧
      fInt l * 2 ^ 149 ≤ fInt ua * fInt lb ∧ fInt l * 2 ^ 149 ≤ fInt ua * fInt ub) ∧
    (fInt la * fInt lb ≤ fInt u * 2 ^ 149 ∧ fInt la * fInt ub ≤ fInt u * 2 ^ 149 ∧
      fInt ua * fInt lb ≤ fInt u * 2 ^ 149 ∧ fInt ua * fInt ub ≤ fInt u * 2 ^ 149)

theorem fIn_fMul {la ua lb ub l u a b : V} (ha : fIn la ua a = true) (hb : fIn lb ub b = true)
    (h : MulEnds la ua lb ub l u) : fIn l u (fMul a b) = true := by
  obtain ⟨hf, hlow, hhigh⟩ := h
  simp only [List.all_cons, List.all_nil, Bool.and_eq_true] at hf
  obtain ⟨f1, f2, f3, f4, f5, f6, -⟩ := hf
  obtain ⟨fa, a1, a2⟩ := (fIn_iff f1 f2).mp ha
  obtain ⟨fb, b1, b2⟩ := (fIn_iff f3 f4).mp hb
  obtain ⟨m1, m2⟩ := mul_mem_of_ends a1 a2 b1 b2 hlow hhigh
  simp only [fIn, le_fMul fa fb f5 m1, fMul_le fa fb f6 m2, Bool.and_self]

/-- The ends of a quotient's interval, the divisor positive. -/
abbrev DivEnds (la ua lb ub l u : V) : Prop :=
  [la, ua, lb, ub, l, u].all isFinite = true ∧ 0 < fInt lb ∧
    (fInt l * fInt lb ≤ fInt la * 2 ^ 149 ∧ fInt l * fInt ub ≤ fInt la * 2 ^ 149) ∧
    (fInt ua * 2 ^ 149 ≤ fInt u * fInt lb ∧ fInt ua * 2 ^ 149 ≤ fInt u * fInt ub)

theorem fIn_fDiv {la ua lb ub l u a b : V} (ha : fIn la ua a = true) (hb : fIn lb ub b = true)
    (h : DivEnds la ua lb ub l u) : fIn l u (fDiv a b) = true := by
  obtain ⟨hf, h0, ⟨hl1, hl2⟩, hu1, hu2⟩ := h
  simp only [List.all_cons, List.all_nil, Bool.and_eq_true] at hf
  obtain ⟨f1, f2, f3, f4, f5, f6, -⟩ := hf
  obtain ⟨fa, a1, a2⟩ := (fIn_iff f1 f2).mp ha
  obtain ⟨fb, b1, b2⟩ := (fIn_iff f3 f4).mp hb
  have low : fInt l * fInt b ≤ fInt a * 2 ^ 149 := by
    rcases le_total 0 (fInt l) with hz | hz <;> nlinarith
  have high : fInt a * 2 ^ 149 ≤ fInt u * fInt b := by
    rcases le_total 0 (fInt u) with hz | hz <;> nlinarith
  simp only [fIn, le_fDiv fa fb f5 (by omega) low, fDiv_le fa fb f6 (by omega) high, Bool.and_self]

/-! ### What a finite result says of its operands (R17) -/

theorem isInf_of_not_isFinite {v : V} (hf : isFinite v = false) (hn : isNaN v = false) : isInf v = true := by
  simp only [isFinite_eq, isNaN_eq, isInf_eq, decide_eq_false_iff_not, beq_iff_eq] at *
  omega

theorem isFinite_of_isInf {v : V} (h : isInf v = true) : isFinite v = false := by
  simp only [isFinite_eq, isInf_eq, decide_eq_false_iff_not, beq_iff_eq] at *
  omega

/-- What an operation gives for an infinity or a NaN is one or the other, so a finite result has finite operands. -/
theorem isFinite_of_special {a b r : V} (hr : isFinite r = true)
    (hn : isNaN a = true ∨ isNaN b = true → r = 0x7FC00000#32)
    (hi : isNaN a = false → isNaN b = false → isInf a = true ∨ isInf b = true → isFinite r = false) :
    isFinite a = true ∧ isFinite b = true := by
  have hnan : ¬ (isNaN a = true ∨ isNaN b = true) := fun h => by
    rw [hn h] at hr
    exact absurd hr (by decide +kernel)
  simp only [not_or, Bool.not_eq_true] at hnan
  have hinf : ¬ (isInf a = true ∨ isInf b = true) := fun h => by simp [hi hnan.1 hnan.2 h] at hr
  constructor <;> by_contra hf <;> rw [Bool.not_eq_true] at hf
  · exact hinf (.inl (isInf_of_not_isFinite hf hnan.1))
  · exact hinf (.inr (isInf_of_not_isFinite hf hnan.2))

theorem isFinite_mkV_infMag (s : Bool) : isFinite (mkV s infMag) = false := by cases s <;> decide +kernel

theorem isFinite_of_fAdd {a b : V} (h : isFinite (fAdd a b) = true) : isFinite a = true ∧ isFinite b = true := by
  refine isFinite_of_special h (fun hn => ?_) (fun ha hb hi => ?_)
  · rcases hn with hn | hn <;> simp [fAdd_eq, hn]
  · have nan : isFinite 0x7FC00000#32 = false := by decide +kernel
    rw [fAdd_eq, ha, hb]
    cases hia : isInf a
    · have hib : isInf b = true := by simpa [hia] using hi
      simp [hib, isFinite_of_isInf hib]
    · simp only [Bool.or_self, Bool.false_eq_true, if_false, if_true]
      split
      · exact nan
      · exact isFinite_of_isInf hia

theorem isFinite_of_fMul {a b : V} (h : isFinite (fMul a b) = true) : isFinite a = true ∧ isFinite b = true := by
  refine isFinite_of_special h (fun hn => ?_) (fun ha hb hi => ?_)
  · rcases hn with hn | hn <;> simp [fMul_eq, hn]
  · have nan : isFinite 0x7FC00000#32 = false := by decide +kernel
    have hi' : (isInf a || isInf b) = true := by simpa using hi
    rw [fMul_eq, ha, hb, hi']
    simp only [Bool.or_self, Bool.false_eq_true, if_false, if_true]
    split
    · exact nan
    · exact isFinite_mkV_infMag _

theorem fMul_comm (a b : V) : fMul a b = fMul b a := by
  simp only [fMul_eq, Bool.or_comm, Nat.mul_comm, bne_comm]

theorem nonNeg_iff (v : V) : nonNeg v = true ↔ isFinite v = true ∧ 0 ≤ fInt v := by
  simp only [nonNeg, Bool.and_eq_true]
  constructor
  · rintro ⟨hv, h⟩
    exact ⟨hv, fInt_posZero ▸ (fLe_iff (by decide) hv).mp h⟩
  · rintro ⟨hv, h⟩
    exact ⟨hv, (fLe_iff (by decide) hv).mpr (by rwa [fInt_posZero])⟩

theorem isFinite_posZero : isFinite posZero = true := by decide
theorem isFinite_one : isFinite one = true := by decide +kernel
theorem nonNeg_posZero : nonNeg posZero = true := by decide +kernel

/-- R22: the guard's replacement. -/
theorem sanV_of_not_isFinite {v : V} (h : isFinite v = false) : sanV v = posZero := by simp [sanV, h]

/-- R22: the guard of a value that is not negative, an infinity included. -/
theorem nonNeg_sanV {v : V} (h : fLe posZero v = true) : nonNeg (sanV v) = true := by
  unfold sanV
  split
  · simp_all [nonNeg]
  · decide +kernel

theorem nonNeg_fAbs {v : V} (h : isFinite v = true) : nonNeg (fAbs v) = true := by
  have hs : fSign (fAbs v) = false := by rw [fAbs_eq, fSign_mkV _ _ (fMag_lt v)]
  rw [nonNeg_iff, isFinite_fAbs, fInt_eq, hs]
  exact ⟨h, by simp⟩

/-- A factor of the unit interval keeps a value finite and not negative. -/
theorem nonNeg_fMul {k a : V} (hk : fIn posZero one k = true) (ha : nonNeg a = true) : nonNeg (fMul k a) = true := by
  obtain ⟨hkf, hk0, hk1⟩ := (fIn_iff (by decide) (by decide)).mp hk
  obtain ⟨haf, ha0⟩ := (nonNeg_iff a).mp ha
  rw [fInt_posZero] at hk0
  rw [fInt_one] at hk1
  have low := le_fMul (c := posZero) hkf haf (by decide) (by rw [fInt_posZero]; positivity)
  have high := fMul_le (c := a) hkf haf haf (by nlinarith)
  simp only [nonNeg, low, isFinite_of_fLe_fLe (by decide) haf low high, Bool.and_self]

/-- Taking away what is not negative, an infinity included, does not raise a value. -/
theorem fSub_le_self {a b : V} (ha : isFinite a = true) (hb : fLe posZero b = true) : fLe (fSub a b) a = true := by
  by_cases hf : isFinite b = true
  · have := (fLe_iff (by decide) hf).mp hb
    rw [fInt_posZero] at this
    rw [fSub_eq]
    exact fAdd_le ha (by simpa using hf) ha (by rw [fInt_fNeg]; omega)
  · have hn : isNaN b = false := by simp_all [fLe_eq]
    have hi : isInf b = true := isInf_of_not_isFinite (by simpa using hf) hn
    have hs : fSub a b = fNeg b := by
      simp [fSub_eq, fAdd_eq, isNaN_of_isFinite ha, isInf_of_isFinite ha, hn, hi]
    have hk : fKey posZero ≤ fKey b := by simpa [fLe_eq, hn, show isNaN posZero = false by decide] using hb
    rw [isInf_eq, beq_iff_eq] at hi
    rw [isFinite_iff] at ha
    have : -fKey b ≤ fKey a := by
      rw [fKey_eq b, show fKey posZero = 0 by decide] at hk
      rw [fKey_eq, fKey_eq]
      split at hk
      · have := infMag_eq
        omega
      · simp_all only [Bool.false_eq_true, if_false]
        split <;> omega
    simp [hs, fLe_eq, hn, isNaN_of_isFinite ((isFinite_iff a).mpr ha), fKey_fNeg, this]

/-! ### Order, maximum and minimum (R18) -/

theorem fLe_of_fLt {a b : V} (h : fLt a b = true) : fLe a b = true := by
  simp only [fLe_eq, fLt_eq, Bool.and_eq_true, decide_eq_true_eq] at *
  exact ⟨h.1, le_of_lt h.2⟩

theorem fLe_refl {a : V} (h : isNaN a = false) : fLe a a = true := by simp [fLe_eq, h]

theorem isNaN_of_fLe {a b : V} (h : fLe a b = true) : isNaN a = false ∧ isNaN b = false := by
  simp only [fLe_eq, Bool.and_eq_true, Bool.not_eq_true'] at h
  exact h.1

theorem fLe_of_not_fLt {a b : V} (ha : isNaN a = false) (hb : isNaN b = false) (h : fLt a b = false) :
    fLe b a = true := by
  simp only [fLe_eq, fLt_eq, ha, hb, Bool.not_false, Bool.true_and, decide_eq_true_eq, decide_eq_false_iff_not] at *
  omega

theorem fIn_fMin {l u v : V} (hv : fLe l v = true) (hu : fLe l u = true) : fIn l u (fMin u v) = true := by
  unfold fMin
  simp only [fIn, Bool.and_eq_true]
  split
  · rename_i h
    exact ⟨hv, fLe_of_fLt h⟩
  · exact ⟨hu, fLe_refl (isNaN_of_fLe hu).2⟩

theorem fIn_fMax {l u v : V} (hv : fLe v u = true) (hl : fLe l u = true) : fIn l u (fMax l v) = true := by
  unfold fMax
  simp only [fIn, Bool.and_eq_true]
  split
  · rename_i h
    exact ⟨fLe_of_fLt h, hv⟩
  · exact ⟨fLe_refl (isNaN_of_fLe hl).1, hl⟩

/-- A wider range holds what a narrower one does. -/
theorem fIn_mono {l u l' u' v : V} (h : fIn l u v = true) (hl : fLe l' l = true) (hu : fLe u u' = true) :
    fIn l' u' v = true := by
  simp only [fIn, Bool.and_eq_true] at *
  exact ⟨fLe_trans hl h.1, fLe_trans h.2 hu⟩

/-! ### Conversions and the sample rate (R5, R7, R20) -/

theorem toF_mono {m n : Nat} (h : m ≤ n) : fLe (toF m) (toF n) = true := by
  have key : ∀ k, isNaN (toF k) = false ∧ fKey (toF k) = roundMag (k * 2 ^ 149) 1 := by
    intro k
    rw [show toF k = fRound false (k * 2 ^ 149) 1 from rfl]
    exact ⟨isNaN_fRound _ _ _, by rw [fKey_eq, fSign_fRound, fMag_fRound]; rfl⟩
  have := roundMag_mono (n₁ := m * 2 ^ 149) (n₂ := n * 2 ^ 149) one_pos one_pos (by omega)
  simp only [fLe_eq, (key m).1, (key n).1, (key m).2, (key n).2, Bool.not_false, Bool.true_and, decide_eq_true_eq]
  exact_mod_cast this

theorem fIn_toF {m n k : Nat} (hm : m ≤ k) (hn : k ≤ n) : fIn (toF m) (toF n) (toF k) = true := by
  simp [fIn, toF_mono hm, toF_mono hn]

theorem strapsLegal_iff (p : Params) : strapsLegal p = true ↔
    8000 ≤ p.fs ∧ p.fs ≤ 384000 ∧ 1 ≤ p.block ∧ p.block ≤ 8192 ∧ 1 ≤ p.cqDepth := by
  simp only [strapsLegal, Bool.and_eq_true, decide_eq_true_eq, and_assoc]
  exact Iff.rfl

/-- `FSf` of legal straps. -/
theorem fIn_fsf {p : Params} (h : strapsLegal p = true) : fIn (toF 8000) (toF 384000) (fsf p) = true := by
  obtain ⟨hlo, hhi, -⟩ := (strapsLegal_iff p).mp h
  exact fIn_toF hlo hhi

/-- `F_HI` of legal straps. -/
theorem fIn_fHi {p : Params} (h : strapsLegal p = true) : fIn (toF 3999) (toF 191999) (fHi p) = true :=
  fIn_fSub (fIn_fDiv (fIn_fsf h) (lb := two) (ub := two) (l := toF 4000) (u := toF 192000) (by decide +kernel)
    (by decide +kernel)) (lb := one) (ub := one) (by decide +kernel) (by decide +kernel)

/-- The range of a section's frequency is not empty. -/
theorem fLe_fLo_fHi {p : Params} (h : strapsLegal p = true) : fLe Config.fLo (fHi p) = true := by
  have := fIn_fHi h
  simp only [fIn, Bool.and_eq_true] at this
  exact fLe_trans (by decide +kernel) this.1

theorem isFinite_fHi {p : Params} (h : strapsLegal p = true) : isFinite (fHi p) = true :=
  isFinite_of_fIn (fIn_fHi h) (by decide +kernel) (by decide +kernel)

end Sys2Proof.Machine


/-! PROOFS. What each component's operations keep of its values (10_state R42 to R55, R60). -/

namespace Sys2Proof.Machine

/-! ### The coefficient row of a flat section (40_filterbank R153 to R159) -/

/-- What R159 rests on: at 0 dB `A` is 1.0, `cos` lies in [-1.0, 1.0] (NP3) and `alpha` in [0, 0.5] (NP3, NP6). -/
structure FlatMid (m : CoefMid) : Prop where
  bigA : m.bigA = one
  cw : fIn negOne one m.cw = true
  alpha : fIn posZero half m.alpha = true

theorem fIn_w0Of {p : Params} (h : strapsLegal p = true) {f : V} (hf : fIn Config.fLo (fHi p) f = true) :
    fIn posZero (toF 200) (w0Of p.fs f) = true := by
  have hi := fIn_fHi h
  simp only [fIn, Bool.and_eq_true] at hi
  have hf' : fIn one (toF 191999) f = true := fIn_mono hf (by decide +kernel) hi.2
  have num : fIn one (toF 1500000) (fMul Config.twoPi f) = true :=
    fIn_fMul (la := toF 6) (ua := toF 7) (by decide +kernel) hf' (by decide +kernel)
  exact fIn_fDiv num (fIn_fsf h) (by decide +kernel)

theorem coefMid_flat {p : Params} (h : strapsLegal p = true) {f : V} (hf : fIn Config.fLo (fHi p) f = true) :
    FlatMid (coefMid p f (fMul Config.qDefault (qScale .quality)) posZero) := by
  have hw : isFinite (w0Of p.fs f) = true := isFinite_of_fIn (fIn_w0Of h hf) (by decide +kernel) (by decide +kernel)
  obtain ⟨hlo, hhi, -⟩ := (strapsLegal_iff p).mp h
  obtain ⟨-, sinIn, sinPos⟩ := fSin_ok
  obtain ⟨-, -, cosIn⟩ := fCos_ok
  obtain ⟨powZero, -, -⟩ := fPow10_ok
  refine ⟨?_, cosIn _ hw, ?_⟩
  · rw [← powZero]
    exact congrArg fPow10 (by decide +kernel)
  · have hs : fIn posZero one (fSin (w0Of p.fs f)) = true := by
      have h1 := sinIn _ hw
      simp only [fIn, Bool.and_eq_true] at h1 ⊢
      exact ⟨fLe_of_fLt (sinPos p.fs (Nat.lt_succ_of_le hhi) hlo f hf), h1.2⟩
    exact fIn_fDiv hs (lb := two) (ub := two) (by decide +kernel) (by decide +kernel)

/-- 16.0, a bound of the raw coefficients of a flat section. -/
def sixteen : V := toF 16

/-- The six raw coefficients are bounded, and the divisor stays away from 0. -/
structure BoundedRaw (r : RawCoef) : Prop where
  b0 : fIn (fNeg sixteen) sixteen r.b0 = true
  b1 : fIn (fNeg sixteen) sixteen r.b1 = true
  b2 : fIn (fNeg sixteen) sixteen r.b2 = true
  a0 : fIn one sixteen r.a0 = true
  a1 : fIn (fNeg sixteen) sixteen r.a1 = true
  a2 : fIn (fNeg sixteen) sixteen r.a2 = true

theorem rowOk_normalise {r : RawCoef} (h : BoundedRaw r) : rowOk (normalise r) = true := by
  have quot : ∀ v, fIn (fNeg sixteen) sixteen v = true → isFinite (fDiv v r.a0) = true := fun v hv =>
    isFinite_of_fIn (fIn_fDiv hv h.a0 (l := fNeg sixteen) (u := sixteen) (by decide +kernel)) (by decide +kernel)
      (by decide +kernel)
  simp [rowOk, normalise, quot _ h.b0, quot _ h.b1, quot _ h.b2, quot _ h.a1, quot _ h.a2]

/-- What the two shelves (R155, R156) share, in a flat section. -/
structure FlatShelf (m : CoefMid) : Prop where
  bigA : fIn one one m.bigA = true
  am : fIn posZero posZero (fSub m.bigA one) = true
  apC : fIn negTwo two (fMul (fAdd m.bigA one) m.cw) = true
  sq : fIn posZero one (fMul (fMul two (fSqrt m.bigA)) m.alpha) = true
  plus : fIn two two (fAdd (fAdd m.bigA one) (fMul (fSub m.bigA one) m.cw)) = true
  minus : fIn two two (fSub (fAdd m.bigA one) (fMul (fSub m.bigA one) m.cw)) = true

theorem FlatMid.shelf {m : CoefMid} (h : FlatMid m) : FlatShelf m := by
  have ap : fIn two two (fAdd m.bigA one) = true := by rw [h.bigA]; decide +kernel
  have am : fIn posZero posZero (fSub m.bigA one) = true := by rw [h.bigA]; decide +kernel
  have sqrtA : fIn two two (fMul two (fSqrt m.bigA)) = true := by rw [h.bigA]; decide +kernel
  have amC : fIn posZero posZero (fMul (fSub m.bigA one) m.cw) = true := fIn_fMul am h.cw (by decide +kernel)
  exact
    { bigA := by rw [h.bigA]; decide +kernel
      am := am
      apC := fIn_fMul ap h.cw (by decide +kernel)
      sq := fIn_fMul sqrtA h.alpha (by decide +kernel)
      plus := fIn_fAdd ap amC (by decide +kernel)
      minus := fIn_fSub ap amC (by decide +kernel) }

theorem lowshelfRaw_bounded {m : CoefMid} (h : FlatMid m) : BoundedRaw (lowshelfRaw m) := by
  obtain ⟨hA, am, apC, sq, plus, minus⟩ := h.shelf
  have twoA : fIn two two (fMul two m.bigA) = true :=
    fIn_fMul (la := two) (ua := two) (by decide +kernel) hA (by decide +kernel)
  exact
    { b0 := fIn_fMul hA (fIn_fAdd minus sq (l := one) (u := sixteen) (by decide +kernel)) (by decide +kernel)
      b1 := fIn_fMul twoA (fIn_fSub am apC (l := negTwo) (u := two) (by decide +kernel)) (by decide +kernel)
      b2 := fIn_fMul hA (fIn_fSub minus sq (l := one) (u := sixteen) (by decide +kernel)) (by decide +kernel)
      a0 := fIn_fAdd plus sq (by decide +kernel)
      a1 := fIn_fMul (la := negTwo) (ua := negTwo) (by decide +kernel)
        (fIn_fAdd am apC (l := negTwo) (u := two) (by decide +kernel)) (by decide +kernel)
      a2 := fIn_fSub plus sq (by decide +kernel) }

theorem highshelfRaw_bounded {m : CoefMid} (h : FlatMid m) : BoundedRaw (highshelfRaw m) := by
  obtain ⟨hA, am, apC, sq, plus, minus⟩ := h.shelf
  have negTwoA : fIn negTwo negTwo (fMul negTwo m.bigA) = true :=
    fIn_fMul (la := negTwo) (ua := negTwo) (by decide +kernel) hA (by decide +kernel)
  exact
    { b0 := fIn_fMul hA (fIn_fAdd plus sq (l := one) (u := sixteen) (by decide +kernel)) (by decide +kernel)
      b1 := fIn_fMul negTwoA (fIn_fAdd am apC (l := negTwo) (u := two) (by decide +kernel)) (by decide +kernel)
      b2 := fIn_fMul hA (fIn_fSub plus sq (l := one) (u := sixteen) (by decide +kernel)) (by decide +kernel)
      a0 := fIn_fAdd minus sq (by decide +kernel)
      a1 := fIn_fMul (la := two) (ua := two) (by decide +kernel)
        (fIn_fSub am apC (l := negTwo) (u := two) (by decide +kernel)) (by decide +kernel)
      a2 := fIn_fSub minus sq (by decide +kernel) }

theorem peakingRaw_bounded {m : CoefMid} (h : FlatMid m) : BoundedRaw (peakingRaw m) := by
  have one_in : fIn one one one = true := by decide +kernel
  have hA : fIn one one m.bigA = true := by rw [h.bigA]; exact one_in
  have prod : fIn posZero half (fMul m.alpha m.bigA) = true := fIn_fMul h.alpha hA (by decide +kernel)
  have quot : fIn posZero half (fDiv m.alpha m.bigA) = true := fIn_fDiv h.alpha hA (by decide +kernel)
  have mid : fIn (fNeg sixteen) sixteen (fMul negTwo m.cw) = true :=
    fIn_fMul (la := negTwo) (ua := negTwo) (by decide +kernel) h.cw (by decide +kernel)
  exact
    { b0 := fIn_fAdd one_in prod (by decide +kernel)
      b1 := mid
      b2 := fIn_fSub one_in prod (by decide +kernel)
      a0 := fIn_fAdd one_in quot (by decide +kernel)
      a1 := mid
      a2 := fIn_fSub one_in quot (by decide +kernel) }

/-- The row of a flat section is finite (R159, R332). -/
theorem rowOk_coef_flat {p : Params} (h : strapsLegal p = true) (k : Kind) {f : V}
    (hf : fIn Config.fLo (fHi p) f = true) :
    rowOk (coef p k f (fMul Config.qDefault (qScale .quality)) posZero) = true := by
  have mid := coefMid_flat h hf
  refine rowOk_normalise ?_
  cases k with
  | lowshelf => exact lowshelfRaw_bounded mid
  | peaking => exact peakingRaw_bounded mid
  | highshelf => exact highshelfRaw_bounded mid

/-! ### Memory spaces of finite values -/

theorem memFinite_iff (m : Mem) : memFinite m = true ↔ ∀ c ∈ m, isFinite c.2 = true := by
  simp [memFinite, List.all_eq_true]

theorem mem_cellsFrom {base : Nat} {vs : List V} {c : Nat × V} (h : c ∈ cellsFrom base vs) : c.2 ∈ vs := by
  induction vs generalizing base with
  | nil => simp [cellsFrom] at h
  | cons v vs ih =>
    simp only [cellsFrom] at h
    split at h
    · exact List.mem_cons_of_mem _ (ih h)
    · rcases List.mem_cons.mp h with rfl | h
      · exact List.mem_cons_self
      · exact List.mem_cons_of_mem _ (ih h)

/-- A cell after a store is one of the new elements, or an old cell outside the range stored. -/
theorem mem_memStore {m : Mem} {base : Nat} {vs : List V} {c : Nat × V} (h : c ∈ memStore m base vs) :
    c.2 ∈ vs ∨ c ∈ m := by
  unfold memStore at h
  rcases List.mem_append.mp h with h | h
  · rcases List.mem_append.mp h with h | h
    · exact .inr (List.mem_of_mem_filter h)
    · exact .inl (mem_cellsFrom h)
  · exact .inr (List.mem_of_mem_filter h)

theorem memFinite_memStore {m : Mem} {base : Nat} {vs : List V} (hm : memFinite m = true)
    (hv : ∀ v ∈ vs, isFinite v = true) : memFinite (memStore m base vs) = true := by
  rw [memFinite_iff] at hm ⊢
  intro c hc
  exact (mem_memStore hc).elim (hv c.2) (hm c)

theorem memFinite_memWrite {m : Mem} {i : Nat} {v : V} (hm : memFinite m = true) (hv : isFinite v = true) :
    memFinite (memWrite m i v) = true := memFinite_memStore hm (by simpa using hv)

theorem memFinite_memShift {m : Mem} (k : Nat) (hm : memFinite m = true) : memFinite (memShift m k) = true := by
  rw [memFinite_iff] at hm ⊢
  intro c hc
  obtain ⟨d, hd, rfl⟩ := List.mem_map.mp hc
  exact hm d (List.mem_of_mem_filter hd)

/-! ### The limiter's configuration and derived registers (41_dynamics R180 to R182) -/

/-- The operands SETL applies are not NaN (R131). -/
def limiterNoNaN (x : LimiterParams) : Prop :=
  isNaN x.attack = false ∧ isNaN x.threshold = false ∧ isNaN x.knee = false ∧ isNaN x.lookaheadMs = false ∧
    isNaN x.rmsTimeMs = false

/-- The limiter after a valid SETL (R180). -/
def setlDyn (p : Params) (enabled : Bool) (det : DetectorMode) (x : LimiterParams) (d : Dynamics) : Dynamics :=
  let e := dynDerive p (setlConfig enabled det (clampLimiter x) d)
  if enableEdge d.enabled enabled then dynClear e else e

/-- A property that the derivation gives and the clear keeps holds after SETL. -/
theorem setlDyn_of {P : Dynamics → Prop} {p : Params} {enabled : Bool} {det : DetectorMode} {x : LimiterParams}
    {d : Dynamics} (h : P (dynDerive p (setlConfig enabled det (clampLimiter x) d))) (hc : ∀ e, P e → P (dynClear e)) :
    P (setlDyn p enabled det x d) := by
  unfold setlDyn
  dsimp only
  split
  · exact hc _ h
  · exact h

/-- R24: the coefficient of a time that is not negative lies in (0, 1.0]. -/
theorem coefUnit_kcoef {t : V} (h : fIn posZero (toF 1000000) t = true) : coefUnit (kcoef t) = true := by
  have sum : fIn one (toF 2000000) (fAdd one t) = true :=
    fIn_fAdd (la := one) (ua := one) (by decide +kernel) h (by decide +kernel)
  have quot : fIn (Config.lit 1 4000000) one (kcoef t) = true :=
    fIn_fDiv (la := one) (ua := one) (by decide +kernel) sum (by decide +kernel)
  simp only [fIn, Bool.and_eq_true] at quot
  have low : fLt posZero (Config.lit 1 4000000) = true := by decide +kernel
  simp only [coefUnit, quot.2, fLt_of_fLt_of_fLe low quot.1, Bool.and_self]

theorem fIn_secFrames {p : Params} (h : strapsLegal p = true) {t : V} (ht : fIn Config.attMin Config.attMax t = true) :
    fIn posZero (toF 1000000) (fMul t (fsf p)) = true := fIn_fMul ht (fIn_fsf h) (by decide +kernel)

theorem fIn_msFrames {p : Params} (h : strapsLegal p = true) {t : V}
    (ht : fIn Config.rmsMinMs Config.rmsMaxMs t = true) : fIn posZero (toF 1000000) (msFrames p t) = true := by
  have prod : fIn posZero (toF 400000000) (fMul t (fsf p)) = true := fIn_fMul ht (fIn_fsf h) (by decide +kernel)
  exact fIn_fDiv prod (lb := thousand) (ub := thousand) (by decide +kernel) (by decide +kernel)

theorem dynConfigOk_iff (d : Dynamics) : dynConfigOk d = true ↔
    fIn Config.thMin Config.thMax d.thresholdLinear = true ∧ fIn Config.kneeMin Config.kneeMax d.kneeDb = true ∧
    d.ratio = Config.ratio ∧ fIn Config.attMin Config.attMax d.attackSec = true ∧ d.releaseSec = Config.relSec ∧
    fIn Config.laMinMs Config.laMaxMs d.lookaheadMs = true ∧
    fIn Config.rmsMinMs Config.rmsMaxMs d.rmsWindowMs = true := by
  simp only [dynConfigOk, Bool.and_eq_true, beq_iff_eq, and_assoc]

theorem dynRunOk_iff (d : Dynamics) : dynRunOk d = true ↔
    coefUnit d.kA = true ∧ coefUnit d.kR = true ∧ coefUnit d.kRms = true ∧ isFinite d.g = true ∧
    nonNeg d.ms = true ∧ isFinite d.minRed = true ∧ memFinite d.dl.ch0 = true ∧ memFinite d.dl.ch1 = true := by
  simp only [dynRunOk, nonNeg, Bool.and_eq_true, and_assoc]

/-- SETL's clamps put the configuration in range (R47, R180). -/
theorem dynConfigOk_setlConfig {enabled : Bool} {det : DetectorMode} {x : LimiterParams} {d : Dynamics}
    (hd : dynConfigOk d = true) (hx : limiterNoNaN x) :
    dynConfigOk (setlConfig enabled det (clampLimiter x) d) = true := by
  obtain ⟨-, -, hratio, -, hrel, -, -⟩ := (dynConfigOk_iff d).mp hd
  obtain ⟨hatt, hth, hkn, hla, hrms⟩ := hx
  rw [dynConfigOk_iff]
  exact ⟨fIn_clamp hth (by decide +kernel) (by decide +kernel) (by decide +kernel),
    fIn_clamp hkn (by decide +kernel) (by decide +kernel) (by decide +kernel), hratio,
    fIn_clamp hatt (by decide +kernel) (by decide +kernel) (by decide +kernel), hrel,
    fIn_clamp hla (by decide +kernel) (by decide +kernel) (by decide +kernel),
    fIn_clamp hrms (by decide +kernel) (by decide +kernel) (by decide +kernel)⟩

/-- The derived coefficients of a configuration in range lie in (0, 1.0] (R48, R181). -/
theorem coefUnit_dynDerive {p : Params} (h : strapsLegal p = true) {d : Dynamics} (hd : dynConfigOk d = true) :
    coefUnit (dynDerive p d).kA = true ∧ coefUnit (dynDerive p d).kR = true ∧ coefUnit (dynDerive p d).kRms = true := by
  obtain ⟨-, -, -, hatt, hrel, -, hrms⟩ := (dynConfigOk_iff d).mp hd
  have hrel' : fIn Config.attMin Config.attMax d.releaseSec = true := by rw [hrel]; decide +kernel
  exact ⟨coefUnit_kcoef (fIn_secFrames h hatt), coefUnit_kcoef (fIn_secFrames h hrel'),
    coefUnit_kcoef (fIn_msFrames h hrms)⟩

/-- The limiter's two value invariants (R47 to R49). -/
def dynOk (d : Dynamics) : Prop := dynConfigOk d = true ∧ dynRunOk d = true

theorem dynOk_dynDerive {p : Params} (h : strapsLegal p = true) {d : Dynamics} (hd : dynConfigOk d = true)
    (hg : isFinite d.g = true) (hms : nonNeg d.ms = true) (hmin : isFinite d.minRed = true)
    (h0 : memFinite d.dl.ch0 = true) (h1 : memFinite d.dl.ch1 = true) : dynOk (dynDerive p d) := by
  obtain ⟨kA, kR, kRms⟩ := coefUnit_dynDerive h hd
  exact ⟨hd, (dynRunOk_iff _).mpr ⟨kA, kR, kRms, hg, hms, hmin, h0, h1⟩⟩

theorem dynOk_dynClear (d : Dynamics) (h : dynOk d) : dynOk (dynClear d) := by
  obtain ⟨kA, kR, kRms, -⟩ := (dynRunOk_iff d).mp h.2
  exact ⟨h.1, (dynRunOk_iff _).mpr
    ⟨kA, kR, kRms, isFinite_one, nonNeg_posZero, isFinite_one, rfl, rfl⟩⟩

theorem dynOk_setlDyn {p : Params} (h : strapsLegal p = true) {enabled : Bool} {det : DetectorMode} {x : LimiterParams}
    {d : Dynamics} (hd : dynOk d) (hx : limiterNoNaN x) : dynOk (setlDyn p enabled det x d) := by
  obtain ⟨-, -, -, hg, hms, hmin, h0, h1⟩ := (dynRunOk_iff d).mp hd.2
  exact setlDyn_of (dynOk_dynDerive h (dynConfigOk_setlConfig hd.1 hx) hg hms hmin h0 h1) dynOk_dynClear

/-- The limiter at reset (R332). -/
theorem dynOk_dynReset {p : Params} (h : strapsLegal p = true) : dynOk (dynReset p) :=
  dynOk_dynDerive h (by decide +kernel) (by decide +kernel) (by decide +kernel) (by decide +kernel) rfl rfl

/-! ### The limiter's datapath (41_dynamics R183 to R186) -/

/-- Both components of a frame are finite. -/
def stereoFinite (x : Stereo V) : Prop := isFinite x.ch0 = true ∧ isFinite x.ch1 = true

/-- The guarded mean square is not negative (R184): it moves from `ms` towards `m*m` by a part of the way, so no
rounding takes it past 0. -/
theorem nonNeg_meanSquare {d : Dynamics} (m : V) (hk : coefUnit d.kRms = true) (hms : nonNeg d.ms = true) :
    nonNeg (sanV (meanSquareRaw d m)) = true := by
  by_cases hf : isFinite (meanSquareRaw d m) = true
  · refine nonNeg_sanV ?_
    unfold meanSquareRaw at hf ⊢
    obtain ⟨fms, fprod⟩ := isFinite_of_fAdd hf
    obtain ⟨fk, fdiff⟩ := isFinite_of_fMul fprod
    obtain ⟨fsq, -⟩ := isFinite_of_fAdd (a := fMul m m) (b := fNeg d.ms) fdiff
    obtain ⟨fm, -⟩ := isFinite_of_fMul fsq
    simp only [coefUnit, Bool.and_eq_true] at hk
    have hk0 := (fLt_iff (by decide) fk).mp hk.1
    have hk1 := (fLe_iff fk (by decide)).mp hk.2
    have hms0 := ((nonNeg_iff d.ms).mp hms).2
    rw [fInt_posZero] at hk0
    rw [fInt_one] at hk1
    have fneg : isFinite (fNeg d.ms) = true := by simpa using fms
    have sq : 0 ≤ fInt (fMul m m) := by
      have := le_fMul (c := posZero) fm fm (by decide) (by rw [fInt_posZero]; nlinarith [mul_self_nonneg (fInt m)])
      have := (fLe_iff (by decide) fsq).mp this
      rwa [fInt_posZero] at this
    have diff : -fInt d.ms ≤ fInt (fSub (fMul m m) d.ms) := by
      have := le_fAdd (c := fNeg d.ms) fsq fneg fneg (by omega)
      rw [← fSub_eq, fLe_iff fneg fdiff, fInt_fNeg] at this
      exact this
    have prod : -fInt d.ms ≤ fInt (fMul d.kRms (fSub (fMul m m) d.ms)) := by
      have := le_fMul (c := fNeg d.ms) fk fdiff fneg (by rw [fInt_fNeg]; nlinarith)
      rwa [fLe_iff fneg fprod, fInt_fNeg] at this
    exact le_fAdd fms fprod (by decide) (by rw [fInt_posZero]; omega)
  · rw [Bool.not_eq_true] at hf
    rw [sanV_of_not_isFinite hf]
    exact nonNeg_posZero

theorem detectLevel_st (stereo : Bool) (t : Nat) (x : Stereo V) (d : Dynamics) :
    (detectLevel stereo t x d).st = d ∨
      (detectLevel stereo t x d).st = { d with ms := sanV (meanSquareRaw d (linkedMag stereo x)) } := by
  unfold detectLevel
  cases d.detectorMode
  · exact .inl rfl
  · exact .inr rfl

theorem dynOk_detectLevel (stereo : Bool) (t : Nat) (x : Stereo V) {d : Dynamics} (h : dynOk d) :
    dynOk (detectLevel stereo t x d).st := by
  rcases detectLevel_st stereo t x d with hs | hs <;> rw [hs]
  · exact h
  · obtain ⟨kA, kR, kRms, hg, hms, hrest⟩ := (dynRunOk_iff d).mp h.2
    exact ⟨h.1, (dynRunOk_iff _).mpr ⟨kA, kR, kRms, hg, nonNeg_meanSquare _ kRms hms, hrest⟩⟩

theorem dynOk_dynProcess (p : Params) (stereo : Bool) (t : Nat) {x : Stereo V} {d : Dynamics} (hx : stereoFinite x)
    (h : dynOk d) : dynOk (dynProcess p stereo t x d).st := by
  obtain ⟨hcfg, hrun⟩ := dynOk_detectLevel stereo t x h
  obtain ⟨-, -, -, -, -, hmin, h0, h1⟩ := (dynRunOk_iff d).mp h.2
  obtain ⟨kA, kR, kRms, -, hms, -⟩ := (dynRunOk_iff _).mp hrun
  refine ⟨hcfg, (dynRunOk_iff _).mpr ⟨kA, kR, kRms, isFinite_sanV _, hms, isFinite_fMin hmin (isFinite_sanV _),
    memFinite_memWrite h0 hx.1, ?_⟩⟩
  cases stereo
  · exact h1
  · exact memFinite_memWrite h1 hx.2

/-- R277: what the limiter sends on is finite. -/
theorem stereoFinite_dynProcess (p : Params) (stereo : Bool) (t : Nat) (x : Stereo V) (d : Dynamics) :
    stereoFinite (dynProcess p stereo t x d).out := by
  refine ⟨isFinite_sanV _, ?_⟩
  cases stereo
  · exact isFinite_posZero
  · exact isFinite_sanV _

/-! ### The exciter (42_exciter R213 to R216) -/

theorem excOk_iff (e : Exciter) : excOk e = true ↔
    isFinite e.userGain = true ∧ excChanOk e.ch.ch0 = true ∧ excChanOk e.ch.ch1 = true ∧
    fIn posZero one e.actGain = true := by
  simp only [excOk, Bool.and_eq_true, and_assoc]

theorem excChanOk_iff (k : ExcChan) : excChanOk k = true ↔
    nonNeg k.envFast = true ∧ nonNeg k.envSlow = true ∧ nonNeg k.tail = true ∧ isFinite k.hpX1 = true ∧
    isFinite k.hpY1 = true ∧ isFinite k.nzHp = true ∧ isFinite k.nzX1 = true := by
  simp only [excChanOk, Bool.and_eq_true, and_assoc]

/-- A ramp step of legal straps lies in [0, 1.0] (R211). -/
theorem fIn_rampSteps {p : Params} (h : strapsLegal p = true) :
    fIn posZero one (upStep p) = true ∧ fIn posZero one (downStep p) = true := by
  have up : fIn one (toF 400000) (fMul Config.rampUpSec (fsf p)) = true :=
    fIn_fMul (la := Config.rampUpSec) (ua := Config.rampUpSec) (by decide +kernel) (fIn_fsf h) (by decide +kernel)
  have down : fIn one (toF 400000) (fMul Config.rampDownSec (fsf p)) = true :=
    fIn_fMul (la := Config.rampDownSec) (ua := Config.rampDownSec) (by decide +kernel) (fIn_fsf h) (by decide +kernel)
  exact ⟨fIn_fDiv (la := one) (ua := one) (by decide +kernel) up (by decide +kernel),
    fIn_fDiv (la := one) (ua := one) (by decide +kernel) down (by decide +kernel)⟩

/-- The ramp stays in [0, 1.0] (R213). -/
theorem fIn_excRamp {p : Params} (h : strapsLegal p = true) {e : Exciter} (he : fIn posZero one e.actGain = true) :
    fIn posZero one (excRamp p e).actGain = true := by
  obtain ⟨up, down⟩ := fIn_rampSteps h
  have sum : fIn posZero two (fAdd e.actGain (upStep p)) = true := fIn_fAdd he up (by decide +kernel)
  have diff : fIn negOne one (fSub e.actGain (downStep p)) = true := fIn_fSub he down (by decide +kernel)
  simp only [fIn, Bool.and_eq_true] at sum diff
  unfold excRamp
  split
  · exact fIn_fMin sum.1 (by decide +kernel)
  · exact fIn_fMax diff.2 (by decide +kernel)

theorem excOk_excRamp {p : Params} (h : strapsLegal p = true) {e : Exciter} (he : excOk e = true) :
    excOk (excRamp p e) = true := by
  obtain ⟨hg, h0, h1, hr⟩ := (excOk_iff e).mp he
  have := fIn_excRamp h hr
  rw [excRamp_st]
  exact (excOk_iff _).mpr ⟨hg, h0, h1, this⟩

/-- A noise sample is finite, as it lies in [-1.0, 1.0] (R216). -/
theorem isFinite_noiseOf (r : Word) : isFinite (noiseOf r) = true := by
  have hr : r.toNat / 2 ^ 8 ≤ 2 ^ 24 := by
    have := r.isLt
    omega
  have scaled : fIn posZero two (fMul (toF (r.toNat / 2 ^ 8)) twoPowNeg23) = true :=
    fIn_fMul (fIn_toF (Nat.zero_le _) hr) (lb := twoPowNeg23) (ub := twoPowNeg23) (by decide +kernel)
      (by decide +kernel)
  have : fIn negOne one (noiseOf r) = true :=
    fIn_fSub scaled (lb := one) (ub := one) (by decide +kernel) (by decide +kernel)
  exact isFinite_of_fIn this (by decide +kernel) (by decide +kernel)

/-- A guarded follower of values that are not negative is not negative (R214). -/
theorem nonNeg_envRaw {a b env h : V} (ha : fIn posZero one a = true) (hb : fIn posZero one b = true)
    (henv : nonNeg env = true) (hh : nonNeg h = true) : nonNeg (sanV (envRaw a b env h)) = true := by
  obtain ⟨f1, n1⟩ := (nonNeg_iff _).mp (nonNeg_fMul ha henv)
  obtain ⟨f2, n2⟩ := (nonNeg_iff _).mp (nonNeg_fMul hb hh)
  exact nonNeg_sanV (le_fAdd f1 f2 (by decide) (by rw [fInt_posZero]; omega))

/-- The trigger lies between 0 and the fast follower (R214), whether or not its product overflows. -/
theorem nonNeg_trigger {ef es : V} (hf : nonNeg ef = true) (hs : nonNeg es = true) : nonNeg (trigger ef es) = true := by
  obtain ⟨fs, ns⟩ := (nonNeg_iff es).mp hs
  obtain ⟨ff, -⟩ := (nonNeg_iff ef).mp hf
  have hK : 0 ≤ fInt Config.trigK := by decide +kernel
  have prod : fLe posZero (fMul Config.trigK es) = true :=
    le_fMul (by decide +kernel) fs (by decide) (by rw [fInt_posZero]; positivity)
  have hz : fIn posZero ef (trigger ef es) = true := by
    refine fIn_fMax (fSub_le_self ff prod) ?_
    simp only [nonNeg, Bool.and_eq_true] at hf
    exact hf.2
  have fin := isFinite_of_fIn hz (by decide) ff
  simp only [fIn, Bool.and_eq_true] at hz
  simp only [nonNeg, fin, hz.1, Bool.and_self]

theorem nonNeg_tailNext {tail trig : V} (ht : nonNeg tail = true) (hg : nonNeg trig = true) :
    nonNeg (tailNext tail trig) = true := by
  unfold tailNext
  split
  · exact hg
  · rw [fMul_comm]
    exact nonNeg_fMul (by decide +kernel) ht

/-- A sample keeps a channel's synthesis state in range (R51, R214). -/
theorem excChanOk_excChanNext {k : ExcChan} {x nz : V} (hk : excChanOk k = true) (hx : isFinite x = true)
    (hnz : isFinite nz = true) : excChanOk (excChanNext k x nz) = true := by
  obtain ⟨hf, hs, ht, -⟩ := (excChanOk_iff k).mp hk
  have hh := nonNeg_fAbs (isFinite_sanV (highpassRaw Config.hpAlpha k.hpY1 x k.hpX1))
  have fast := nonNeg_envRaw (a := Config.aFast) (b := oneMinusFast) (by decide +kernel) (by decide +kernel) hf hh
  have slow := nonNeg_envRaw (a := Config.aSlow) (b := oneMinusSlow) (by decide +kernel) (by decide +kernel) hs hh
  exact (excChanOk_iff _).mpr ⟨fast, slow, nonNeg_tailNext ht (nonNeg_trigger fast slow), hx, isFinite_sanV _,
    isFinite_sanV _, hnz⟩

theorem excOk_excProcess {e : Exciter} (c : Chan) (t : Nat) {x : V} (hx : isFinite x = true) (he : excOk e = true) :
    excOk (excProcess e c t x).st = true := by
  obtain ⟨hg, h0, h1, hr⟩ := (excOk_iff e).mp he
  unfold excProcess
  split
  · cases c
    · exact (excOk_iff _).mpr ⟨hg, excChanOk_excChanNext h0 hx (isFinite_noiseOf _), h1, hr⟩
    · exact (excOk_iff _).mpr ⟨hg, h0, excChanOk_excChanNext h1 hx (isFinite_noiseOf _), hr⟩
  · exact he

/-- R277: what the exciter sends on is finite. -/
theorem isFinite_excProcess (e : Exciter) (c : Chan) (t : Nat) {x : V} (hx : isFinite x = true) :
    isFinite (excProcess e c t x).out = true := by
  unfold excProcess
  split
  · exact isFinite_sanV _
  · exact hx

theorem excOk_excReset : excOk excReset = true := by decide +kernel

/-! ### The noise generator (R216) -/

/-- A word is settled by its xor with itself moved up: each bit follows from the bits below it. -/
theorem xor_shiftLeft_injective {k : Nat} (hk : 0 < k) : Function.Injective fun r : Word => r ^^^ (r <<< k) := by
  intro r q h
  apply BitVec.eq_of_getLsbD_eq
  intro i
  induction i using Nat.strong_induction_on with
  | _ i ih =>
    intro hi
    have hb := congrArg (fun w : Word => w.getLsbD i) h
    simp only [BitVec.getLsbD_xor, BitVec.getLsbD_shiftLeft, hi, decide_true, Bool.true_and] at hb
    by_cases hik : i < k
    · simpa [hik] using hb
    · simpa [hik, ih (i - k) (by omega) (by omega)] using hb

theorem xor_shiftRight_injective {k : Nat} (hk : 0 < k) : Function.Injective fun r : Word => r ^^^ (r >>> k) := by
  intro r q h
  have bits : ∀ j i, 32 ≤ i + j → r.getLsbD i = q.getLsbD i := by
    intro j
    induction j with
    | zero =>
      intro i hi
      rw [BitVec.getLsbD_of_ge _ _ (by omega), BitVec.getLsbD_of_ge _ _ (by omega)]
    | succ j ih =>
      intro i hi
      have hb := congrArg (fun w : Word => w.getLsbD i) h
      simp only [BitVec.getLsbD_xor, BitVec.getLsbD_ushiftRight] at hb
      simpa [ih (k + i) (by omega)] using hb
  exact BitVec.eq_of_getLsbD_eq fun i _ => bits 32 i (by omega)

theorem rngNext_injective : Function.Injective rngNext :=
  (xor_shiftLeft_injective (k := 5) (by decide)).comp
    ((xor_shiftRight_injective (k := 17) (by decide)).comp (xor_shiftLeft_injective (k := 13) (by decide)))

/-- The generator never reaches 0, its one fixed point (R216). -/
theorem rngNext_ne_zero {r : Word} (h : r ≠ 0) : rngNext r ≠ 0 := fun h0 =>
  h (rngNext_injective (h0.trans (by decide : (0 : Word) = rngNext 0)))

theorem excProcess_rng {e : Exciter} (c : Chan) (t : Nat) (x : V) (h : e.rng ≠ 0) :
    (excProcess e c t x).st.rng ≠ 0 := by
  unfold excProcess
  split
  · exact rngNext_ne_zero h
  · exact h

/-! ### The FilterBank (40_filterbank R150 to R160) -/

theorem fbOk_iff (p : Params) (fb : FilterBank) : fbOk p fb = true ↔
    (∀ (i : Nat) (h : i < Config.nBands), sectionOk p fb.sections[i] = true) ∧
    ∀ c, (chGet fb.hist c).toList.all biquadFinite = true := by
  have chan : (∀ c, (chGet fb.hist c).toList.all biquadFinite = true) ↔
      fb.hist.ch0.toList.all biquadFinite = true ∧ fb.hist.ch1.toList.all biquadFinite = true :=
    ⟨fun h => ⟨h .c0, h .c1⟩, fun h c => by cases c; exacts [h.1, h.2]⟩
  rw [chan]
  simp only [fbOk, Vector.all_toList, Vector.all_eq_true, Bool.and_eq_true, and_assoc]

/-- Operands in the ranges of R42. -/
def paramsInRange (p : Params) (x : FilterParams) : Bool :=
  fIn Config.fLo (fHi p) x.frequency && fIn Config.gLo Config.gHi x.gain && fIn Config.qLo Config.qHi x.q

theorem sectionOk_eq (p : Params) (x : Section) : sectionOk p x = (paramsInRange p (paramsOf x) && rowOk x.row) := rfl

/-- What a control packet does to one section: nothing, or a finite row of parameters that are the section's own or,
the straps being legal, in range. -/
def SectionWrite (p : Params) (old new : Section) : Prop :=
  new = old ∨ rowOk new.row = true ∧
    (paramsOf new = paramsOf old ∨ (strapsLegal p = true → paramsInRange p (paramsOf new) = true))

theorem SectionWrite.ok {p : Params} {old new : Section} (h : SectionWrite p old new) (hp : strapsLegal p = true)
    (ho : sectionOk p old = true) : sectionOk p new = true := by
  rcases h with rfl | ⟨hrow, hpar⟩
  · exact ho
  · rw [sectionOk_eq, Bool.and_eq_true] at ho ⊢
    refine ⟨?_, hrow⟩
    rcases hpar with hpar | hpar
    · rw [hpar]
      exact ho.1
    · exact hpar hp

theorem withParams_write {p : Params} {mode : QualityMode} {i : Nat} {old : Section} {x : FilterParams}
    (h : x = paramsOf old ∨ (strapsLegal p = true → paramsInRange p x = true)) :
    SectionWrite p old (withParams p mode i old x) := by
  unfold withParams
  dsimp only
  split
  · rename_i hrow
    exact .inr ⟨hrow, h⟩
  · exact .inl rfl

/-- MODF's clamps put its operands in range (R150). -/
theorem paramsInRange_clampFilter {p : Params} (hp : strapsLegal p = true) {x : FilterParams}
    (hf : isNaN x.frequency = false) (hg : isNaN x.gain = false) (hq : isNaN x.q = false) :
    paramsInRange p (clampFilter p x) = true := by
  have f := fIn_clamp hf (by decide +kernel) (isNaN_of_isFinite (isFinite_fHi hp)) (fLe_fLo_fHi hp)
  have g := fIn_clamp hg (lo := Config.gLo) (hi := Config.gHi)
    (by decide +kernel) (by decide +kernel) (by decide +kernel)
  have q := fIn_clamp hq (lo := Config.qLo) (hi := Config.qHi)
    (by decide +kernel) (by decide +kernel) (by decide +kernel)
  simp only [paramsInRange, clampFilter, f, g, q, Bool.and_self]

theorem isNaN_center (i : Fin Config.nBands) : isNaN Config.center[i] = false := by revert i; decide +kernel

/-- RSTF's parameters are those of a MODF of `CENTER[i]`, 0 dB and `Q_DEFAULT` (R151). -/
theorem resetParams_eq (p : Params) (i : Fin Config.nBands) :
    resetParams p i = clampFilter p ⟨Config.center[i], posZero, Config.qDefault⟩ := by
  have hg : clamp posZero Config.gLo Config.gHi = posZero := by decide +kernel
  have hq : clamp Config.qDefault Config.qLo Config.qHi = Config.qDefault := by decide +kernel
  simp only [resetParams, clampFilter, hg, hq]

/-- The parameters of a section after RSTF, and at reset (R151, R332). -/
theorem paramsInRange_resetParams {p : Params} (hp : strapsLegal p = true) (i : Fin Config.nBands) :
    paramsInRange p (resetParams p i) = true := by
  rw [resetParams_eq]
  exact paramsInRange_clampFilter hp (isNaN_center i) (isNaN_of_isFinite isFinite_posZero)
    (isNaN_of_isFinite (by decide +kernel : isFinite Config.qDefault = true))

/-- The FilterBank at reset (R332). -/
theorem fbOk_fbReset {p : Params} (hp : strapsLegal p = true) : fbOk p (fbReset p) = true := by
  refine (fbOk_iff p _).mpr ⟨fun i hi => ?_, fun c => ?_⟩
  · have hpar := paramsInRange_resetParams hp ⟨i, hi⟩
    have hf : fIn Config.fLo (fHi p) (resetParams p ⟨i, hi⟩).frequency = true := by
      simp only [paramsInRange, Bool.and_eq_true] at hpar
      exact hpar.1.1
    simp only [fbReset, Vector.getElem_ofFn]
    rw [sectionOk_eq, Bool.and_eq_true]
    exact ⟨hpar, rowOk_coef_flat hp _ hf⟩
  · have zero : (Vector.replicate Config.nBands (⟨posZero, posZero, posZero, posZero⟩ : Biquad)).toList.all
        biquadFinite = true := by decide +kernel
    cases c <;> exact zero

/-- Guarded samples through the cascade: its output and its filter state stay finite (R45, R160). -/
theorem cascade_finite (sections : Vector Section Config.nBands) (hist : Vector Biquad Config.nBands) (c : Chan)
    (t : Nat) {x : V} (hx : isFinite x = true) (hh : hist.toList.all biquadFinite = true) (k : Nat) :
    isFinite (cascade sections hist c t x k).out = true ∧
      (cascade sections hist c t x k).st.toList.all biquadFinite = true := by
  induction k with
  | zero => exact ⟨hx, hh⟩
  | succ k ih =>
    obtain ⟨hv, hst⟩ := ih
    by_cases hk : k < Config.nBands
    · simp only [cascade, hk, dif_pos]
      refine ⟨isFinite_sanV _, ?_⟩
      rw [Vector.all_toList, Vector.all_eq_true] at hh hst ⊢
      intro i hi
      rw [Vector.getElem_set]
      split
      · have := hh k hk
        simp only [biquadFinite, Bool.and_eq_true] at this
        simp [biquadFinite, biquadShift, hv, this, biquadOut]
      · exact hst i hi
    · simpa only [cascade, hk, dif_neg, not_false_iff] using ⟨hv, hst⟩

theorem fbProcess_hist {fb : FilterBank} (c : Chan) (t : Nat) {x : V} (hx : isFinite x = true)
    (h : ∀ c, (chGet fb.hist c).toList.all biquadFinite = true) :
    ∀ d, (chGet (fbProcess fb c t x).st.hist d).toList.all biquadFinite = true := by
  have hc := (cascade_finite fb.sections _ c t hx (h c) Config.nBands).2
  intro d
  cases c <;> cases d
  · exact hc
  · exact h .c1
  · exact h .c0
  · exact hc

/-! ### The analyzer and the meter (41_dynamics R188, 43_spectrum R240 to R250) -/

theorem specOk_iff (p : Params) (x : Spectrum) : specOk p x = true ↔
    fIn Config.fpsMin Config.fpsMax x.fps = true ∧ isFinite x.fpr = true ∧ fLt posZero x.fpr = true ∧
    fLe x.fpr (fsf p) = true ∧ x.acc.toNat < p.fs + 2 * p.block ∧ memFinite x.sb = true := by
  simp only [specOk, Bool.and_eq_true, decide_eq_true_eq, and_assoc]

theorem tlmOk_iff (t : Telemetry) : tlmOk t = true ↔
    isFinite t.red = true ∧ fLe t.red posZero = true ∧ ∀ c ∈ t.mem, fIn posZero one c.2 = true := by
  simp only [tlmOk, Bool.and_eq_true, List.all_eq_true, and_assoc]

/-- The interval of a frame rate in its range is positive and at most `FSf` (R240). -/
theorem interval_ok {p : Params} (h : strapsLegal p = true) {f : V} (hf : fIn Config.fpsMin Config.fpsMax f = true) :
    isFinite (fDiv (fsf p) f) = true ∧ fLt posZero (fDiv (fsf p) f) = true ∧ fLe (fDiv (fsf p) f) (fsf p) = true := by
  have range : fIn one (toF 400000) (fDiv (fsf p) f) = true := fIn_fDiv (fIn_fsf h) hf (by decide +kernel)
  obtain ⟨ff, f1, -⟩ := (fIn_iff (by decide +kernel) (by decide +kernel)).mp hf
  obtain ⟨fs, s1, -⟩ := (fIn_iff (by decide +kernel) (by decide +kernel)).mp (fIn_fsf h)
  rw [show fInt Config.fpsMin = 2 ^ 149 by decide +kernel] at f1
  have h0 : 0 ≤ fInt (fsf p) := le_trans (by decide +kernel) s1
  refine ⟨isFinite_of_fIn range (by decide +kernel) (by decide +kernel), ?_, ?_⟩
  · simp only [fIn, Bool.and_eq_true] at range
    exact fLt_of_fLt_of_fLe (show fLt posZero one = true by decide +kernel) range.1
  · exact fDiv_le fs ff fs (by omega) (Int.mul_le_mul_of_nonneg_left f1 h0)

/-- A value not below `l`, cut at `u`. -/
theorem fIn_capped {l u v : V} (hv : fLe l v = true) (hl : fLe l u = true) :
    fIn l u (if fLt u v then u else v) = true := by
  simp only [fIn, Bool.and_eq_true]
  split
  · exact ⟨hl, fLe_refl (isNaN_of_fLe hl).2⟩
  · rename_i h
    exact ⟨hv, fLe_of_not_fLt (isNaN_of_fLe hl).2 (isNaN_of_fLe hv).2 (by simpa using h)⟩

/-- The reduction reported is finite and at most 0, whatever `log10` gives (R188). -/
theorem reductionDb_ok (m : V) : isFinite (reductionDb m) = true ∧ fLe (reductionDb m) posZero = true := by
  have range : fIn Config.redFloorDb posZero (reductionDb m) = true := by
    unfold reductionDb
    refine fIn_capped ?_ (by decide +kernel)
    split
    · decide +kernel
    · rename_i hr
      simp only [Bool.or_eq_true, not_or, Bool.not_eq_true] at hr
      exact fLe_of_not_fLt hr.1 (by decide +kernel) hr.2
  refine ⟨isFinite_of_fIn range (by decide +kernel) (by decide), ?_⟩
  simp only [fIn, Bool.and_eq_true] at range
  exact range.2

/-- Every magnitude lies in [0, 1.0], whatever `log10` gives (R248). -/
theorem fIn_binLevel (e : V) : fIn posZero one (binLevel e) = true := by
  unfold binLevel binDb
  generalize fMul twenty (fLog10 (fAdd (fSqrt e) Config.eps)) = r
  dsimp only
  split
  · decide +kernel
  · rename_i hn
    have hr : isNaN r = false := by
      by_contra h
      rw [Bool.not_eq_false] at h
      apply hn
      have hc : clamp r Config.dbLo Config.dbHi = r := by simp [clamp, fLt_eq, h]
      have hs : fAdd r hundred = 0x7FC00000#32 := by simp [fAdd_eq, h]
      rw [hc, hs]
      decide +kernel
    have db := fIn_clamp hr (lo := Config.dbLo) (hi := Config.dbHi) (by decide +kernel) (by decide +kernel)
      (by decide +kernel)
    have sum : fIn posZero hundred (fAdd (clamp r Config.dbLo Config.dbHi) hundred) = true :=
      fIn_fAdd db (lb := hundred) (ub := hundred) (by decide +kernel) (by decide +kernel)
    exact fIn_fDiv sum (lb := hundred) (ub := hundred) (by decide +kernel) (by decide +kernel)

theorem mem_specMag {w : Work} {v : V} (h : v ∈ specMag w) : fIn posZero one v = true := by
  obtain ⟨k, -, rfl⟩ := List.mem_map.mp h
  exact fIn_binLevel _

/-- The telemetry after an emit (R250). -/
theorem tlmOk_tlmEmit {t : Telemetry} (w : Work) (m : V) (sbr : Bool) (h : tlmOk t = true) :
    tlmOk (tlmEmit (specMag w) (reductionDb m) sbr t) = true := by
  obtain ⟨-, -, hm⟩ := (tlmOk_iff t).mp h
  obtain ⟨hf, h0⟩ := reductionDb_ok m
  exact (tlmOk_iff _).mpr ⟨hf, h0, fun c hc => (mem_memStore hc).elim mem_specMag (hm c)⟩

theorem isFinite_mixOf (stereo : Bool) {x : Stereo V} (hx : stereoFinite x) : isFinite (mixOf stereo x) = true := by
  cases stereo
  · exact hx.1
  · exact isFinite_sanV _

theorem memFinite_specPush (stereo : Bool) {sb : Mem} {out : List (Stereo V)} (hsb : memFinite sb = true)
    (ho : ∀ x ∈ out, stereoFinite x) : memFinite (specPush sb (out.map (mixOf stereo))) = true := by
  refine memFinite_memStore (memFinite_memShift _ hsb) fun v hv => ?_
  obtain ⟨x, hx, rfl⟩ := List.mem_map.mp hv
  exact isFinite_mixOf stereo (ho x hx)

/-- A counter at which the cadence does not fire is below `FS`, as the interval is at most `FSf` (R54, R243). -/
theorem lt_fs_of_not_tickFires {p : Params} {acc : BitVec 32} {fpr : V} (hr : fLe fpr (fsf p) = true)
    (hf : tickFires acc fpr = false) : acc.toNat < p.fs := by
  by_contra h
  have := fLe_trans hr (toF_mono (not_lt.mp h))
  simp [tickFires, this] at hf

theorem specOk_specReset {p : Params} (h : strapsLegal p = true) : specOk p (specReset p) = true := by
  have hf : fIn Config.fpsMin Config.fpsMax fpsReset = true := by decide +kernel
  obtain ⟨fin, pos, le⟩ := interval_ok h hf
  obtain ⟨h1, -⟩ := (strapsLegal_iff p).mp h
  exact (specOk_iff _ _).mpr ⟨hf, fin, pos, le, by show 0 < _; omega, rfl⟩

theorem tlmOk_tlmReset : tlmOk tlmReset = true := by decide +kernel

end Sys2Proof.Machine


/-! PROOFS. What a step can do: one inversion lemma for a control packet, for a port and for the step (44_orchestrator
R279 to R281). -/

namespace Sys2Proof.Machine

open Relation

/-! ### What a control packet can do (40 to 44, one section each) -/

theorem firstNan_eq_none_iff (vs : List V) : firstNan vs = none ↔ ∀ v ∈ vs, isNaN v = false := by
  induction vs with
  | nil => simp [firstNan]
  | cons v vs ih => cases h : isNaN v <;> simp [firstNan, h, ih]

theorem gainReason_eq_none_iff (op : Op) (g : V) : gainReason op g = none ↔ isFinite g = true := by
  unfold gainReason
  cases hf : isFinite g with
  | true => simp [isNaN_of_isFinite hf]
  | false => cases isNaN g <;> simp

/-- One write of a control packet other than SETL to the configuration. -/
inductive ConfigWrite (s : State) : State → Prop
  | ignored (es : List Event) : ConfigWrite s { s with events := es }
  | gain (g : V) (es : List Event) (hg : isFinite g = true) : ConfigWrite s { s with gain := g, events := es }
  | sections (secs : Vector Section Config.nBands) (m : QualityMode) (es : List Event)
      (h : ∀ (i : Nat) (hi : i < Config.nBands), SectionWrite s.par s.fb.sections[i] secs[i]) :
      ConfigWrite s { s with fb := { s.fb with sections := secs, qmode := m }, events := es }
  | exciter (enabled : Bool) (g : V) (es : List Event) (hg : isFinite g = true) :
      ConfigWrite s { s with exc := { s.exc with enabled := enabled, userGain := g }, events := es }
  | rate (f : V) (es : List Event) (hf : fIn Config.fpsMin Config.fpsMax f = true) :
      ConfigWrite s { s with spec := { s.spec with fps := f, fpr := fDiv (fsf s.par) f }, events := es }

/-- What SETL does (R180): nothing but the event, or the limiter's registers. -/
inductive LimiterWrite (s : State) : State → Prop
  | kept (es : List Event) : LimiterWrite s { s with events := es }
  | set (enabled : Bool) (det : DetectorMode) (x : LimiterParams) (es : List Event) (hx : limiterNoNaN x) :
      LimiterWrite s { s with dyn := setlDyn s.par enabled det x s.dyn, events := es }

theorem applyModg_write (g : V) (s : State) : ConfigWrite s (applyModg g s) := by
  unfold applyModg
  split
  · exact .ignored _
  · rename_i h
    exact .gain g s.events ((gainReason_eq_none_iff _ _).mp h)

theorem applyModf_write (index : BitVec 8) (x : FilterParams) (s : State) : ConfigWrite s (applyModf index x s) := by
  unfold applyModf
  split
  · exact .ignored _
  · rename_i hr
    split
    · rename_i hi
      refine .sections _ s.fb.qmode _ fun j hj => ?_
      rw [Vector.getElem_set]
      split
      · rename_i hij
        subst hij
        refine withParams_write (.inr fun hp => ?_)
        have hn : firstNan [x.frequency, x.gain, x.q] = none := by
          simpa [invalidReason, Nat.not_le.mpr hi, nanReason] using hr
        simp only [firstNan_eq_none_iff, List.forall_mem_cons] at hn
        obtain ⟨hf, hg, hq, -⟩ := hn
        exact paramsInRange_clampFilter hp hf hg hq
      · exact .inl rfl
    · exact .ignored _

theorem applyRstf_write (s : State) : ConfigWrite s (applyRstf s) := by
  refine .sections _ s.fb.qmode _ fun i hi => ?_
  rw [Vector.getElem_ofFn]
  exact withParams_write (.inr fun hp => paramsInRange_resetParams hp _)

theorem applySetq_write (mode : BitVec 2) (s : State) : ConfigWrite s (applySetq mode s) := by
  unfold applySetq
  split
  · exact .ignored _
  · refine .sections _ _ _ fun i hi => ?_
    rw [Vector.getElem_ofFn]
    exact withParams_write (.inl rfl)

theorem applySetx_write (enabled : Bool) (g : V) (s : State) : ConfigWrite s (applySetx enabled g s) := by
  unfold applySetx
  split
  · exact .ignored _
  · rename_i h
    exact .exciter enabled g s.events ((gainReason_eq_none_iff _ _).mp h)

theorem applySetv_write (f : V) (s : State) : ConfigWrite s (applySetv f s) := by
  unfold applySetv
  split
  · exact .ignored _
  · rename_i h
    have hn : isNaN f = false := by
      simpa [invalidReason, nanReason, firstNan_eq_none_iff] using h
    exact .rate _ _ (fIn_clamp hn (by decide +kernel) (by decide +kernel) (by decide +kernel))

theorem applySetl_write (enabled : Bool) (det : DetectorMode) (x : LimiterParams) (s : State) :
    LimiterWrite s (applySetl enabled det x s) := by
  unfold applySetl
  split
  · exact .kept _
  · rename_i h
    refine .set enabled det x _ ?_
    have hn : firstNan [x.attack, x.threshold, x.knee, x.lookaheadMs, x.rmsTimeMs] = none := by
      simpa [invalidReason, nanReason] using h
    simp only [firstNan_eq_none_iff, List.forall_mem_cons] at hn
    obtain ⟨h1, h2, h3, h4, h5, -⟩ := hn
    exact ⟨h1, h2, h3, h4, h5⟩

/-- What a control packet does: writes to the configuration, with at most one of the limiter among them. -/
def ControlRun (s t : State) : Prop :=
  ∃ u v, ReflTransGen ConfigWrite s u ∧ LimiterWrite u v ∧ ReflTransGen ConfigWrite v t

theorem ControlRun.of_config {s t : State} (h : ConfigWrite s t) : ControlRun s t :=
  ⟨s, s, .refl, .kept s.events, .single h⟩

theorem ControlRun.of_limiter {s t : State} (h : LimiterWrite s t) : ControlRun s t := ⟨s, t, .refl, h, .refl⟩

theorem applyFilters_writes (i : Nat) (xs : List FilterParams) (s : State) :
    ReflTransGen ConfigWrite s (applyFilters i xs s) := by
  induction xs generalizing i s with
  | nil => exact .refl
  | cons x xs ih => exact (ReflTransGen.single (applyModf_write _ x s)).trans (ih _ _)

theorem applyInit_run (p : InitPacket) (s : State) : ControlRun s (applyInit p s) :=
  ⟨_, _, (((ReflTransGen.single (applyModg_write p.gain s)).tail (applySetq_write p.qualityMode _)).trans
      (applyFilters_writes 0 p.filters _)).tail (applySetx_write p.sbrEnabled p.sbrGain _),
    applySetl_write p.limiterEnabled p.detectorMode p.limiter _, .single (applySetv_write p.fps _)⟩

/-- Every control packet answers a next state. -/
theorem exec_ctrl {i : Instr} (h : opIsCtrl (opOfInstr i) = true) (s : State) :
    ∃ t, exec i s = .next t ∧ ControlRun s t := by
  cases i with
  | init p => exact ⟨_, rfl, applyInit_run p s⟩
  | modf index x => exact ⟨_, rfl, .of_config (applyModf_write index x s)⟩
  | modg g => exact ⟨_, rfl, .of_config (applyModg_write g s)⟩
  | rstf => exact ⟨_, rfl, .of_config (applyRstf_write s)⟩
  | setq mode => exact ⟨_, rfl, .of_config (applySetq_write mode s)⟩
  | setx enabled g => exact ⟨_, rfl, .of_config (applySetx_write enabled g s)⟩
  | setl enabled det x => exact ⟨_, rfl, .of_limiter (applySetl_write enabled det x s)⟩
  | setv f => exact ⟨_, rfl, .of_config (applySetv_write f s)⟩
  | proc p => cases h
  | aout p => cases h
  | tlm p => cases h

/-- A property that each write keeps is kept by a control packet. -/
theorem ControlRun.keeps {P : State → Prop} (hc : ∀ {s t}, ConfigWrite s t → P s → P t)
    (hl : ∀ {s t}, LimiterWrite s t → P s → P t) {s t : State} (h : ControlRun s t) (hs : P s) : P t := by
  have many : ∀ {s t}, ReflTransGen ConfigWrite s t → P s → P t := by
    intro s t h hs
    induction h with
    | refl => exact hs
    | tail _ hw ih => exact hc hw ih
  obtain ⟨u, v, hsu, huv, hvt⟩ := h
  exact many hvt (hl huv (many hsu hs))

/-! ### What a step can do (44_orchestrator R280) -/

/-- `t` differs from `s` at most in the queue and the ports, the host's side and the history; the queue stays within its
depth. -/
structure PortsOnly (s t : State) : Prop where
  rest : t = { s with cq := t.cq, ctrlBuf := t.ctrlBuf, ainBuf := t.ainBuf, aout := t.aout, tlmo := t.tlmo
                      aoutSent := t.aoutSent, tlmSent := t.tlmSent, events := t.events, host := t.host }
  queue : s.cq.length ≤ s.par.cqDepth → t.cq.length ≤ s.par.cqDepth

theorem PortsOnly.par {s t : State} (h : PortsOnly s t) : t.par = s.par := by rw [h.rest]

/-- What one packet or one move of a port does. -/
inductive MoveCase (s : State) : State → Prop
  | ports {t : State} (h : PortsOnly s t) : MoveCase s t
  | control {t : State} (h : ControlRun s t) : MoveCase s t
  | audio (p : AudioPacket) : MoveCase s (procBlock p s)

theorem exec_cases {i : Instr} {s t : State} (h : exec i s = .next t) : MoveCase s t := by
  by_cases hc : opIsCtrl (opOfInstr i) = true
  · obtain ⟨u, hu, run⟩ := exec_ctrl hc s
    obtain rfl : u = t := by simpa [h] using hu.symm
    exact .control run
  · cases i with
    | proc p =>
      simp only [exec, execProc] at h
      split at h
      · cases h
        exact .audio p
      · cases h
    | aout p =>
      cases h
      exact .ports ⟨rfl, id⟩
    | tlm p =>
      cases h
      exact .ports ⟨rfl, id⟩
    | _ => exact absurd rfl hc

/-- What a step can do: a move of the block or of a port, after the move's word or packet has been taken, or a reset,
all that illegal straps leave (R331). -/
inductive StepCase (s : State) : State → Prop
  | move {u t : State} (hp : strapsLegal s.par = true) (hu : PortsOnly s u) (h : MoveCase u t) : StepCase s t
  | reset (u : State) (straps : Params) : StepCase s (resetBlock u straps)

theorem ctrlApply_cases {o : CtrlOutcome} {s t : State} (h : ctrlApply o s = .next t) : MoveCase s t := by
  cases o with
  | apply i => exact exec_cases h
  | ignorePacket i r =>
    cases h
    exact .ports ⟨rfl, id⟩
  | ignoreRaw w r =>
    cases h
    exact .ports ⟨rfl, id⟩

theorem blockMove_cases {s t : State} (hp : strapsLegal s.par = true) (h : blockMove s = .next t) : StepCase s t := by
  have idle : StepCase s s := .move hp ⟨rfl, id⟩ (.ports ⟨rfl, id⟩)
  unfold blockMove at h
  split at h
  · rename_i o rest hcq
    refine .move hp ⟨rfl, fun hq => ?_⟩ (ctrlApply_cases h)
    have : s.cq.length = rest.length + 1 := by rw [hcq]; rfl
    show rest.length ≤ s.par.cqDepth
    omega
  · unfold audioMove at h
    split at h
    · cases h
      exact idle
    · split at h
      · cases h
        exact idle
      · cases h
      · exact .move (u := { s with ainBuf := [] }) hp ⟨rfl, id⟩ (exec_cases h)

theorem takeCtrlWord_ports {s : State} (w : Word) (h : ctrlReady s = true) : PortsOnly s (takeCtrlWord s w) := by
  simp only [ctrlReady, decide_eq_true_eq] at h
  unfold takeCtrlWord
  split
  · exact ⟨rfl, id⟩
  · split
    · exact ⟨rfl, id⟩
    · exact ⟨rfl, fun _ => by simpa using h⟩

theorem readTlm_ports (s : State) : PortsOnly s (readTlm s) := by
  unfold readTlm
  split <;> exact ⟨rfl, id⟩

theorem PortsOnly.trans {s t u : State} (h : PortsOnly s t) (k : PortsOnly t u) : PortsOnly s u := by
  have ⟨h1, h2⟩ := h
  have ⟨k1, k2⟩ := k
  refine ⟨by rw [k1, h1], fun hq => ?_⟩
  rw [h.par] at k2
  exact k2 (h2 hq)

/-- A step of the state a host's move leaves is a step of the state before it. -/
theorem StepCase.after {s u t : State} (hu : PortsOnly s u) (h : StepCase u t) : StepCase s t := by
  cases h with
  | move hl hv h => exact .move (hu.par ▸ hl) (hu.trans hv) h
  | reset v straps => exact .reset v straps

theorem hostMove_cases {m : HostMove} {s u t : State} (hp : strapsLegal s.par = true) (hu : PortsOnly s u)
    (h : hostMove m s u = .next t) : StepCase s t := by
  have hup : strapsLegal u.par = true := by rw [hu.par]; exact hp
  have ports : ∀ {v}, PortsOnly u v → StepCase s v := fun hv => .move hp hu (.ports hv)
  cases m with
  | ctrl w =>
    simp only [hostMove] at h
    split at h
    · rename_i hr
      cases h
      exact ports (takeCtrlWord_ports w hr)
    · exact blockMove_cases hp h
  | ain w =>
    simp only [hostMove] at h
    split at h
    · cases h
      exact ports ⟨rfl, id⟩
    · exact blockMove_cases hp h
  | takeAout =>
    simp only [hostMove] at h
    split at h
    · exact .move hp hu (exec_cases h)
    · exact blockMove_cases hp h
  | takeTlm =>
    simp only [hostMove] at h
    split at h
    · exact .move hp hu (exec_cases h)
    · cases h
      exact ports ⟨rfl, id⟩
  | readTlm =>
    cases h
    exact ports (readTlm_ports u)
  | reset straps =>
    cases h
    exact .reset u straps
  | wait => exact (blockMove_cases hup h).after hu

theorem step_cases {s t : State} (h : step s = .next t) : StepCase s t := by
  unfold step stepBlock at h
  split at h
  · rename_i hp
    unfold legalStep at h
    split at h
    · exact blockMove_cases hp h
    · rename_i m rest _
      exact hostMove_cases (u := { s with host := rest }) hp ⟨rfl, id⟩ h
  · split at h
    · cases h
      exact .reset _ _
    · cases h

end Sys2Proof.Machine


/-! PROOFS. What an audio block can do: its frames, then the cadence with at most one emit (44_orchestrator R273,
R274). -/

namespace Sys2Proof.Machine

/-! ### What an audio block can do (44_orchestrator R273, R274) -/

/-- The channels of a frame (R128). -/
def hasChannel (stereo : Bool) (c : Chan) : Prop := c = .c0 ∨ stereo = true

/-- What each stage of the datapath keeps of the FilterBank, the exciter and the limiter, in the channels of the frame
and on finite input; the limiter is a stage only while it is enabled. -/
structure KeptByStages (p : Params) (stereo : Bool) (P : FilterBank → Exciter → Dynamics → Prop) : Prop where
  ramp : ∀ {b e d}, P b e d → P b (excRamp p e) d
  filter : ∀ {b e d} c t x, hasChannel stereo c → isFinite x = true → P b e d → P (fbProcess b c t x).st e d
  exciter : ∀ {b e d} c t x, hasChannel stereo c → isFinite x = true → P b e d → P b (excProcess e c t x).st d
  limiter : ∀ {b e d} t x, d.enabled = true → stereoFinite x → P b e d → P b e (dynProcess p stereo t x d).st

/-- R277: a channel's sample is finite after the exciter. -/
theorem isFinite_channelStep (c : Chan) (t : Nat) (x : V) (s : State) : isFinite (channelStep c t x s).1 = true :=
  isFinite_excProcess _ _ _ (isFinite_sanV _)

theorem stereoFinite_channels (stereo : Bool) (t : Nat) (x : Stereo V) (s : State) :
    stereoFinite (channels stereo t x s).1 := by
  unfold channels
  cases stereo
  · exact ⟨isFinite_channelStep _ _ _ _, isFinite_posZero⟩
  · exact ⟨isFinite_channelStep _ _ _ _, isFinite_channelStep _ _ _ _⟩

theorem stereoFinite_frame (stereo : Bool) (t : Nat) (x : Stereo V) (s : State) :
    stereoFinite (frame stereo t x s).1 := by
  unfold frame limiter
  dsimp only
  split
  · exact stereoFinite_dynProcess _ _ _ _ _
  · exact stereoFinite_channels _ _ _ _

/-- R277: every frame of a block is finite. -/
theorem stereoFinite_frames (stereo : Bool) (t : Nat) (xs : List (Stereo V)) (s : State) :
    ∀ y ∈ (frames stereo t xs s).1, stereoFinite y := by
  induction xs generalizing t s with
  | nil => simp [frames]
  | cons x xs ih =>
    intro y hy
    rcases List.mem_cons.mp hy with rfl | hy
    · exact stereoFinite_frame _ _ _ _
    · exact ih _ _ y hy

section
variable {P : FilterBank → Exciter → Dynamics → Prop}

theorem channelStep_keeps {p : Params} {stereo : Bool} (k : KeptByStages p stereo P) {c : Chan}
    (hc : hasChannel stereo c) (t : Nat) (x : V) {s : State} (h : P s.fb s.exc s.dyn) :
    P (channelStep c t x s).2.fb (channelStep c t x s).2.exc (channelStep c t x s).2.dyn :=
  k.exciter c t _ hc (isFinite_sanV _) (k.filter c t _ hc (isFinite_sanV x) h)

theorem channels_keeps {p : Params} {stereo : Bool} (k : KeptByStages p stereo P) (t : Nat) (x : Stereo V) {s : State}
    (h : P s.fb s.exc s.dyn) :
    P (channels stereo t x s).2.fb (channels stereo t x s).2.exc (channels stereo t x s).2.dyn := by
  have h0 := channelStep_keeps k (.inl rfl) t x.ch0 h
  unfold channels
  cases stereo
  · exact h0
  · exact channelStep_keeps k (.inr rfl) t x.ch1 h0

theorem frame_keeps {stereo : Bool} (t : Nat) (x : Stereo V) {s : State} (k : KeptByStages s.par stereo P)
    (h : P s.fb s.exc s.dyn) :
    P (frame stereo t x s).2.fb (frame stereo t x s).2.exc (frame stereo t x s).2.dyn := by
  have hc := channels_keeps k t x (s := { s with exc := excRamp s.par s.exc }) (k.ramp h)
  have hp := (channels_frameOnly stereo t x { s with exc := excRamp s.par s.exc }).par
  unfold frame limiter
  dsimp only at hp ⊢
  split
  · rename_i he
    rw [hp]
    exact k.limiter t _ he (stereoFinite_channels _ _ _ _) hc
  · exact hc

/-- What every stage keeps is kept by the frames of a block. -/
theorem frames_keeps {stereo : Bool} (t : Nat) (xs : List (Stereo V)) {s : State} (k : KeptByStages s.par stereo P)
    (h : P s.fb s.exc s.dyn) :
    P (frames stereo t xs s).2.fb (frames stereo t xs s).2.exc (frames stereo t xs s).2.dyn := by
  induction xs generalizing t s with
  | nil => exact h
  | cons x xs ih =>
    have hp := (frame_frameOnly stereo t x s).par
    exact ih (t + 1) (hp ▸ k) (frame_keeps t x k h)

end

/-- The frames of a block and the state they leave. -/
def blockFrames (p : AudioPacket) (s : State) : List (Stereo V) × State :=
  frames (isStereo p.nch) 0 (planarFrames s.par.block p.samples) s

/-- The state in which the cadence of a block ticks: its frames processed, its mix in the window (R273). -/
def blockPushed (p : AudioPacket) (s : State) : State :=
  let a := blockFrames p s
  raise { a.2 with spec := { a.2.spec with sb := specPush a.2.spec.sb (a.1.map (mixOf (isStereo p.nch))) } }
    (mixEvents (isStereo p.nch) 0 a.1)

/-- Apart from the window, the frames of a block write what a frame may (R59). -/
theorem blockPushed_frameOnly (p : AudioPacket) (s : State) :
    FrameOnly { s with spec := { s.spec with
      sb := specPush s.spec.sb ((blockFrames p s).1.map (mixOf (isStereo p.nch))) } } (blockPushed p s) := by
  have h : FrameOnly s (blockFrames p s).2 := frames_frameOnly _ _ _ _
  refine ⟨?_, h.dyn, h.exc⟩
  unfold blockPushed
  dsimp only
  rw [h.spec]
  exact congrArg (fun a : State => raise { a with spec := { s.spec with
    sb := specPush s.spec.sb ((blockFrames p s).1.map (mixOf (isStereo p.nch))) } }
    (mixEvents (isStereo p.nch) 0 (blockFrames p s).1)) h.rest

/-- The FilterBank, the exciter and the limiter after the frames of a block. -/
theorem blockPushed_keeps {P : FilterBank → Exciter → Dynamics → Prop} (p : AudioPacket) {s : State}
    (k : KeptByStages s.par (isStereo p.nch) P) (h : P s.fb s.exc s.dyn) :
    P (blockPushed p s).fb (blockPushed p s).exc (blockPushed p s).dyn := frames_keeps _ _ k h

theorem procBlock_eq (p : AudioPacket) (s : State) : procBlock p s = deliverAout (specTick (blockPushed p s))
    { nch := p.nch, samples := planarSamples p.nch (blockFrames p s).1 } := rfl

/-- The sample counter the cadence tests (R243). -/
def nextAcc (s : State) : BitVec 32 := s.spec.acc + BitVec.ofNat 32 s.par.block

/-- The end of a block: the cadence does not fire, or it does and one emit follows (R243, R250); then the packet is at
port AOUT. -/
inductive BlockEnd (s : State) : State → Prop
  | silent (out : AudioPacket) (h : tickFires (nextAcc s) s.spec.fpr = false) :
      BlockEnd s { s with spec := { s.spec with acc := nextAcc s }, aout := some out }
  | emits (out : AudioPacket) (sbr : Bool) (tp : TlmPacket) (h : tickFires (nextAcc s) s.spec.fpr = true) :
      BlockEnd s
        { s with
          spec := { s.spec with acc := 0 }
          exc := excDetect s.par (transform s.spec.sb) (nextAcc s).toNat s.exc
          dyn := { s.dyn with minRed := one }
          tlm := tlmEmit (specMag (transform s.spec.sb)) (reductionDb s.dyn.minRed) sbr s.tlm
          tlmo := some tp, aout := some out }

theorem procBlock_end (p : AudioPacket) (s : State) : BlockEnd (blockPushed p s) (procBlock p s) := by
  rw [procBlock_eq]
  rcases specTick_cases (blockPushed p s) with ⟨h, ht⟩ | ⟨h, ht⟩ <;> rw [ht]
  · exact .silent _ h
  · exact .emits _ _ _ h

end Sys2Proof.Machine


/-! PROOFS. The invariants of 10_state R60: each kind of move keeps them, and they hold at reset. -/

namespace Sys2Proof.Machine

/-! ### Invariants of the step -/

theorem FrameOnly.cq {s t : State} (h : FrameOnly s t) : t.cq = s.cq := by rw [h.rest]
theorem FrameOnly.tlm {s t : State} (h : FrameOnly s t) : t.tlm = s.tlm := by rw [h.rest]

/-- What each kind of move keeps. -/
structure KeptByMoves (P : State → Prop) : Prop where
  ports : ∀ {s t}, PortsOnly s t → P s → P t
  config : ∀ {s t}, ConfigWrite s t → P s → P t
  limiter : ∀ {s t}, LimiterWrite s t → P s → P t
  frames : ∀ (p : AudioPacket) {s}, strapsLegal s.par = true → P s → P (blockPushed p s)
  tick : ∀ {s t}, strapsLegal s.par = true → BlockEnd s t → P s → P t
  reset : ∀ s straps, P (resetBlock s straps)

/-- A property that every kind of move keeps is kept by every step. -/
theorem KeptByMoves.step {P : State → Prop} (k : KeptByMoves P) {s t : State} (h : step s = .next t) (hs : P s) :
    P t := by
  cases step_cases h with
  | @move u _ hp hu hm =>
    have hpu : strapsLegal u.par = true := hu.par ▸ hp
    have hPu := k.ports hu hs
    cases hm with
    | ports hv => exact k.ports hv hPu
    | control run => exact run.keeps k.config k.limiter hPu
    | audio p =>
      have hpush : strapsLegal (blockPushed p u).par = true := (blockPushed_frameOnly p u).par ▸ hpu
      exact k.tick hpush (procBlock_end p u) (k.frames p hpu hPu)
  | reset u straps => exact k.reset u straps

/-! ### The exciter's values (R50 to R52) -/

theorem excOk_excDetect (p : Params) (w : Work) (n : Nat) (e : Exciter) : excOk (excDetect p w n e) = excOk e := by
  rw [excDetect_st]
  rfl

theorem excOk_keptByMoves : KeptByMoves fun s => strapsLegal s.par = true → excOk s.exc = true where
  ports h := by rw [h.rest]; exact id
  config h := by
    cases h with
    | exciter enabled g es hg =>
      intro hs hp
      obtain ⟨-, h0, h1, hr⟩ := (excOk_iff _).mp (hs hp)
      exact (excOk_iff _).mpr ⟨hg, h0, h1, hr⟩
    | _ => exact id
  limiter h := by cases h <;> exact id
  frames p _ hp hs _ := blockPushed_keeps (P := fun _ e _ => excOk e = true) p
    { ramp := excOk_excRamp hp
      filter := fun _ _ _ _ _ => id
      exciter := fun c t _ _ => excOk_excProcess c t
      limiter := fun _ _ _ _ => id } (hs hp)
  tick _ h := by
    cases h with
    | silent out h => exact id
    | emits out sbr tp h => simpa only [excOk_excDetect] using id
  reset _ _ _ := excOk_excReset

/-- Settles O22: each write, each stage of the datapath and the detection keep the exciter's values in range. -/
theorem stepKeepsExciterValues : Obligations.StepKeepsExciterValues := fun _ _ _ hv hstep ht =>
  excOk_keptByMoves.step hstep (fun _ => hv) ht

/-! ### The limiter's values (R47 to R49) -/

theorem dynOk_keptByMoves : KeptByMoves fun s => strapsLegal s.par = true → dynOk s.dyn where
  ports h := by rw [h.rest]; exact id
  config h := by cases h <;> exact id
  limiter h := by
    cases h with
    | kept es => exact id
    | set enabled det x es hx => exact fun hs hp => dynOk_setlDyn hp (hs hp) hx
  frames p _ hp hs _ := blockPushed_keeps (P := fun _ _ d => dynOk d) p
    { ramp := id
      filter := fun _ _ _ _ _ => id
      exciter := fun _ _ _ _ _ => id
      limiter := fun t _ _ => dynOk_dynProcess _ _ t } (hs hp)
  tick _ h := by
    cases h with
    | silent out h => exact id
    | emits out sbr tp h =>
      intro hs hp
      obtain ⟨hcfg, hrun⟩ := hs hp
      obtain ⟨kA, kR, kRms, hg, hms, -, hdl⟩ := (dynRunOk_iff _).mp hrun
      exact ⟨hcfg, (dynRunOk_iff _).mpr ⟨kA, kR, kRms, hg, hms, isFinite_one, hdl⟩⟩
  reset _ _ := dynOk_dynReset

/-- Settles O21: SETL's clamps and derivations, the datapath (with the mean square not below 0) and the meter keep the
limiter's registers in range. -/
theorem stepKeepsLimiterValues : Obligations.StepKeepsLimiterValues := fun _ _ _ hv hstep ht => by
  rw [Bool.and_eq_true] at hv ⊢
  exact dynOk_keptByMoves.step hstep (fun _ => hv) ht

/-! ### The filter's values (R42 to R46) -/

theorem fbOk_keptByMoves :
    KeptByMoves fun s => strapsLegal s.par = true → fbOk s.par s.fb = true ∧ isFinite s.gain = true where
  ports h := by rw [h.rest]; exact id
  config h := by
    cases h with
    | gain g es hg => exact fun hs hp => ⟨(hs hp).1, hg⟩
    | sections secs m es hw =>
      intro hs hp
      obtain ⟨hfb, hgain⟩ := hs hp
      obtain ⟨hsec, hhist⟩ := (fbOk_iff _ _).mp hfb
      exact ⟨(fbOk_iff _ _).mpr ⟨fun i hi => (hw i hi).ok hp (hsec i hi), hhist⟩, hgain⟩
    | _ => exact id
  limiter h := by cases h <;> exact id
  frames p s hp hs _ := by
    obtain ⟨hfb, hgain⟩ := hs hp
    obtain ⟨hsec, hhist⟩ := (fbOk_iff _ _).mp hfb
    have hist := blockPushed_keeps (P := fun b _ _ => ∀ c, (chGet b.hist c).toList.all biquadFinite = true) p
      { ramp := id
        filter := fun c t _ _ => fbProcess_hist c t
        exciter := fun _ _ _ _ _ => id
        limiter := fun _ _ _ _ => id } hhist
    refine ⟨(fbOk_iff _ _).mpr ⟨?_, hist⟩, ?_⟩
    · rw [(blockPushed_frameOnly p _).sections, (blockPushed_frameOnly p _).par]
      exact hsec
    · rw [(blockPushed_frameOnly p _).gain]
      exact hgain
  tick _ h := by cases h <;> exact id
  reset _ _ hp := ⟨fbOk_fbReset hp, isFinite_one⟩

/-- Settles O20: every write of a section gives parameters in range and a finite row, and the cascade stores guarded
values. -/
theorem stepKeepsFilterValues : Obligations.StepKeepsFilterValues := fun _ _ _ hv hstep ht => by
  rw [Bool.and_eq_true] at hv ⊢
  exact fbOk_keptByMoves.step hstep (fun _ => hv) ht

/-! ### The analyzer's and the telemetry's values (R53 to R55) -/

theorem specOk_keptByMoves :
    KeptByMoves fun s => strapsLegal s.par = true → specOk s.par s.spec = true ∧ tlmOk s.tlm = true where
  ports h := by rw [h.rest]; exact id
  config h := by
    cases h with
    | rate f es hf =>
      intro hs hp
      obtain ⟨hspec, htlm⟩ := hs hp
      obtain ⟨-, -, -, -, hrest⟩ := (specOk_iff _ _).mp hspec
      obtain ⟨fin, pos, le⟩ := interval_ok hp hf
      exact ⟨(specOk_iff _ _).mpr ⟨hf, fin, pos, le, hrest⟩, htlm⟩
    | _ => exact id
  limiter h := by cases h <;> exact id
  frames p s hp hs _ := by
    obtain ⟨hspec, htlm⟩ := hs hp
    obtain ⟨hf, fin, pos, le, hacc, hsb⟩ := (specOk_iff _ _).mp hspec
    have hb := blockPushed_frameOnly p s
    rw [hb.spec, hb.par, hb.tlm]
    exact ⟨(specOk_iff _ _).mpr ⟨hf, fin, pos, le, hacc, memFinite_specPush _ hsb (stereoFinite_frames _ _ _ _)⟩, htlm⟩
  tick hp h := by
    cases h with
    | silent out h =>
      intro hs _
      obtain ⟨hspec, htlm⟩ := hs hp
      obtain ⟨hf, fin, pos, le, -, hsb⟩ := (specOk_iff _ _).mp hspec
      have := lt_fs_of_not_tickFires le h
      exact ⟨(specOk_iff _ _).mpr ⟨hf, fin, pos, le, by dsimp only; omega, hsb⟩, htlm⟩
    | emits out sbr tp h =>
      intro hs _
      obtain ⟨hspec, htlm⟩ := hs hp
      obtain ⟨hf, fin, pos, le, hacc, hsb⟩ := (specOk_iff _ _).mp hspec
      exact ⟨(specOk_iff _ _).mpr ⟨hf, fin, pos, le, Nat.zero_lt_of_lt hacc, hsb⟩, tlmOk_tlmEmit _ _ _ htlm⟩
  reset _ _ hp := ⟨specOk_specReset hp, tlmOk_tlmReset⟩

/-- Settles O23: the interval follows the rate, a counter that did not fire is below `FS`, and the magnitudes and the
reduction are clamped. -/
theorem stepKeepsSpectrumValues : Obligations.StepKeepsSpectrumValues := fun _ _ _ hv hstep ht => by
  rw [Bool.and_eq_true] at hv ⊢
  exact specOk_keptByMoves.step hstep (fun _ => hv) ht

/-- Settles O24: each component's invariant holds of its reset value. -/
theorem resetValuesAreInRange : Obligations.ResetValuesAreInRange := fun p hp => by
  obtain ⟨hcfg, hrun⟩ := dynOk_dynReset hp
  simp only [valuesOk, resetWith_par, resetWith_fb, resetWith_gain, resetWith_dyn, resetWith_exc, resetWith_spec,
    resetWith_tlm, fbOk_fbReset hp, isFinite_one, hcfg, hrun, excOk_excReset, specOk_specReset hp, tlmOk_tlmReset,
    Bool.and_self]

/-! ### Structure (R56, R60, R90) -/

/-- What `structureOk` says of the limiter (R47 to R49, R92). -/
def dynSound (p : Params) (d : Dynamics) : Prop :=
  d.wr < laCap p ∧ d.delay ≤ dMax p ∧ memWf (laCap p) d.dl.ch0 = true ∧ memWf (laCap p) d.dl.ch1 = true

/-- What it says of the exciter (R51, R52). -/
def excSound (p : Params) (e : Exciter) : Prop := e.hold.toNat ≤ holdSamples p ∧ e.rng ≠ 0

theorem structureOk_iff (s : State) : structureOk s = true ↔
    s.cq.length ≤ s.par.cqDepth ∧ dynSound s.par s.dyn ∧ excSound s.par s.exc ∧
    memWf Config.fftSize s.spec.sb = true ∧ memWf (Config.fftSize / 2) s.tlm.mem = true := by
  simp only [structureOk, dynSound, excSound, Bool.and_eq_true, decide_eq_true_eq, bne_iff_ne]
  tauto

theorem laCap_pos (p : Params) : 0 < laCap p := Nat.succ_pos _

theorem dynSound_dynDerive {p : Params} {d : Dynamics} (hwr : d.wr < laCap p) (h0 : memWf (laCap p) d.dl.ch0 = true)
    (h1 : memWf (laCap p) d.dl.ch1 = true) : dynSound p (dynDerive p d) := ⟨hwr, Nat.min_le_right _ _, h0, h1⟩

theorem dynSound_dynClear {p : Params} (d : Dynamics) (h : dynSound p d) : dynSound p (dynClear d) :=
  ⟨laCap_pos p, h.2.1, rfl, rfl⟩

theorem dynSound_dynProcess {p : Params} (stereo : Bool) (t : Nat) (x : Stereo V) {d : Dynamics} (h : dynSound p d) :
    dynSound p (dynProcess p stereo t x d).st := by
  obtain ⟨hwr, hdelay, h0, h1⟩ := h
  have hd : (dynProcess p stereo t x d).st.delay = d.delay := by rw [dynProcess_st]
  refine ⟨Nat.mod_lt _ (laCap_pos p), hd ▸ hdelay, memWrite_wf _ _ _ _ h0 hwr, ?_⟩
  cases stereo
  · exact h1
  · exact memWrite_wf _ _ _ _ h1 hwr

/-- The hold never exceeds `HOLD_SAMPLES` (R218). -/
theorem excSound_excDetect (p : Params) (w : Work) (n : Nat) {e : Exciter} (h : excSound p e) :
    excSound p (excDetect p w n e) := by
  have lt : ∀ k, (BitVec.ofNat 32 k).toNat ≤ k := fun k => by
    rw [BitVec.toNat_ofNat]
    exact Nat.mod_le _ _
  obtain ⟨hhold, hrng⟩ := h
  unfold excDetect holdUpdate
  split
  · exact ⟨lt _, hrng⟩
  · exact ⟨le_trans (lt _) (le_trans (Nat.sub_le _ _) hhold), hrng⟩

theorem memWf_specPush {sb : Mem} {mix : List V} (h : memWf Config.fftSize sb = true)
    (hm : mix.length ≤ Config.fftSize) : memWf Config.fftSize (specPush sb mix) = true :=
  memStore_wf _ _ _ _ (memShift_wf _ _ _ h) (by omega)

theorem length_blockFrames (p : AudioPacket) (s : State) : (blockFrames p s).1.length = s.par.block := by
  simp [blockFrames, frames_length, planarFrames]

theorem structureOk_resetWith (p : Params) : structureOk (State.resetWith p) = true :=
  (structureOk_iff _).mpr ⟨Nat.zero_le _, dynSound_dynDerive (laCap_pos p) rfl rfl,
    ⟨Nat.zero_le _, (by decide : Config.rngSeed ≠ 0)⟩, rfl, rfl⟩

theorem structureOk_keptByMoves : KeptByMoves fun s => structureOk s = true where
  ports h hs := by
    obtain ⟨hq, hrest⟩ := (structureOk_iff _).mp hs
    have := h.queue hq
    rw [h.rest]
    exact (structureOk_iff _).mpr ⟨this, hrest⟩
  config h hs := by cases h <;> exact hs
  limiter h hs := by
    cases h with
    | kept es => exact hs
    | set enabled det x es hx =>
      obtain ⟨hq, ⟨hwr, -, h0, h1⟩, hrest⟩ := (structureOk_iff _).mp hs
      exact (structureOk_iff _).mpr ⟨hq, setlDyn_of (dynSound_dynDerive hwr h0 h1) dynSound_dynClear, hrest⟩
  frames p s hp hs := by
    obtain ⟨hq, hdyn, hexc, hsb, htlm⟩ := (structureOk_iff _).mp hs
    obtain ⟨-, -, -, hblock, -⟩ := (strapsLegal_iff _).mp hp
    have parts := blockPushed_keeps (P := fun _ e d => dynSound s.par d ∧ excSound s.par e) p
      { ramp := fun {_ e _} h => by rw [excRamp_st]; exact h
        filter := fun _ _ _ _ _ => id
        exciter := fun {_ e _} c t x _ _ h => by
          have hr := excProcess_rng c t x h.2.2
          rw [excProcess_st]
          exact ⟨h.1, h.2.1, hr⟩
        limiter := fun t x _ _ h => ⟨dynSound_dynProcess _ t x h.1, h.2⟩ } ⟨hdyn, hexc⟩
    have hb := blockPushed_frameOnly p s
    rw [structureOk_iff, hb.cq, hb.par, hb.spec, hb.tlm]
    refine ⟨hq, parts.1, parts.2, memWf_specPush hsb ?_, htlm⟩
    rw [List.length_map, length_blockFrames]
    exact hblock
  tick _ h hs := by
    cases h with
    | silent out h => exact hs
    | emits out sbr tp h =>
      obtain ⟨hq, hdyn, hexc, hsb, htlm⟩ := (structureOk_iff _).mp hs
      exact (structureOk_iff _).mpr ⟨hq, hdyn, excSound_excDetect _ _ _ hexc, hsb,
        memStore_wf _ _ _ _ htlm (by simp [specMag])⟩
  reset s straps := structureOk_resetWith straps

/-- Settles O18: the index is 0, the delay is a minimum with `DMAX`, the generator holds its seed, the rest is empty. -/
theorem resetIsStructurallySound : Obligations.ResetIsStructurallySound := structureOk_resetWith

/-- Settles O19: CTRL takes a word only while `cq` has room, the write index is taken modulo `LA_CAP`, the generator is
injective, and each store is within its space. -/
theorem stepKeepsStructure : Obligations.StepKeepsStructure := fun _ _ hs hstep => structureOk_keptByMoves.step hstep hs

end Sys2Proof.Machine


/-! PROOFS. What control packets and audio blocks leave unchanged (10_state R59). -/

namespace Sys2Proof.Machine

open Relation Sys2Proof.Claims

/-! ### What control packets leave unchanged (R59, R104) -/

/-- `t` differs from `s` at most in what control packets may write: the configuration, the limiter's registers and the
history. -/
structure ControlFrame (s t : State) : Prop where
  rest : t = { s with
    fb := { s.fb with sections := t.fb.sections, qmode := t.fb.qmode }
    gain := t.gain
    dyn := t.dyn
    exc := { s.exc with enabled := t.exc.enabled, userGain := t.exc.userGain }
    spec := { s.spec with fps := t.spec.fps, fpr := t.spec.fpr }
    events := t.events }

theorem ControlFrame.trans {s t u : State} (h : ControlFrame s t) (k : ControlFrame t u) : ControlFrame s u := by
  obtain ⟨h⟩ := h
  obtain ⟨k⟩ := k
  exact ⟨by rw [k, h]⟩

/-- `e` keeps the limiter's fixed times and ratio and, unless it enables a disabled limiter, its runtime registers. -/
def sameDynRuntime (d e : Dynamics) : Prop :=
  e.ratio = d.ratio ∧ e.releaseSec = d.releaseSec ∧
    (d.enabled = true ∨ e.enabled = false → e.g = d.g ∧ e.ms = d.ms ∧ e.wr = d.wr ∧ e.minRed = d.minRed ∧ e.dl = d.dl)

theorem ConfigWrite.frame {s t : State} (h : ConfigWrite s t) : ControlFrame s t := by cases h <;> exact ⟨rfl⟩

theorem LimiterWrite.frame {s t : State} (h : LimiterWrite s t) : ControlFrame s t := by cases h <;> exact ⟨rfl⟩

theorem ControlRun.frame {s t : State} (h : ControlRun s t) : ControlFrame s t :=
  h.keeps (P := ControlFrame s) (fun hw hs => hs.trans hw.frame) (fun hw hs => hs.trans hw.frame) ⟨rfl⟩

theorem dyn_of_configWrites {s t : State} (h : ReflTransGen ConfigWrite s t) : t.dyn = s.dyn := by
  induction h with
  | refl => rfl
  | tail _ hw ih =>
    rw [← ih]
    cases hw <;> rfl

/-- The clear of R182 is at the enable edge only. -/
theorem sameDynRuntime_setlDyn (p : Params) (enabled : Bool) (det : DetectorMode) (x : LimiterParams) (d : Dynamics) :
    sameDynRuntime d (setlDyn p enabled det x d) := by
  unfold setlDyn
  dsimp only
  split
  · rename_i he
    refine ⟨rfl, rfl, fun h => ?_⟩
    have hen : (dynClear (dynDerive p (setlConfig enabled det (clampLimiter x) d))).enabled = enabled := rfl
    rw [hen] at h
    simp only [enableEdge, Bool.and_eq_true, Bool.not_eq_true'] at he
    simp [he] at h
  · exact ⟨rfl, rfl, fun _ => ⟨rfl, rfl, rfl, rfl, rfl⟩⟩

theorem ControlRun.dyn {s t : State} (h : ControlRun s t) : sameDynRuntime s.dyn t.dyn := by
  obtain ⟨u, v, hsu, huv, hvt⟩ := h
  rw [dyn_of_configWrites hvt, ← dyn_of_configWrites hsu]
  cases huv with
  | kept es => exact ⟨rfl, rfl, fun _ => ⟨rfl, rfl, rfl, rfl, rfl⟩⟩
  | set enabled det x es hx => exact sameDynRuntime_setlDyn _ _ _ _ _

/-- Settles O34: a control packet is a run of configuration writes with at most one of the limiter, and each write
names all it changes. -/
theorem controlPacketsKeepRuntimeState : Obligations.ControlPacketsKeepRuntimeState := by
  intro i s hi
  obtain ⟨t, ht, run⟩ := exec_ctrl hi s
  obtain ⟨hratio, hrel, hruntime⟩ := run.dyn
  refine ⟨t, ht, ?_⟩
  rw [run.frame.rest]
  exact ⟨rfl, rfl, rfl, hratio, hrel, hruntime, rfl, rfl, rfl, rfl, rfl, rfl, rfl, rfl, rfl, rfl, rfl, rfl, rfl, rfl,
    rfl⟩

/-! ### What an audio block leaves unchanged (R59, R161, R186, R243) -/

/-- What the end of a block may write besides the window. -/
theorem BlockEnd.rest {s t : State} (h : BlockEnd s t) : t = { s with
    spec := { s.spec with acc := t.spec.acc }
    exc := { s.exc with active := t.exc.active, hold := t.exc.hold }
    dyn := { s.dyn with minRed := t.dyn.minRed }
    tlm := t.tlm, tlmo := t.tlmo, aout := t.aout } := by
  cases h with
  | silent out h => rfl
  | emits out sbr tp h =>
    have hx := excDetect_st s.par (transform s.spec.sb) (nextAcc s).toNat s.exc
    simp only
    rw [← hx]

/-- A block at whose end the cadence does not fire leaves the telemetry, the classification and the hold (R243). -/
theorem BlockEnd.of_silent {s t : State} (h : BlockEnd s t) (hn : tickFires (nextAcc s) s.spec.fpr = false) :
    t.tlm = s.tlm ∧ t.tlmo = s.tlmo ∧ t.exc = s.exc := by
  cases h with
  | silent out h => exact ⟨rfl, rfl, rfl⟩
  | emits out sbr tp h => simp [hn] at h

theorem FrameOnly.dynConfig {s t : State} (h : FrameOnly s t) :
    sameDynConfig s.dyn t.dyn ∧ t.dyn.ratio = s.dyn.ratio ∧ t.dyn.releaseSec = s.dyn.releaseSec := by
  rw [h.dyn]
  exact ⟨⟨rfl, rfl, rfl, rfl, rfl, rfl, rfl, rfl, rfl, rfl, rfl⟩, rfl, rfl⟩

/-- The frames of a one-channel block leave channel 1 (R161). -/
theorem blockPushed_mono (p : AudioPacket) (s : State) (h : isStereo p.nch = false) :
    (blockPushed p s).fb.hist.ch1 = s.fb.hist.ch1 ∧ (blockPushed p s).exc.ch.ch1 = s.exc.ch.ch1 ∧
      (blockPushed p s).dyn.dl.ch1 = s.dyn.dl.ch1 := by
  have only0 : ∀ c, hasChannel (isStereo p.nch) c → c = .c0 := fun c hc => hc.resolve_right (by simp [h])
  refine blockPushed_keeps (P := fun b e d => b.hist.ch1 = s.fb.hist.ch1 ∧ e.ch.ch1 = s.exc.ch.ch1 ∧
    d.dl.ch1 = s.dyn.dl.ch1) p ?_ ⟨rfl, rfl, rfl⟩
  exact
    { ramp := fun {_ e _} k => by rw [excRamp_st]; exact k
      filter := fun c _ _ hc _ k => by
        obtain rfl := only0 c hc
        exact k
      exciter := fun c _ _ hc _ k => by
        obtain rfl := only0 c hc
        refine ⟨k.1, ?_, k.2.2⟩
        rw [← k.2.1]
        unfold excProcess
        split <;> rfl
      limiter := fun t x _ _ k => by
        rw [h]
        exact k }

/-- The frames of a block leave a disabled limiter (R186). -/
theorem blockPushed_bypass (p : AudioPacket) (s : State) (h : s.dyn.enabled = false) :
    (blockPushed p s).dyn = s.dyn :=
  blockPushed_keeps (P := fun _ _ d => d = s.dyn) p
    { ramp := id
      filter := fun _ _ _ _ _ => id
      exciter := fun _ _ _ _ _ => id
      limiter := fun _ _ he _ k => by simp [k, h] at he } rfl

theorem FrameOnly.ports {s t : State} (h : FrameOnly s t) :
    t.ctrlBuf = s.ctrlBuf ∧ t.ainBuf = s.ainBuf ∧ t.aoutSent = s.aoutSent ∧ t.tlmSent = s.tlmSent ∧ t.host = s.host ∧
      t.tlmo = s.tlmo := by
  rw [h.rest]
  exact ⟨rfl, rfl, rfl, rfl, rfl, rfl⟩

theorem FrameOnly.qmode {s t : State} (h : FrameOnly s t) : t.fb.qmode = s.fb.qmode := by rw [h.rest]

theorem FrameOnly.excKept {s t : State} (h : FrameOnly s t) :
    t.exc.userGain = s.exc.userGain ∧ t.exc.active = s.exc.active ∧ t.exc.hold = s.exc.hold := by
  rw [h.exc]
  exact ⟨rfl, rfl, rfl⟩

/-- Settles O58: the frames of a block write what a frame may, its end what the cadence and the emit may. -/
theorem procKeepsConfiguration : Obligations.ProcKeepsConfiguration := by
  intro p s hfit
  have hb := blockPushed_frameOnly p s
  have he := procBlock_end p s
  obtain ⟨hcfg, hratio, hrel⟩ := hb.dynConfig
  obtain ⟨hctrl, hain, haout, htlm, hhost, htlmo⟩ := hb.ports
  obtain ⟨hgain, hactive, hhold⟩ := hb.excKept
  have hfps : (blockPushed p s).spec.fps = s.spec.fps ∧ (blockPushed p s).spec.fpr = s.spec.fpr := by
    rw [hb.spec]
    exact ⟨rfl, rfl⟩
  have hmono : p.nch = 1 → (procBlock p s).fb.hist.ch1 = s.fb.hist.ch1 ∧ (procBlock p s).exc.ch.ch1 = s.exc.ch.ch1 ∧
      (procBlock p s).dyn.dl.ch1 = s.dyn.dl.ch1 := fun h => by
    rw [he.rest]
    exact blockPushed_mono p s (by rw [h]; decide)
  have hbypass : s.dyn.enabled = false → (procBlock p s).dyn.g = s.dyn.g ∧ (procBlock p s).dyn.ms = s.dyn.ms ∧
      (procBlock p s).dyn.wr = s.dyn.wr ∧ (procBlock p s).dyn.dl = s.dyn.dl := fun h => by
    rw [he.rest, blockPushed_bypass p s h]
    exact ⟨rfl, rfl, rfl, rfl⟩
  have hsilent : tickFires (s.spec.acc + BitVec.ofNat 32 s.par.block) s.spec.fpr = false →
      (procBlock p s).tlm = s.tlm ∧ (procBlock p s).tlmo = s.tlmo ∧ (procBlock p s).exc.active = s.exc.active ∧
      (procBlock p s).exc.hold = s.exc.hold := fun h => by
    have hn : tickFires (nextAcc (blockPushed p s)) (blockPushed p s).spec.fpr = false := by
      unfold nextAcc
      rw [hb.spec, hb.par]
      exact h
    obtain ⟨h1, h2, h3⟩ := he.of_silent hn
    rw [h1, h2, h3]
    exact ⟨hb.tlm, htlmo, hactive, hhold⟩
  refine ⟨procBlock p s, by simp [exec, execProc, hfit], ?_, ?_, ?_, ?_, ?_, ?_, ?_, ?_, ?_, ?_, ?_, ?_, ?_, ?_, ?_, ?_,
    ?_, hmono, hbypass, hsilent⟩
  all_goals rw [he.rest]
  exacts [hb.par, hb.cq, hb.sections, hb.qmode, hb.gain, hcfg, hratio, hrel, hb.excEnabled, hgain, hfps.1, hfps.2,
    hctrl, hain, haout, htlm, hhost]

end Sys2Proof.Machine


/-! PROOFS. One rule for each way a step can go (44_orchestrator R280), and what stands at the ports AIN, AOUT and TLMO
(20_memory R98, R99). -/

namespace Sys2Proof.Machine

open Sys2Proof.Laws

/-! ### The step, by the host's next move -/

theorem step_of_no_move {s : State} (hp : strapsLegal s.par = true) (hh : s.host = []) : step s = blockMove s := by
  simp [step, stepBlock, legalStep, hp, hh]

theorem step_of_move {s : State} (hp : strapsLegal s.par = true) {m : HostMove} {later : List HostMove}
    (hh : s.host = m :: later) : step s = hostMove m s { s with host := later } := by
  simp [step, stepBlock, legalStep, hp, hh]

/-! ### The block's move -/

theorem blockMove_of_queue {s : State} {o : CtrlOutcome} {rest : List CtrlOutcome} (hq : s.cq = o :: rest) :
    blockMove s = ctrlApply o { s with cq := rest } := by
  simp [blockMove, hq]

theorem blockMove_of_no_queue {s : State} (hq : s.cq = []) : blockMove s = audioMove s := by
  simp [blockMove, hq]

theorem audioMove_of_packet {s : State} {p : AudioPacket} (ha : s.aout = none)
    (hs : ainStatus s.par.block s.ainBuf = .packet p) : audioMove s = exec (.proc p) { s with ainBuf := [] } := by
  simp [audioMove, ha, hs]

/-- The audio side is idle while its last packet has not been taken (R98) or the next is still arriving. -/
theorem audioMove_idle {s : State} (h : s.aout ≠ none ∨ ainStatus s.par.block s.ainBuf = .wait) :
    audioMove s = .next s := by
  cases ha : s.aout with
  | some p => simp [audioMove, ha]
  | none =>
    have hw := h.resolve_left (fun hn => hn ha)
    simp [audioMove, ha, hw]

/-! ### A whole packet at AIN (R133) -/

theorem splitWords_length (ws : List Word) : splitWords ws.length ws = some (ws, []) := by
  induction ws with
  | nil => rfl
  | cons w ws ih => simp [splitWords, ih]

theorem audioFits_iff (block : Nat) (nch : BitVec 8) (n : Nat) :
    audioFits block nch n = true ↔ nch = 1 ∧ n = block ∨ nch = 2 ∧ n = 2 * block := by
  simp only [audioFits, Bool.and_eq_true, Bool.or_eq_true, beq_iff_eq, or_and_right]
  refine or_congr (and_congr_right ?_) (and_congr_right ?_) <;> rintro rfl
  · simp
  · rfl

/-- A block that fits legal straps is counted by the header's 16 bits (R121). -/
theorem length_lt_of_audioFits {p : Params} (hp : strapsLegal p = true) {nch : BitVec 8} {n : Nat}
    (hf : audioFits p.block nch n = true) : n < 65536 := by
  obtain ⟨-, -, -, hblock, -⟩ := (strapsLegal_iff p).mp hp
  rcases (audioFits_iff _ _ _).mp hf with ⟨-, h⟩ | ⟨-, h⟩ <;> omega

/-- The words of a block that fits are read back as that block. -/
theorem ainStatus_encode {p : Params} (hp : strapsLegal p = true) {a : AudioPacket}
    (hf : audioFits p.block a.nch a.samples.length = true) : ainStatus p.block (encode (.proc a)) = .packet a := by
  have hn := hdrN_mkHeader (opCode .proc) a.nch _ (length_lt_of_audioFits hp hf)
  have hs : splitWords a.samples.length a.samples = some (a.samples, []) := splitWords_length a.samples
  simp [encode, encodeA, encodeOperands, opOfInstr, ainStatus, hdrOp_mkHeader, hdrA_mkHeader, hn, hf, hs]

/-- Where a PROC packet waits and nothing comes before it, the block's move runs it (R280 `ProcStep`). -/
theorem blockMove_of_audio {s : State} {p : AudioPacket} (hp : strapsLegal s.par = true) (hq : s.cq = [])
    (ha : s.aout = none) (hf : audioFits s.par.block p.nch p.samples.length = true)
    (hw : s.ainBuf = encode (.proc p)) : blockMove s = exec (.proc p) { s with ainBuf := [] } := by
  rw [blockMove_of_no_queue hq, audioMove_of_packet ha]
  rw [hw, ainStatus_encode hp hf]

/-- Settles O10: the words of the packet are read back as the packet, and the block's move runs it. -/
theorem stepRunsTheAudioPacket : Obligations.StepRunsTheAudioPacket := by
  intro s p hp hq ha hf hw
  refine ⟨fun hh => ?_, fun later hh => ?_⟩
  · rw [step_of_no_move hp hh]
    exact blockMove_of_audio hp hq ha hf hw
  · rw [step_of_move hp hh]
    exact blockMove_of_audio (s := { s with host := later }) hp hq ha hf hw

/-- Settles O14: the block's move is the audio side's, which is idle. -/
theorem idleBlockKeepsAllState : Obligations.IdleBlockKeepsAllState := by
  intro s hp hh hq hidle
  rw [step_of_no_move hp hh, blockMove_of_no_queue hq, audioMove_idle hidle]

/-- Settles O11: a take whose packet is there runs the packet; a read hands out its words. -/
theorem stepHandsOverThePacketTaken : Obligations.StepHandsOverThePacketTaken := by
  refine ⟨fun s p later hp ha hh => ?_, fun s p later hp ht hh => ?_, fun s p later hp ht hh => ?_⟩ <;>
    rw [step_of_move hp hh]
  · simp only [hostMove, ha]
  · simp only [hostMove, ht]
  · simp only [hostMove, readTlm, ht]

/-- Settles O60: the words handed over are the packet's header and operands (R123, R129). -/
theorem portsHandOverWholePackets : Obligations.PortsHandOverWholePackets := by
  refine ⟨fun p s => ?_, fun p s => ?_⟩
  · have hwords : encode (.aout p) = mkHeader 0x11 p.nch p.samples.length :: p.samples := by
      simp [encode, encodeA, encodeOperands, opOfInstr, opCode]
    rw [← hwords]
    rfl
  · have hwords : encode (.tlm p) =
        mkHeader 0x20 (if p.sbrActive then 1 else 0) (p.data.length + 2) :: p.seq :: p.red :: p.data := by
      simp [encode, encodeA, encodeOperands, opOfInstr, opCode, byteOfBit]
    rw [← hwords]
    rfl

end Sys2Proof.Machine


/-! PROOFS. The control port and the queue (20_memory R97, R105): a packet's words append one outcome, and what a queued
outcome does depends neither on the rest of the queue nor on the words still arriving (44_orchestrator R279, R280). -/

namespace Sys2Proof.Machine

open Sys2Proof.Claims

/-! ### Runs -/

theorem run_succ_of_step {M : Host.Core} {s t : M.State} (h : M.step s = .next t) (n : Nat) :
    M.run (n + 1) s = M.run n t := by simp only [Host.Core.run, h]

/-- A run that answers a state goes on with the next step. -/
theorem run_succ_of_run {M : Host.Core} {n : Nat} {s t : M.State} (h : M.run n s = .next t) :
    M.run (n + 1) s = M.step t := by
  induction n generalizing s with
  | zero =>
    cases h
    simp only [Host.Core.run]
    cases M.step t <;> rfl
  | succ n ih =>
    cases hs : M.step s with
    | next u =>
      rw [run_succ_of_step hs] at h ⊢
      exact ih h
    | fault r => simp [Host.Core.run, hs] at h
    | refused r => simp [Host.Core.run, hs] at h

/-! ### Words on CTRL (R97, R130) -/

/-- Before its packet's last word a word waits with the others. -/
theorem takeCtrlWord_of_arriving {s : State} {w h : Word} {ops : List Word} (hb : s.ctrlBuf ++ [w] = h :: ops)
    (hlt : ops.length < hdrN h) : takeCtrlWord s w = { s with ctrlBuf := h :: ops } := by
  simp [takeCtrlWord, hb, hlt]

/-- With its packet's last word the outcome joins the queue. -/
theorem takeCtrlWord_of_last {s : State} {w h : Word} {ops : List Word} (hb : s.ctrlBuf ++ [w] = h :: ops)
    (hge : hdrN h ≤ ops.length) :
    takeCtrlWord s w = { s with ctrlBuf := [], cq := s.cq ++ [decodeCtrl h ops] } := by
  simp [takeCtrlWord, hb, Nat.not_lt.mpr hge]

/-- While the queue has room a word offered is taken. -/
theorem step_of_ctrl_ready {s : State} (hp : strapsLegal s.par = true) (hroom : s.cq.length < s.par.cqDepth)
    {w : Word} {later : List HostMove} (hh : s.host = .ctrl w :: later) {t : State}
    (ht : takeCtrlWord { s with host := later } w = t) : step s = .next t := by
  rw [step_of_move hp hh]
  simp [hostMove, ctrlReady, hroom, ht]

/-- While the queue is full the block moves instead and the word stays with the host. -/
theorem step_of_ctrl_full {s : State} (hp : strapsLegal s.par = true) (hfull : s.par.cqDepth ≤ s.cq.length)
    {w : Word} {later : List HostMove} (hh : s.host = .ctrl w :: later) : step s = blockMove s := by
  rw [step_of_move hp hh]
  simp [hostMove, ctrlReady, Nat.not_lt.mpr hfull]

/-- The words of a packet that have not arrived yet, offered one a step. -/
theorem run_ctrl_words {h : Word} {ops : List Word} (hops : ops.length = hdrN h) {later : List HostMove} (w : Word)
    (ws : List Word) {s : State} (hp : strapsLegal s.par = true) (hroom : s.cq.length < s.par.cqDepth)
    (hbuf : s.ctrlBuf ++ w :: ws = h :: ops) (hh : s.host = (w :: ws).map .ctrl ++ later) :
    Sys2Proof.core.run (ws.length + 1) s =
      .next { s with ctrlBuf := [], cq := s.cq ++ [decodeCtrl h ops], host := later } := by
  induction ws generalizing s w with
  | nil =>
    exact run_succ_of_step (step_of_ctrl_ready hp hroom hh (takeCtrlWord_of_last hbuf hops.ge)) 0
  | cons v vs ih =>
    obtain ⟨buf, hbuf', hlen⟩ : ∃ buf, s.ctrlBuf ++ [w] = h :: buf ∧ buf.length < ops.length := by
      have hcat : (s.ctrlBuf ++ [w]) ++ v :: vs = h :: ops := by simpa using hbuf
      cases hb : s.ctrlBuf ++ [w] with
      | nil => simp at hb
      | cons x buf =>
        rw [hb, List.cons_append, List.cons.injEq] at hcat
        obtain ⟨rfl, rfl⟩ := hcat
        exact ⟨buf, rfl, by simp⟩
    have hstep := step_of_ctrl_ready hp hroom hh (takeCtrlWord_of_arriving hbuf' (hops ▸ hlen))
    refine (run_succ_of_step hstep _).trans
      (ih v (s := { s with ctrlBuf := h :: buf, host := (v :: vs).map .ctrl ++ later }) hp hroom ?_ rfl)
    show h :: buf ++ v :: vs = h :: ops
    rw [← hbuf', ← hbuf, List.append_assoc, List.singleton_append]

/-- Settles O8: each word is taken, and only the last one, which completes the packet, appends to the queue. -/
theorem offeredWordsAppendOnePacket : Obligations.OfferedWordsAppendOnePacket := by
  refine ⟨fun s h ops later hp hroom hbuf hops hh => ?_, fun s w later o rest hp hh hq hfull => ?_⟩
  · rw [run_ctrl_words hops h ops hp hroom (by rw [hbuf]; rfl) hh, ← hbuf]
  · rw [step_of_ctrl_full hp hfull hh, blockMove_of_queue hq]

/-! ### Control packets do not see the control port (R59, R105) -/

/-- `s` with another queue and other words still arriving on CTRL. -/
def withCtrlPort (q : List CtrlOutcome) (b : List Word) (s : State) : State := { s with cq := q, ctrlBuf := b }

/-- What a word taken on CTRL adds to the queue, and what it leaves waiting, depends on the words waiting only. -/
theorem takeCtrlWord_eq (b : List Word) (w : Word) : ∃ new left, ∀ s : State, s.ctrlBuf = b →
    takeCtrlWord s w = withCtrlPort (s.cq ++ new) left s := by
  cases hb : b ++ [w] with
  | nil => simp at hb
  | cons h ops =>
    by_cases hlt : ops.length < hdrN h
    · refine ⟨[], h :: ops, fun s hs => ?_⟩
      rw [takeCtrlWord_of_arriving (hs ▸ hb) hlt, List.append_nil]
      rfl
    · refine ⟨[decodeCtrl h ops], [], fun s hs => ?_⟩
      rw [takeCtrlWord_of_last (hs ▸ hb) (Nat.not_lt.mp hlt)]
      rfl

section
variable (q : List CtrlOutcome) (b : List Word)

theorem applyModg_withCtrlPort (g : V) (s : State) :
    applyModg g (withCtrlPort q b s) = withCtrlPort q b (applyModg g s) := by
  unfold applyModg
  split <;> rfl

theorem applyModf_withCtrlPort (index : BitVec 8) (x : FilterParams) (s : State) :
    applyModf index x (withCtrlPort q b s) = withCtrlPort q b (applyModf index x s) := by
  unfold applyModf
  split
  · rfl
  · split <;> rfl

theorem applySetq_withCtrlPort (mode : BitVec 2) (s : State) :
    applySetq mode (withCtrlPort q b s) = withCtrlPort q b (applySetq mode s) := by
  unfold applySetq
  split <;> rfl

theorem applySetx_withCtrlPort (enabled : Bool) (g : V) (s : State) :
    applySetx enabled g (withCtrlPort q b s) = withCtrlPort q b (applySetx enabled g s) := by
  unfold applySetx
  split <;> rfl

theorem applySetl_withCtrlPort (enabled : Bool) (det : DetectorMode) (x : LimiterParams) (s : State) :
    applySetl enabled det x (withCtrlPort q b s) = withCtrlPort q b (applySetl enabled det x s) := by
  unfold applySetl
  split <;> rfl

theorem applySetv_withCtrlPort (f : V) (s : State) :
    applySetv f (withCtrlPort q b s) = withCtrlPort q b (applySetv f s) := by
  unfold applySetv
  split <;> rfl

theorem applyFilters_withCtrlPort (i : Nat) (xs : List FilterParams) (s : State) :
    applyFilters i xs (withCtrlPort q b s) = withCtrlPort q b (applyFilters i xs s) := by
  induction xs generalizing i s with
  | nil => rfl
  | cons x xs ih => rw [applyFilters, applyModf_withCtrlPort, ih, applyFilters]

theorem applyInit_withCtrlPort (p : InitPacket) (s : State) :
    applyInit p (withCtrlPort q b s) = withCtrlPort q b (applyInit p s) := by
  simp only [applyInit, applyModg_withCtrlPort, applySetq_withCtrlPort, applyFilters_withCtrlPort,
    applySetx_withCtrlPort, applySetl_withCtrlPort, applySetv_withCtrlPort]

theorem exec_withCtrlPort {i : Instr} (hi : opIsCtrl (opOfInstr i) = true) {s t : State} (h : exec i s = .next t) :
    exec i (withCtrlPort q b s) = .next (withCtrlPort q b t) := by
  cases i with
  | init p => cases h; exact congrArg _ (applyInit_withCtrlPort q b p s)
  | modf index x => cases h; exact congrArg _ (applyModf_withCtrlPort q b index x s)
  | modg g => cases h; exact congrArg _ (applyModg_withCtrlPort q b g s)
  | rstf => cases h; rfl
  | setq mode => cases h; exact congrArg _ (applySetq_withCtrlPort q b mode s)
  | setx enabled g => cases h; exact congrArg _ (applySetx_withCtrlPort q b enabled g s)
  | setl enabled det x => cases h; exact congrArg _ (applySetl_withCtrlPort q b enabled det x s)
  | setv f => cases h; exact congrArg _ (applySetv_withCtrlPort q b f s)
  | proc p => cases hi
  | aout p => cases hi
  | tlm p => cases hi

/-- What a queued outcome does is the same whatever stands behind it in the queue or is still arriving. -/
theorem ctrlApply_withCtrlPort {o : CtrlOutcome} (ho : isCtrlOutcome o = true) {s t : State}
    (h : ctrlApply o s = .next t) : ctrlApply o (withCtrlPort q b s) = .next (withCtrlPort q b t) := by
  cases o with
  | apply i => exact exec_withCtrlPort q b ho h
  | ignorePacket i r => cases h; rfl
  | ignoreRaw w r => cases h; rfl

end

/-! ### The queue and the block (R105, R279, R280) -/

/-- A queued outcome always has a result, which leaves the ports and the audio side as they were. -/
theorem ctrlApply_next {o : CtrlOutcome} (ho : isCtrlOutcome o = true) (s : State) :
    ∃ t, ctrlApply o s = .next t ∧ ControlFrame s t := by
  cases o with
  | apply i =>
    obtain ⟨t, ht, run⟩ := exec_ctrl ho s
    exact ⟨t, ht, run.frame⟩
  | ignorePacket i r => exact ⟨_, rfl, ⟨rfl⟩⟩
  | ignoreRaw w r => exact ⟨_, rfl, ⟨rfl⟩⟩

theorem ControlFrame.par {s t : State} (h : ControlFrame s t) : t.par = s.par := by rw [h.rest]
theorem ControlFrame.cq {s t : State} (h : ControlFrame s t) : t.cq = s.cq := by rw [h.rest]
theorem ControlFrame.ctrlBuf {s t : State} (h : ControlFrame s t) : t.ctrlBuf = s.ctrlBuf := by rw [h.rest]
theorem ControlFrame.host {s t : State} (h : ControlFrame s t) : t.host = s.host := by rw [h.rest]

/-- The block applies the head of the queue as if nothing stood behind it. -/
theorem blockMove_of_head (rest : List CtrlOutcome) (b : List Word) {o : CtrlOutcome} (ho : isCtrlOutcome o = true)
    {s t : State} (h : ctrlApply o s = .next t) :
    blockMove (withCtrlPort (o :: rest) b s) = .next (withCtrlPort rest b t) :=
  (blockMove_of_queue rfl).trans (ctrlApply_withCtrlPort (s := s) (t := t) rest b ho h)

/-- Settles O16: the outcome is the same before and after the append, which only adds behind it. -/
theorem appendCommutesWithControlStep : Obligations.AppendCommutesWithControlStep := by
  intro s t o rest w hq ho hmove
  obtain ⟨new, left, htake⟩ := takeCtrlWord_eq s.ctrlBuf w
  obtain ⟨u, hu, -⟩ := ctrlApply_next ho s
  have hs : withCtrlPort (o :: rest) s.ctrlBuf s = s := by rw [← hq]; rfl
  have ht : withCtrlPort rest s.ctrlBuf u = t := by
    have hhead := blockMove_of_head rest s.ctrlBuf ho hu
    rw [hs, hmove] at hhead
    exact (Host.Outcome.next.inj hhead).symm
  rw [htake s rfl, htake t (by rw [← ht]; rfl), ← ht, hq]
  exact blockMove_of_head (t := u) (rest ++ new) left ho hu

/-- As many steps as the queue is long apply its outcomes in order. -/
theorem run_queue {q : List CtrlOutcome} (hall : q.all isCtrlOutcome = true) {s : State}
    (hp : strapsLegal s.par = true) (hh : s.host = []) (hq : s.cq = []) :
    ∃ t, applyAll q s = .next t ∧ Sys2Proof.core.run q.length (withCtrlPort q s.ctrlBuf s) = .next t ∧
      ControlFrame s t := by
  induction q generalizing s with
  | nil =>
    have hs : withCtrlPort [] s.ctrlBuf s = s := by rw [← hq]; rfl
    exact ⟨s, rfl, congrArg _ hs, ⟨rfl⟩⟩
  | cons o rest ih =>
    obtain ⟨ho, hrest⟩ : isCtrlOutcome o = true ∧ rest.all isCtrlOutcome = true := by simpa using hall
    obtain ⟨u, hu, hframe⟩ := ctrlApply_next ho s
    obtain ⟨t, happly, hrun, hframe'⟩ :=
      ih hrest (by rw [hframe.par]; exact hp) (by rw [hframe.host, hh]) (by rw [hframe.cq, hq])
    have hstep : step (withCtrlPort (o :: rest) s.ctrlBuf s) = .next (withCtrlPort rest u.ctrlBuf u) := by
      rw [step_of_no_move (s := withCtrlPort (o :: rest) s.ctrlBuf s) hp hh, hframe.ctrlBuf]
      exact blockMove_of_head rest s.ctrlBuf ho hu
    exact ⟨t, by simp only [applyAll, hu, happly], (run_succ_of_step hstep _).trans hrun, hframe.trans hframe'⟩

/-- Settles O15: each step applies the head of the queue, and the block's packet runs once the queue is empty. -/
theorem queueDrainsBeforeTheBlock : Obligations.QueueDrainsBeforeTheBlock := by
  intro s hp hh hall
  obtain ⟨t, happly, hrun, hframe⟩ := run_queue hall (s := { s with cq := [] }) hp hh rfl
  have hdrain : Sys2Proof.core.run s.cq.length s = .next t := hrun
  have hkept : t.cq = [] ∧ t.ainBuf = s.ainBuf ∧ t.aout = s.aout ∧ t.par = s.par ∧ t.host = [] ∧
      t.spec.sb = s.spec.sb ∧ t.spec.acc = s.spec.acc ∧ t.tlm = s.tlm := by
    rw [hframe.rest]
    exact ⟨rfl, rfl, rfl, rfl, hh, rfl, rfl, rfl⟩
  obtain ⟨hcq, hain, haout, hpar, hhost, hsb, hacc, htlm⟩ := hkept
  refine ⟨t, happly, hdrain, hcq, hain, haout, hpar, hhost, hsb, hacc, htlm, fun p ha hf hw => ?_⟩
  have hmove := blockMove_of_audio (s := t) (hpar ▸ hp) hcq (haout.trans ha) (hpar ▸ hf) (hain.trans hw)
  exact (run_succ_of_run hdrain).trans ((step_of_no_move (hpar ▸ hp) hhost).trans hmove)

end Sys2Proof.Machine


/-! PROOFS. The bit reversal (00_scope R15, 20_memory R93) is an involution, so the load (43_spectrum R246) writes each
element of the work memory once. -/

namespace Sys2Proof.Machine

/-! ### Bit reversal -/

/-- The lowest bit of the index goes to the top; the others are reversed below it. -/
theorem bitrev_succ (lg i : Nat) : bitrev (lg + 1) i = 2 ^ lg * (i % 2) + bitrev lg (i / 2) := by
  have hbit : ∀ b, i / 2 ^ (b + 1) % 2 * 2 ^ (lg - (b + 1)) = i / 2 / 2 ^ b % 2 * 2 ^ (lg - 1 - b) := by
    intro b
    rw [Nat.pow_succ', Nat.div_div_eq_div_mul, Nat.sub_sub, Nat.add_comm b 1]
  simp only [bitrev, List.range_succ_eq_map, List.map_cons, List.map_map, List.sum_cons, Function.comp_def,
    Nat.succ_eq_add_one, hbit, pow_zero, Nat.div_one, Nat.sub_zero, Nat.add_sub_cancel, Nat.mul_comm]

theorem bitrev_lt (lg i : Nat) : bitrev lg i < 2 ^ lg := by
  induction lg generalizing i with
  | zero => simp [bitrev]
  | succ lg ih =>
    have hlow := ih (i / 2)
    have hbit : 2 ^ lg * (i % 2) ≤ 2 ^ lg * 1 := Nat.mul_le_mul_left _ (by omega)
    rw [bitrev_succ, Nat.pow_succ]
    omega

/-- Bit `b` of the reversal is bit `lg - 1 - b` of the index (R15). -/
theorem testBit_bitrev (lg i b : Nat) : (bitrev lg i).testBit b = (decide (b < lg) && i.testBit (lg - 1 - b)) := by
  induction lg generalizing i b with
  | zero => simp [bitrev]
  | succ lg ih =>
    rw [bitrev_succ, Nat.testBit_two_pow_mul_add _ (bitrev_lt lg (i / 2)), ih, Nat.testBit_div_two]
    rcases Nat.lt_trichotomy b lg with hb | rfl | hb
    · simp [hb, show b < lg + 1 by omega, show lg - 1 - b + 1 = lg - b by omega]
    · simp [Nat.testBit_zero]
    · obtain ⟨k, hk⟩ : ∃ k, b - lg = k + 1 := ⟨b - lg - 1, by omega⟩
      simp [show ¬ b < lg by omega, show ¬ b < lg + 1 by omega, hk, Nat.testBit_succ, show i % 2 / 2 = 0 by omega]

/-- Reversing twice gives every `lg`-bit index back. -/
theorem bitrev_bitrev {lg i : Nat} (hi : i < 2 ^ lg) : bitrev lg (bitrev lg i) = i := by
  apply Nat.eq_of_testBit_eq
  intro b
  rw [testBit_bitrev, testBit_bitrev]
  by_cases hb : b < lg
  · simp [hb, show lg - 1 - b < lg by omega, show lg - 1 - (lg - 1 - b) = b by omega]
  · have hhigh : i.testBit b = false :=
      Nat.testBit_lt_two_pow (lt_of_lt_of_le hi (Nat.pow_le_pow_right (by norm_num) (by omega)))
    simp [hb, hhigh]

theorem bitrev_injOn {lg i j : Nat} (hi : i < 2 ^ lg) (hj : j < 2 ^ lg) (h : bitrev lg i = bitrev lg j) : i = j := by
  rw [← bitrev_bitrev hi, h, bitrev_bitrev hj]

/-! ### The load -/

/-- Elements written one after the other into a work array. -/
def workStores (f : Nat → Nat) (g : Nat → Cplx) (ns : List Nat) (w : Work) : Work :=
  ns.foldl (fun w n => w.setIfInBounds (f n) (g n)) w

theorem fftLoad_eq (lg : Nat) (x : Nat → V) : fftLoad lg x =
    workStores (bitrev lg) (fun n => ⟨fMul (x n) (windowAt (n * (Config.fftSize / 2 ^ lg))), posZero⟩)
      (List.range (2 ^ lg)) (Array.replicate (2 ^ lg) ⟨posZero, posZero⟩) := rfl

section
variable (f : Nat → Nat) (g : Nat → Cplx)

/-- An element no store names is kept. -/
theorem workGet_workStores_of_ne {ns : List Nat} {i : Nat} (w : Work) (h : ∀ n ∈ ns, f n ≠ i) :
    workGet (workStores f g ns w) i = workGet w i := by
  induction ns generalizing w with
  | nil => rfl
  | cons n ns ih =>
    rw [List.forall_mem_cons] at h
    refine (ih _ h.2).trans ?_
    simp [workGet, Array.getD_eq_getD_getElem?, h.1]

/-- An element that one store names holds what that store wrote. -/
theorem workGet_workStores {ns : List Nat} {n : Nat} (w : Work) (hn : n ∈ ns) (hb : f n < w.size)
    (hinj : ∀ m ∈ ns, f m = f n → m = n) : workGet (workStores f g ns w) (f n) = g n := by
  induction ns generalizing w with
  | nil => cases hn
  | cons m ns ih =>
    rw [List.forall_mem_cons] at hinj
    by_cases hmem : n ∈ ns
    · exact ih (w.setIfInBounds (f m) (g m)) hmem (by simpa using hb) hinj.2
    · obtain rfl : n = m := (List.mem_cons.mp hn).resolve_right hmem
      refine (workGet_workStores_of_ne f g _ fun k hk heq => hmem (hinj.2 k hk heq ▸ hk)).trans ?_
      simp [workGet, Array.getD_eq_getD_getElem?, hb]

end

/-- Sample `n`, windowed, stands at element `bitrev n` after the load (R246). -/
theorem workGet_fftLoad {lg n : Nat} (x : Nat → V) (hn : n < 2 ^ lg) : workGet (fftLoad lg x) (bitrev lg n) =
    ⟨fMul (x n) (windowAt (n * (Config.fftSize / 2 ^ lg))), posZero⟩ := by
  rw [fftLoad_eq]
  exact workGet_workStores (bitrev lg) _ _ (List.mem_range.mpr hn) (by simpa using bitrev_lt lg n)
    fun m hm => bitrev_injOn (List.mem_range.mp hm) hn

/-- Settles O55: `BITREV` is an involution, so the load names each element once; at `F` points the window's step is
1. -/
theorem loadIsABitReversal : Obligations.LoadIsABitReversal := by
  refine ⟨fun i hi => ⟨bitrev_lt Config.log2F i, bitrev_bitrev (lg := Config.log2F) hi⟩, fun sb n hn => ?_⟩
  have hload := workGet_fftLoad (lg := Config.log2F) (memRead sb) hn
  rwa [show n * (Config.fftSize / 2 ^ Config.log2F) = n by norm_num] at hload

end Sys2Proof.Machine


/-! PROOFS. The limiter's delay line (20_memory R92, 41_dynamics R185, R187): what a frame writes stays until the write
index comes round again, and the lookahead is shorter than that. -/

namespace Sys2Proof.Machine

open Sys2Proof.Claims

/-! ### One frame -/

theorem dynProcess_dl (p : Params) (stereo : Bool) (t : Nat) (x : Stereo V) (d : Dynamics) :
    (dynProcess p stereo t x d).st.dl = delayWrite stereo x d := rfl

theorem dynProcess_wr (p : Params) (stereo : Bool) (t : Nat) (x : Stereo V) (d : Dynamics) :
    (dynProcess p stereo t x d).st.wr = (d.wr + 1) % laCap p := rfl

theorem dynProcess_delay (p : Params) (stereo : Bool) (t : Nat) (x : Stereo V) (d : Dynamics) :
    (dynProcess p stereo t x d).st.delay = d.delay := by rw [dynProcess_st]

/-- The output of a channel of the frame is the delayed sample times the gain after the frame, guarded (R185). -/
theorem dynProcess_out (p : Params) {stereo : Bool} (t : Nat) (x : Stereo V) (d : Dynamics) {c : Chan}
    (hc : hasChannel stereo c) : chGet (dynProcess p stereo t x d).out c =
      sanV (fMul (memRead (chGet (dynProcess p stereo t x d).st.dl c) (readIndex p d))
        (dynProcess p stereo t x d).st.g) := by
  rcases hc with rfl | rfl
  · rfl
  · cases c <;> rfl

/-- A frame writes its sample at the write index, in each of its channels, and nothing else. -/
theorem memRead_delayWrite {stereo : Bool} {c : Chan} (hc : hasChannel stereo c) (x : Stereo V) (d : Dynamics)
    (j : Nat) : memRead (chGet (delayWrite stereo x d) c) j =
      if j = d.wr then chGet x c else memRead (chGet d.dl c) j := by
  have hw : chGet (delayWrite stereo x d) c = memWrite (chGet d.dl c) d.wr (chGet x c) := by
    rcases hc with rfl | rfl
    · rfl
    · cases c <;> rfl
  rw [hw, memRead_memWrite]

/-! ### Sequences of frames -/

theorem dynFrames_concat (p : Params) (stereo : Bool) (n : Nat) (xs : List (Stereo V)) (x : Stereo V) (d : Dynamics) :
    dynFrames p stereo n (xs ++ [x]) d =
      (dynProcess p stereo (n + xs.length) x (dynFrames p stereo n xs d)).st := by
  induction xs generalizing n d with
  | nil => rfl
  | cons y ys ih =>
    rw [List.cons_append, dynFrames, ih, dynFrames, List.length_cons, Nat.add_right_comm n 1, Nat.add_assoc]

theorem dynFrames_delay (p : Params) (stereo : Bool) (n : Nat) (xs : List (Stereo V)) (d : Dynamics) :
    (dynFrames p stereo n xs d).delay = d.delay := by
  induction xs generalizing n d with
  | nil => rfl
  | cons x xs ih => exact (ih _ _).trans (dynProcess_delay p stereo n x d)

/-- The write index goes round the delay line, one element a frame. -/
theorem dynFrames_wr {p : Params} (stereo : Bool) (n : Nat) (xs : List (Stereo V)) {d : Dynamics}
    (hwr : d.wr < laCap p) : (dynFrames p stereo n xs d).wr = (d.wr + xs.length) % laCap p := by
  induction xs using List.reverseRecOn with
  | nil => exact (Nat.mod_eq_of_lt hwr).symm
  | append_singleton xs x ih =>
    rw [dynFrames_concat, dynProcess_wr, ih, Nat.mod_add_mod, List.length_append, List.length_singleton, Nat.add_assoc]

/-- Places of the delay line that fewer frames than it has elements lie between are different. -/
theorem add_mod_ne_add_mod {cap a i j : Nat} (hij : i < j) (hj : j < i + cap) : (a + i) % cap ≠ (a + j) % cap := by
  intro h
  have hdvd : cap ∣ (a + j) - (a + i) := (Nat.modEq_iff_dvd' (by omega)).mp h
  have hle := Nat.le_of_dvd (by omega) hdvd
  omega

/-- Of the frames of a sequence the delay line holds the last `LA_CAP`, each where it was written. -/
theorem memRead_dynFrames {p : Params} {stereo : Bool} {c : Chan} (hc : hasChannel stereo c) (n : Nat)
    (xs : List (Stereo V)) {d : Dynamics} (hwr : d.wr < laCap p) {i : Nat} (hi : i < xs.length)
    (hlast : xs.length ≤ i + laCap p) (z : Stereo V) :
    memRead (chGet (dynFrames p stereo n xs d).dl c) ((d.wr + i) % laCap p) = chGet (xs.getD i z) c := by
  induction xs using List.reverseRecOn with
  | nil => cases hi
  | append_singleton xs x ih =>
    rw [List.length_append, List.length_singleton] at hi hlast
    rw [dynFrames_concat, dynProcess_dl, memRead_delayWrite hc, dynFrames_wr stereo n xs hwr]
    by_cases hnew : i = xs.length
    · subst hnew
      simp
    · have hold : i < xs.length := by omega
      rw [if_neg (add_mod_ne_add_mod hold (by omega)), ih hold (by omega), List.getD_append _ _ _ _ hold]

/-- `dyn.D` elements before the write index stands the place written `dyn.D` frames before. -/
theorem readIndex_of_wr {p : Params} {d : Dynamics} {a k : Nat} (hwr : d.wr = (a + k) % laCap p)
    (hd : d.delay ≤ dMax p) (hk : d.delay ≤ k) : readIndex p d = (a + (k - d.delay)) % laCap p := by
  have hcap : d.delay < laCap p := Nat.lt_succ_of_le hd
  rw [readIndex, hwr, Nat.add_sub_assoc hcap.le, Nat.mod_add_mod,
    show a + k + (laCap p - d.delay) = a + (k - d.delay) + laCap p by omega, Nat.add_mod_right]

/-- Settles O44: the sample read was written `dyn.D` frames before, and fewer than `LA_CAP` frames have been written
since. -/
theorem lookaheadDelaysByD : Obligations.LookaheadDelaysByD := by
  intro p stereo n xs x d hwr hdelay hlen
  have hD := dynFrames_delay p stereo n xs d
  have hread : readIndex p (dynFrames p stereo n xs d) = (d.wr + (xs.length - d.delay)) % laCap p := by
    have h := readIndex_of_wr (dynFrames_wr stereo n xs hwr) (hD ▸ hdelay) (hD ▸ hlen)
    rwa [hD] at h
  have hout : ∀ {c}, hasChannel stereo c →
      chGet (dynProcess p stereo (n + xs.length) x (dynFrames p stereo n xs d)).out c =
        sanV (fMul (chGet ((xs ++ [x]).getD (xs.length - d.delay) ⟨posZero, posZero⟩) c)
          (dynProcess p stereo (n + xs.length) x (dynFrames p stereo n xs d)).st.g) := by
    intro c hc
    have hcap : laCap p = dMax p + 1 := rfl
    rw [dynProcess_out p _ _ _ hc, hread, ← dynFrames_concat,
      memRead_dynFrames hc n (xs ++ [x]) hwr (by simp) (by simp; omega) ⟨posZero, posZero⟩]
  exact ⟨hout (.inl rfl), fun hs => hout (c := .c1) (.inr hs)⟩

end Sys2Proof.Machine


/-! PROOFS. An audio block as the specification writes it (44_orchestrator R273, R274): its frames are those of the
pipeline on the FilterBank, the exciter and the limiter alone, and they raise `SampleReplaced` only. -/

namespace Sys2Proof.Machine

open Sys2Proof.Claims

/-! ### The frames as the pipeline -/

/-- What the frames of a block read and write, of a state. -/
def pipeOf (s : State) : Pipe := ⟨s.fb, s.exc, s.dyn⟩

theorem channelStep_pipe (c : Chan) (t : Nat) (x : V) (s : State) :
    pipeSample s.gain c t x (pipeOf s) = ((channelStep c t x s).1, pipeOf (channelStep c t x s).2) := rfl

theorem limiter_pipe (stereo : Bool) (t : Nat) (x : Stereo V) (s : State) :
    (if s.dyn.enabled then ((dynProcess s.par stereo t x s.dyn).out,
        { pipeOf s with dyn := (dynProcess s.par stereo t x s.dyn).st }) else (x, pipeOf s)) =
      ((limiter stereo t x s).1, pipeOf (limiter stereo t x s).2) := by
  unfold limiter
  split <;> rfl

theorem frame_pipe (stereo : Bool) (t : Nat) (x : Stereo V) (s : State) :
    pipeFrame s.par s.gain stereo t x (pipeOf s) = ((frame stereo t x s).1, pipeOf (frame stereo t x s).2) := by
  have hlimiter := limiter_pipe stereo t (channels stereo t x { s with exc := excRamp s.par s.exc }).1
    (channels stereo t x { s with exc := excRamp s.par s.exc }).2
  cases stereo <;> exact hlimiter

theorem frames_pipe (stereo : Bool) (t : Nat) (xs : List (Stereo V)) (s : State) :
    pipeFrames s.par s.gain stereo t xs (pipeOf s) = ((frames stereo t xs s).1, pipeOf (frames stereo t xs s).2) := by
  induction xs generalizing t s with
  | nil => rfl
  | cons x xs ih =>
    have hframe := frame_frameOnly stereo t x s
    have hrest := ih (t + 1) (frame stereo t x s).2
    rw [hframe.par, hframe.gain] at hrest
    simp only [pipeFrames, frame_pipe, hrest, frames]

/-! ### The events of the stages (R22, R277) -/

@[simp] theorem all_isReplacement_sanEvent (site : Site) (c : Option Chan) (t : Nat) (v : V) :
    (sanEvent site c t v).all isReplacement = true := by
  unfold sanEvent
  split <;> rfl

@[simp] theorem all_isReplacement_fbProcess (fb : FilterBank) (c : Chan) (t : Nat) (x : V) :
    (fbProcess fb c t x).ev.all isReplacement = true := by
  have hcascade : ∀ k, (cascade fb.sections (chGet fb.hist c) c t x k).ev.all isReplacement = true := by
    intro k
    induction k with
    | zero => rfl
    | succ k ih =>
      rw [cascade]
      generalize cascade fb.sections (chGet fb.hist c) c t x k = o at ih
      dsimp only
      split
      · simp [ih]
      · exact ih
  exact hcascade Config.nBands

@[simp] theorem all_isReplacement_excProcess (e : Exciter) (c : Chan) (t : Nat) (x : V) :
    (excProcess e c t x).ev.all isReplacement = true := by
  unfold excProcess
  split
  · simp [excEvents]
  · rfl

@[simp] theorem all_isReplacement_dynProcess (p : Params) (stereo : Bool) (t : Nat) (x : Stereo V) (d : Dynamics) :
    (dynProcess p stereo t x d).ev.all isReplacement = true := by
  have hlevel : (detectLevel stereo t x d).ev.all isReplacement = true := by
    unfold detectLevel
    split
    · rfl
    · exact all_isReplacement_sanEvent _ _ _ _
  cases stereo <;> simp [dynProcess, hlevel]

theorem all_isReplacement_mixEvents (stereo : Bool) (t : Nat) (xs : List (Stereo V)) :
    (mixEvents stereo t xs).all isReplacement = true := by
  induction xs generalizing t with
  | nil => rfl
  | cons x xs ih => cases stereo <;> simp [mixEvents, mixEvent, ih]

/-- The history of `t` is that of `s` with replaced samples after it. -/
def RaisesReplacements (s t : State) : Prop := ∃ es, es.all isReplacement = true ∧ t.events = s.events ++ es

theorem RaisesReplacements.refl (s : State) : RaisesReplacements s s := ⟨[], rfl, (List.append_nil _).symm⟩

theorem RaisesReplacements.trans {s t u : State} (h : RaisesReplacements s t) (k : RaisesReplacements t u) :
    RaisesReplacements s u := by
  obtain ⟨es, hes, ht⟩ := h
  obtain ⟨fs, hfs, hu⟩ := k
  exact ⟨es ++ fs, by simp [hes, hfs], by rw [hu, ht, List.append_assoc]⟩

theorem channelStep_raises (c : Chan) (t : Nat) (x : V) (s : State) : RaisesReplacements s (channelStep c t x s).2 :=
  ⟨_, by simp, rfl⟩

theorem channels_raises (stereo : Bool) (t : Nat) (x : Stereo V) (s : State) :
    RaisesReplacements s (channels stereo t x s).2 := by
  cases stereo
  · exact channelStep_raises _ _ _ _
  · exact (channelStep_raises _ _ _ _).trans (channelStep_raises _ _ _ _)

theorem limiter_raises (stereo : Bool) (t : Nat) (x : Stereo V) (s : State) :
    RaisesReplacements s (limiter stereo t x s).2 := by
  unfold limiter
  split
  · exact ⟨_, all_isReplacement_dynProcess _ _ _ _ _, rfl⟩
  · exact .refl s

theorem frame_raises (stereo : Bool) (t : Nat) (x : Stereo V) (s : State) :
    RaisesReplacements s (frame stereo t x s).2 :=
  (channels_raises stereo t x { s with exc := excRamp s.par s.exc }).trans (limiter_raises _ _ _ _)

theorem frames_raises (stereo : Bool) (t : Nat) (xs : List (Stereo V)) (s : State) :
    RaisesReplacements s (frames stereo t xs s).2 := by
  induction xs generalizing t s with
  | nil => exact .refl s
  | cons x xs ih => exact (frame_raises _ _ _ _).trans (ih _ _)

theorem blockPushed_raises (p : AudioPacket) (s : State) : RaisesReplacements s (blockPushed p s) :=
  RaisesReplacements.trans (t := (blockFrames p s).2) (frames_raises _ _ _ _)
    ⟨_, all_isReplacement_mixEvents _ _ _, rfl⟩

/-! ### The block (R273) -/

/-- What a frame may write, as whole components. -/
theorem FrameOnly.eq_with {s t : State} (h : FrameOnly s t) :
    t = { s with fb := t.fb, exc := t.exc, dyn := t.dyn, events := t.events } := by
  have hfb : t.fb = { s.fb with hist := t.fb.hist } := congrArg State.fb h.rest
  rw [hfb]
  exact h.rest

/-- The block before its cadence ticks: the pipeline's registers, the mix in the window, and replaced samples. -/
theorem blockPushed_eq (p : AudioPacket) (s : State) :
    let a := pipeFrames s.par s.gain (isStereo p.nch) 0 (planarFrames s.par.block p.samples) (pipeOf s)
    ∃ es, es.all isReplacement = true ∧ blockPushed p s =
      { s with
        fb := a.2.fb, exc := a.2.exc, dyn := a.2.dyn
        spec := { s.spec with sb := specPush s.spec.sb (a.1.map (mixOf (isStereo p.nch))) }
        events := s.events ++ es } := by
  obtain ⟨es, hes, hevents⟩ := blockPushed_raises p s
  refine ⟨es, hes, ?_⟩
  rw [frames_pipe, ← hevents]
  exact (blockPushed_frameOnly p s).eq_with

/-- As many samples as channels times frames. -/
theorem length_planarSamples (nch : BitVec 8) (out : List (Stereo V)) :
    (planarSamples nch out).length = if isStereo nch then 2 * out.length else out.length := by
  unfold planarSamples
  split
  · simp only [List.length_append, List.length_map]
    omega
  · simp

/-- A block that fits is answered by as many samples. -/
theorem length_planarSamples_blockFrames (p : AudioPacket) (s : State)
    (hf : audioFits s.par.block p.nch p.samples.length = true) :
    (planarSamples p.nch (blockFrames p s).1).length = p.samples.length := by
  rw [length_planarSamples, length_blockFrames]
  rcases (audioFits_iff _ _ _).mp hf with ⟨hn, hlen⟩ | ⟨hn, hlen⟩ <;> rw [hn, hlen] <;> rfl

/-- Settles O57: the frames of the block are the pipeline's, and what follows them is the cadence and the delivery. -/
theorem procAnswersOneBlock : Obligations.ProcAnswersOneBlock := by
  refine fun p s => ⟨fun hf => ?_, fun hf => by simp [exec, execProc, hf]⟩
  have hout : (blockFrames p s).1 =
      (pipeFrames s.par s.gain (isStereo p.nch) 0 (planarFrames s.par.block p.samples) (pipeOf s)).1 :=
    (congrArg Prod.fst (frames_pipe (isStereo p.nch) 0 (planarFrames s.par.block p.samples) s)).symm
  have hlen := length_planarSamples_blockFrames p s hf
  obtain ⟨es, hes, hpushed⟩ := blockPushed_eq p s
  have hexec : exec (.proc p) s = .next (procBlock p s) := by simp [exec, execProc, hf]
  rw [procBlock_eq, hpushed, hout] at hexec
  rw [hout] at hlen
  exact ⟨hlen, es, List.all_eq_true.mp hes, hexec⟩

end Sys2Proof.Machine


/-! PROOFS. The decoder and the encoder are inverse to each other (30_encoding R120 to R129): the header's fields, the
words after it, and the packet of a row, each read back from what is written and written back from what is read. -/

namespace Sys2Proof.Machine

open Sys2Proof.Laws

/-! ### The header word (R121) -/

/-- The three fields are the whole word. -/
theorem mkHeader_fields (h : Word) : mkHeader (hdrOp h) (hdrA h) (hdrN h) = h := by
  have hhigh : hdrOp h ++ hdrA h = h.extractLsb' 16 16 := BitVec.extractLsb'_append_extractLsb'_eq_extractLsb' rfl
  have hwhole : h.extractLsb' 16 16 ++ h.extractLsb' 0 16 = h.extractLsb' 0 32 :=
    BitVec.extractLsb'_append_extractLsb'_eq_extractLsb' rfl
  rw [mkHeader, hhigh, hdrN, BitVec.ofNat_toNat, BitVec.setWidth_eq, hwhole, BitVec.extractLsb'_eq_self]

theorem header_eq_iff (g h : Word) : g = h ↔ hdrOp g = hdrOp h ∧ hdrA g = hdrA h ∧ hdrN g = hdrN h := by
  refine ⟨fun e => by simp [e], fun ⟨hop, ha, hn⟩ => ?_⟩
  rw [← mkHeader_fields g, hop, ha, hn, mkHeader_fields]

theorem hdrN_lt (h : Word) : hdrN h < 2 ^ 16 := (h.extractLsb' 0 16).isLt

theorem hdrOp_and (g h : Word) : hdrOp (g &&& h) = hdrOp g &&& hdrOp h := BitVec.extractLsb'_and
theorem hdrA_and (g h : Word) : hdrA (g &&& h) = hdrA g &&& hdrA h := BitVec.extractLsb'_and
theorem hdrN_and (g h : Word) : hdrN (g &&& h) = hdrN g &&& hdrN h := by
  simp only [hdrN, BitVec.extractLsb'_and, BitVec.toNat_and]

/-! ### The opcode map (R122, R123) -/

theorem opOf_opCode (op : Op) : opOf (opCode op) = some op := by cases op <;> rfl

/-- No two values of the opcode byte share a row. -/
theorem opCode_of_opOf : ∀ c : BitVec 8, ∀ op ∈ opOf c, opCode op = c := by decide +kernel

theorem opOf_eq_some_iff (c : BitVec 8) (op : Op) : opOf c = some op ↔ opCode op = c :=
  ⟨opCode_of_opOf c op, fun h => h ▸ opOf_opCode op⟩

/-! ### The row of a header (R125, R132) -/

theorem any_opLength_ne_eq_false_iff (h : Word) (op : Op) :
    (opLength op).any (fun n => n != hdrN h) = false ↔ ∀ n ∈ opLength op, n = hdrN h := by
  cases opLength op <;> simp

/-- What a header selects: its row's opcode, the operand count the row fixes, and no reserved bit. -/
theorem headerRow_eq_ok_iff (h : Word) (op : Op) : headerRow h = .ok op ↔
    opCode op = hdrOp h ∧ (∀ n ∈ opLength op, n = hdrN h) ∧ hdrA h &&& opReserved op = 0 := by
  rw [← opOf_eq_some_iff, ← any_opLength_ne_eq_false_iff]
  unfold headerRow
  cases opOf (hdrOp h) with
  | none => simp
  | some o =>
    rw [Option.some.injEq]
    dsimp only
    split_ifs with hn ha
    · exact ⟨fun e => (nomatch e), fun ⟨e, hfit, _⟩ => by simp [e, hfit] at hn⟩
    · exact ⟨fun e => (nomatch e), fun ⟨e, _, hres⟩ => absurd (e ▸ hres) ha⟩
    · refine ⟨fun e => ?_, fun ⟨e, _⟩ => e ▸ rfl⟩
      cases e
      exact ⟨rfl, Bool.eq_false_of_not_eq_true hn, not_not.mp ha⟩

/-! ### Operand words (R120, R126) -/

theorem splitWords_append (ops rest : List Word) : splitWords ops.length (ops ++ rest) = some (ops, rest) := by
  induction ops with
  | nil => rfl
  | cons w ws ih => simp [splitWords, ih]

theorem splitWords_inv {n : Nat} {ws ops rest : List Word} (h : splitWords n ws = some (ops, rest)) :
    ops.length = n ∧ ws = ops ++ rest := by
  fun_induction splitWords n ws generalizing ops with
  | case1 ws =>
    cases h
    exact ⟨rfl, rfl⟩
  | case2 n => cases h
  | case3 n w ws ih =>
    obtain ⟨⟨ops', rest'⟩, hsplit, he⟩ := Option.map_eq_some_iff.mp h
    cases he
    obtain ⟨rfl, rfl⟩ := ih hsplit
    exact ⟨rfl, rfl⟩

theorem splitFilters_flatMap (fs : List FilterParams) (rest : List Word) :
    splitFilters fs.length (fs.flatMap encodeFilter ++ rest) = some (fs, rest) := by
  induction fs with
  | nil => rfl
  | cons x fs ih => simp [encodeFilter, splitFilters, filterOfWords, ih]

theorem splitFilters_inv {n : Nat} {ws : List Word} {fs : List FilterParams} {rest : List Word}
    (h : splitFilters n ws = some (fs, rest)) : fs.length = n ∧ ws = fs.flatMap encodeFilter ++ rest := by
  fun_induction splitFilters n ws generalizing fs with
  | case1 ws =>
    cases h
    exact ⟨rfl, rfl⟩
  | case2 n f g q ws ih =>
    obtain ⟨⟨fs', rest'⟩, hsplit, he⟩ := Option.map_eq_some_iff.mp h
    cases he
    obtain ⟨rfl, rfl⟩ := ih hsplit
    exact ⟨rfl, rfl⟩
  | case3 n ws => cases h

/-! ### The packet of a row (R122 to R124, R127) -/

@[simp] theorem detOfBit_bitOfDet (d : DetectorMode) : detOfBit (bitOfDet d) = d := by cases d <;> rfl
@[simp] theorem bitOfDet_detOfBit (b : Bool) : bitOfDet (detOfBit b) = b := by cases b <;> rfl

/-- INIT's `a` byte with the given fields (R124). -/
def initByte (mode : BitVec 2) (sbr lim det : Bool) : BitVec 8 :=
  mode.setWidth 8 ||| byteOfBit sbr 2 ||| byteOfBit lim 3 ||| byteOfBit det 4

/-- SETL's `a` byte with the given fields (R124). -/
def setlByte (enabled det : Bool) : BitVec 8 := byteOfBit enabled 0 ||| byteOfBit det 1

theorem encodeA_init (p : InitPacket) : encodeA (.init p) =
    initByte p.qualityMode p.sbrEnabled p.limiterEnabled (bitOfDet p.detectorMode) := rfl

theorem encodeA_setl (enabled : Bool) (det : DetectorMode) (x : LimiterParams) :
    encodeA (.setl enabled det x) = setlByte enabled (bitOfDet det) := rfl

/-- The fields of each `a` byte are read back, and its reserved bits are clear. -/
theorem initByte_fields : ∀ (mode : BitVec 2) (sbr lim det : Bool), let a := initByte mode sbr lim det
    a.extractLsb' 0 2 = mode ∧ a.getLsbD 2 = sbr ∧ a.getLsbD 3 = lim ∧ a.getLsbD 4 = det ∧ a &&& 0xE0 = 0 := by
  decide +kernel

theorem setlByte_fields : ∀ enabled det : Bool, let a := setlByte enabled det
    a.getLsbD 0 = enabled ∧ a.getLsbD 1 = det ∧ a &&& 0xFC = 0 := by decide +kernel

theorem modeByte_fields : ∀ mode : BitVec 2,
    (mode.setWidth 8).extractLsb' 0 2 = mode ∧ mode.setWidth 8 &&& (0xFC : BitVec 8) = 0 := by decide +kernel

theorem flagByte_fields : ∀ flag : Bool, (byteOfBit flag 0).getLsbD 0 = flag ∧ byteOfBit flag 0 &&& 0xFE = 0 := by
  decide +kernel

/-- A byte whose reserved bits are clear is the one with its fields. -/
theorem initByte_eta : ∀ a : BitVec 8, a &&& 0xE0 = 0 →
    initByte (a.extractLsb' 0 2) (a.getLsbD 2) (a.getLsbD 3) (a.getLsbD 4) = a := by decide +kernel

theorem setlByte_eta : ∀ a : BitVec 8, a &&& 0xFC = 0 → setlByte (a.getLsbD 0) (a.getLsbD 1) = a := by decide +kernel

theorem modeByte_eta : ∀ a : BitVec 8, a &&& 0xFC = 0 → (a.extractLsb' 0 2).setWidth 8 = a := by decide +kernel

theorem flagByte_eta : ∀ a : BitVec 8, a &&& 0xFE = 0 → byteOfBit (a.getLsbD 0) 0 = a := by decide +kernel

theorem zeroByte_eta : ∀ a : BitVec 8, a &&& 0xFF = 0 → 0 = a := by decide +kernel

/-! ### The packet of a row (R122 to R124) -/

theorem buildInit_inv {a : BitVec 8} {ws : List Word} {i : Instr} (h : buildInit a ws = some i)
    (hres : a &&& 0xE0 = 0) : opOfInstr i = .init ∧ encodeA i = a ∧ encodeOperands i = ws := by
  cases ws with
  | nil => cases h
  | cons gain ws =>
    dsimp only [buildInit] at h
    split at h
    · rename_i hsplit
      cases h
      obtain ⟨-, rfl⟩ := splitFilters_inv hsplit
      refine ⟨rfl, ?_, rfl⟩
      rw [encodeA_init, bitOfDet_detOfBit, initByte_eta a hres]
    · cases h

/-- A packet read has the row, the `a` byte and the operand words it was read from. -/
theorem build_inv {op : Op} {a : BitVec 8} {ws : List Word} {i : Instr} (h : build op a ws = some i)
    (hres : a &&& opReserved op = 0) : opOfInstr i = op ∧ encodeA i = a ∧ encodeOperands i = ws := by
  cases op with
  | init => exact buildInit_inv h hres
  | modf =>
    rcases ws with _ | ⟨f, _ | ⟨g, _ | ⟨q, _ | _⟩⟩⟩ <;> cases h
    exact ⟨rfl, rfl, rfl⟩
  | modg =>
    rcases ws with _ | ⟨g, _ | _⟩ <;> cases h
    exact ⟨rfl, zeroByte_eta a hres, rfl⟩
  | rstf =>
    rcases ws with _ | _ <;> cases h
    exact ⟨rfl, zeroByte_eta a hres, rfl⟩
  | setq =>
    rcases ws with _ | _ <;> cases h
    exact ⟨rfl, modeByte_eta a hres, rfl⟩
  | setx =>
    rcases ws with _ | ⟨g, _ | _⟩ <;> cases h
    exact ⟨rfl, flagByte_eta a hres, rfl⟩
  | setl =>
    rcases ws with _ | ⟨at_, _ | ⟨th, _ | ⟨kn, _ | ⟨la, _ | ⟨rm, _ | _⟩⟩⟩⟩⟩ <;> cases h
    refine ⟨rfl, ?_, rfl⟩
    rw [encodeA_setl, bitOfDet_detOfBit, setlByte_eta a hres]
  | setv =>
    rcases ws with _ | ⟨f, _ | _⟩ <;> cases h
    exact ⟨rfl, zeroByte_eta a hres, rfl⟩
  | proc =>
    cases h
    exact ⟨rfl, rfl, by simp [encodeOperands]⟩
  | aout =>
    cases h
    exact ⟨rfl, rfl, by simp [encodeOperands]⟩
  | tlm =>
    rcases ws with _ | ⟨seq, _ | ⟨red, data⟩⟩ <;> cases h
    exact ⟨rfl, flagByte_eta a hres, by simp [encodeOperands]⟩

theorem encodeA_and_opReserved (i : Instr) : encodeA i &&& opReserved (opOfInstr i) = 0 := by
  cases i with
  | init p =>
    obtain ⟨-, -, -, -, hres⟩ := initByte_fields p.qualityMode p.sbrEnabled p.limiterEnabled (bitOfDet p.detectorMode)
    exact hres
  | modf index x => exact BitVec.and_zero
  | modg g => exact BitVec.zero_and
  | rstf => exact BitVec.zero_and
  | setq mode => exact (modeByte_fields mode).2
  | setx enabled g => exact (flagByte_fields enabled).2
  | setl enabled det x =>
    obtain ⟨-, -, hres⟩ := setlByte_fields enabled (bitOfDet det)
    exact hres
  | setv f => exact BitVec.zero_and
  | proc p => exact BitVec.and_zero
  | aout p => exact BitVec.and_zero
  | tlm p => exact (flagByte_fields p.sbrActive).2

theorem length_encodeOperands {i : Instr} (hw : i.wellFormed = true) :
    ∀ n ∈ opLength (opOfInstr i), n = (encodeOperands i).length := by
  rintro n hn
  cases i with
  | init p =>
    cases hn
    have hf : p.filters.length = Config.nBands := by simpa [Instr.wellFormed] using hw
    simp only [encodeOperands, encodeLimiter, List.length_cons, List.length_append, List.length_nil,
      length_flatMap_encodeFilter, hf]
    rfl
  | tlm p =>
    cases hn
    have hd : p.data.length = Config.fftSize / 2 := by simpa [Instr.wellFormed] using hw
    simp [encodeOperands, hd]
  | proc p => cases hn
  | aout p => cases hn
  | modf index x => cases hn; rfl
  | modg g => cases hn; rfl
  | rstf => cases hn; rfl
  | setq mode => cases hn; rfl
  | setx enabled g => cases hn; rfl
  | setl enabled det x => cases hn; rfl
  | setv f => cases hn; rfl

theorem buildInit_encode {p : InitPacket} (hf : p.filters.length = Config.nBands) :
    buildInit (encodeA (.init p)) (encodeOperands (.init p)) = some (.init p) := by
  obtain ⟨hmode, hsbr, hlim, hdet, -⟩ :=
    initByte_fields p.qualityMode p.sbrEnabled p.limiterEnabled (bitOfDet p.detectorMode)
  have hops : encodeOperands (.init p) = toWord p.gain :: (p.filters.flatMap encodeFilter ++
      (toWord p.sbrGain :: encodeLimiter p.limiter ++ [toWord p.fps])) := rfl
  have hsplit := splitFilters_flatMap p.filters (toWord p.sbrGain :: encodeLimiter p.limiter ++ [toWord p.fps])
  rw [hf] at hsplit
  simp only [encodeA_init, hops, buildInit, hsplit, hmode, hsbr, hlim, hdet, detOfBit_bitOfDet]
  rfl

/-- The fields of a packet are read back from its `a` byte and its operand words. -/
theorem build_encode {i : Instr} (hw : i.wellFormed = true) :
    build (opOfInstr i) (encodeA i) (encodeOperands i) = some i := by
  cases i with
  | init p => exact buildInit_encode (by simpa [Instr.wellFormed] using hw)
  | modf index x => rfl
  | modg g => rfl
  | rstf => rfl
  | setq mode => exact congrArg (fun m => some (Instr.setq m)) (modeByte_fields mode).1
  | setx enabled g => exact congrArg (fun b => some (Instr.setx b g)) (flagByte_fields enabled).1
  | setl enabled det x =>
    obtain ⟨hon, hdet, -⟩ := setlByte_fields enabled (bitOfDet det)
    show some (Instr.setl ((setlByte enabled (bitOfDet det)).getLsbD 0)
      (detOfBit ((setlByte enabled (bitOfDet det)).getLsbD 1)) x) = _
    rw [hon, hdet, detOfBit_bitOfDet]
  | setv f => rfl
  | proc p =>
    show some (Instr.proc ⟨p.nch, (p.samples.map toWord).map ofWord⟩) = _
    simp
  | aout p =>
    show some (Instr.aout ⟨p.nch, (p.samples.map toWord).map ofWord⟩) = _
    simp
  | tlm p =>
    show some (Instr.tlm ⟨(byteOfBit p.sbrActive 0).getLsbD 0, p.seq, p.red, (p.data.map toWord).map ofWord⟩) = _
    rw [(flagByte_fields p.sbrActive).1, map_toWord, map_ofWord]

/-! ### A packet and its words (R120 to R129) -/

/-- What `decode` reads: a header that selects a row, the words it counts, and the packet the row gives them. -/
theorem decode_eq_ok_iff (ws rest : List Word) (i : Instr) : decode ws = .ok (i, rest) ↔
    ∃ h ops op, ws = h :: (ops ++ rest) ∧ ops.length = hdrN h ∧ headerRow h = .ok op ∧
      build op (hdrA h) ops = some i := by
  constructor
  · intro hd
    cases ws with
    | nil => cases hd
    | cons h ws =>
      cases hrow : headerRow h with
      | error e => simp [decode, hrow] at hd
      | ok op =>
        cases hsplit : splitWords (hdrN h) ws with
        | none => simp [decode, hrow, hsplit] at hd
        | some r =>
          obtain ⟨ops, rest'⟩ := r
          obtain ⟨hlen, rfl⟩ := splitWords_inv hsplit
          cases hbuild : build op (hdrA h) ops with
          | none => simp [decode, hrow, hsplit, hbuild] at hd
          | some j =>
            simp only [decode, hrow, hsplit, hbuild, Except.ok.injEq, Prod.mk.injEq] at hd
            obtain ⟨rfl, rfl⟩ := hd
            exact ⟨h, ops, op, rfl, hlen, hrow, hbuild⟩
  · rintro ⟨h, ops, op, rfl, hlen, hrow, hbuild⟩
    simp only [decode, hrow, ← hlen, splitWords_append, hbuild]

/-- Every packet's first word is a header that says what follows it (R121). -/
theorem framing (i : Instr) : Framing.Statement i := by
  cases i with
  | init p => exact Framing.init p
  | modf index x => exact Framing.modf index x
  | modg g => exact Framing.modg g
  | rstf => exact Framing.rstf
  | setq mode => exact Framing.setq mode
  | setx enabled g => exact Framing.setx enabled g
  | setl enabled det x => exact Framing.setl enabled det x
  | setv f => exact Framing.setv f
  | proc p => exact Framing.proc p
  | aout p => exact Framing.aout p
  | tlm p => exact Framing.tlm p

/-- Settles O1: the header selects the packet's row, whose fields are then read back from the words it counts. -/
theorem decodeOfEncode : Obligations.DecodeOfEncode := by
  intro i rest hw
  obtain ⟨h, henc, hop, ha, hn⟩ := framing i hw
  have hwords : encode i ++ rest = h :: (encodeOperands i ++ rest) := by rw [henc, List.cons_append]
  refine (decode_eq_ok_iff _ _ _).mpr ⟨h, encodeOperands i, opOfInstr i, hwords, hn.symm, ?_, ?_⟩
  · rw [headerRow_eq_ok_iff, hop, ha, hn]
    exact ⟨rfl, length_encodeOperands hw, encodeA_and_opReserved i⟩
  · rw [ha, build_encode hw]

/-- Settles O2: the row, the `a` byte and the operands of the packet read are those of the words, and the three fields
are the whole header. -/
theorem encodeOfDecode : Obligations.EncodeOfDecode := by
  intro ws rest i hd
  obtain ⟨h, ops, op, rfl, hlen, hrow, hbuild⟩ := (decode_eq_ok_iff _ _ _).mp hd
  obtain ⟨hop, -, hres⟩ := (headerRow_eq_ok_iff h op).mp hrow
  obtain ⟨rfl, ha, rfl⟩ := build_inv hbuild hres
  rw [encode, hop, ha, hlen, mkHeader_fields, List.cons_append]

end Sys2Proof.Machine


/-! PROOFS. The control port's view of the decoder (30_encoding R125, R130 to R132): which header selects a row, why a
header or a packet is ignored, how the stream is cut into packets, and what a step does with the outcome. -/

namespace Sys2Proof.Machine

open Sys2Proof.Claims

/-! ### Mask and match (R125) -/

theorem hdrOp_opMask (op : Op) : hdrOp (opMask op) = BitVec.allOnes 8 := by cases op <;> rfl
theorem hdrA_opMask (op : Op) : hdrA (opMask op) = opReserved op := by cases op <;> rfl
theorem hdrN_opMask (op : Op) : hdrN (opMask op) = if (opLength op).isSome then 2 ^ 16 - 1 else 0 := by
  cases op <;> rfl
theorem hdrOp_opMatch (op : Op) : hdrOp (opMatch op) = opCode op := by cases op <;> rfl
theorem hdrA_opMatch (op : Op) : hdrA (opMatch op) = 0 := by cases op <;> rfl
theorem hdrN_opMatch (op : Op) : hdrN (opMatch op) = (opLength op).getD 0 := by cases op <;> rfl

theorem hdrN_and_opMask_iff (h : Word) (op : Op) :
    hdrN h &&& hdrN (opMask op) = hdrN (opMatch op) ↔ ∀ n ∈ opLength op, n = hdrN h := by
  rw [hdrN_opMask, hdrN_opMatch]
  cases opLength op with
  | none => simp
  | some n =>
    have hkept : hdrN h &&& 2 ^ 16 - 1 = hdrN h := Nat.and_two_pow_sub_one_of_lt_two_pow (hdrN_lt h)
    rw [Option.isSome_some, if_pos rfl, hkept]
    simp [eq_comm]

/-- R125: mask and match test the opcode, the operand count the row fixes, and the reserved bits. -/
theorem headerRow_eq_ok_iff_mask (h : Word) (op : Op) : headerRow h = .ok op ↔ h &&& opMask op = opMatch op := by
  rw [headerRow_eq_ok_iff, header_eq_iff, hdrOp_and, hdrA_and, hdrN_and, hdrN_and_opMask_iff, hdrOp_opMask,
    BitVec.and_allOnes, hdrOp_opMatch, hdrA_opMask, hdrA_opMatch, eq_comm (a := opCode op),
    and_comm (a := hdrA h &&& _ = 0)]

/-! ### The outcome on CTRL (R130 to R132) -/

theorem decodeCtrl_of_not_ctrl {h : Word} (hc : ctrlHeader h = false) (ops : List Word) :
    decodeCtrl h ops = .ignoreRaw h (.unknownOpcode h) := by
  simp [decodeCtrl, hc]

theorem decodeCtrl_of_headerRow_error {h : Word} (hc : ctrlHeader h = true) {e : DecodeError}
    (he : headerRow h = .error e) (ops : List Word) : decodeCtrl h ops = .ignoreRaw h (errorReason h e) := by
  simp [decodeCtrl, hc, decode, he]

theorem decodeCtrl_of_valid {h : Word} (hc : ctrlHeader h = true) {ops rest : List Word} {i : Instr}
    (hd : decode (h :: ops) = .ok (i, rest)) (hv : invalidReason i = none) : decodeCtrl h ops = .apply i := by
  simp [decodeCtrl, hc, hd, hv]

theorem decodeCtrl_of_invalid {h : Word} (hc : ctrlHeader h = true) {ops rest : List Word} {i : Instr}
    (hd : decode (h :: ops) = .ok (i, rest)) {r : IgnoreReason} (hr : invalidReason i = some r) :
    decodeCtrl h ops = .ignorePacket i r := by
  simp [decodeCtrl, hc, hd, hr]

theorem ctrlHeader_of_opOf {h : Word} {op : Op} (ho : opOf (hdrOp h) = some op) : ctrlHeader h = opIsCtrl op := by
  simp [ctrlHeader, ho]

/-- The header of a packet read has the packet's row. -/
theorem opOf_of_decode {h : Word} {ws rest : List Word} {i : Instr} (hd : decode (h :: ws) = .ok (i, rest)) :
    opOf (hdrOp h) = some (opOfInstr i) := by
  obtain ⟨g, ops, op, hws, -, hrow, hbuild⟩ := (decode_eq_ok_iff _ _ _).mp hd
  cases hws
  obtain ⟨hop, -, hres⟩ := (headerRow_eq_ok_iff h op).mp hrow
  obtain ⟨rfl, -, -⟩ := build_inv hbuild hres
  exact (opOf_eq_some_iff _ _).mpr hop

/-- A header whose opcode is on CTRL but that matches no control row is refused. -/
theorem headerRow_error_of_no_match {h : Word} (hno : ∀ op, opIsCtrl op = true → h &&& opMask op ≠ opMatch op)
    (hc : ctrlHeader h = true) : ∃ e, headerRow h = .error e := by
  cases hrow : headerRow h with
  | error e => exact ⟨e, rfl⟩
  | ok op =>
    have hop := (opOf_eq_some_iff _ _).mpr ((headerRow_eq_ok_iff h op).mp hrow).1
    rw [ctrlHeader_of_opOf hop] at hc
    exact absurd ((headerRow_eq_ok_iff_mask h op).mp hrow) (hno op hc)

/-! ### The audio port (R133) -/

theorem ainStatus_ne_bad_iff (block : Nat) (h : Word) (ws : List Word) :
    ainStatus block (h :: ws) ≠ .bad ↔ hdrOp h = opCode .proc ∧ audioFits block (hdrA h) (hdrN h) = true := by
  rw [ainStatus]
  split
  next hfit =>
    have hfit : hdrOp h = opCode .proc ∧ audioFits block (hdrA h) (hdrN h) = true := by simpa using hfit
    split <;> simp [hfit]
  next hno => simpa using hno

/-- PROC's row fixes neither a count nor a bit of the `a` byte, so its mask tests the opcode only. -/
theorem and_opMask_proc_iff (h : Word) : h &&& opMask .proc = opMatch .proc ↔ hdrOp h = opCode .proc := by
  rw [← headerRow_eq_ok_iff_mask, headerRow_eq_ok_iff, eq_comm]
  simp [opLength, opReserved]

/-- Settles O3: mask and match are the tests of the header's fields, so a header no control row matches is refused, and
AIN asks for PROC's opcode and a length that fits. -/
theorem maskAndMatchSelectTheRow : Obligations.MaskAndMatchSelectTheRow := by
  refine ⟨headerRow_eq_ok_iff_mask, fun h ops hno => ?_, fun block h ws => ?_⟩
  · cases hc : ctrlHeader h with
    | false => exact ⟨_, decodeCtrl_of_not_ctrl hc ops⟩
    | true =>
      obtain ⟨e, he⟩ := headerRow_error_of_no_match hno hc
      exact ⟨_, decodeCtrl_of_headerRow_error hc he ops⟩
  · rw [ainStatus_ne_bad_iff, and_opMask_proc_iff]
    simp [audioFits]

/-! ### Headers that are refused (R132, R303) -/

/-- Every row of CTRL fixes its operand count (R122). -/
theorem isSome_opLength_of_ctrl {op : Op} (h : opIsCtrl op = true) : (opLength op).isSome = true := by
  revert h
  cases op <;> decide

theorem headerRow_of_length_ne {h : Word} {op : Op} (ho : opOf (hdrOp h) = some op) {n : Nat}
    (hl : opLength op = some n) (hne : n ≠ hdrN h) : headerRow h = .error (.badLength h) := by
  simp [headerRow, ho, hl, hne]

theorem headerRow_of_reserved {h : Word} {op : Op} (ho : opOf (hdrOp h) = some op) (hl : opLength op = some (hdrN h))
    (hres : hdrA h &&& opReserved op ≠ 0) : headerRow h = .error (.reservedBits h) := by
  simpa [headerRow, ho, hl] using hres

/-- Settles O5: the opcode is tested first, then the length, then the reserved bits. -/
theorem malformedHeadersAreIgnored : Obligations.MalformedHeadersAreIgnored := by
  refine ⟨fun h ops hno => decodeCtrl_of_not_ctrl hno ops, fun h ops op ho hctrl => ?_⟩
  have hc : ctrlHeader h = true := (ctrlHeader_of_opOf ho).trans hctrl
  refine ⟨fun hne => ?_, fun hl hres => ?_⟩
  · obtain ⟨n, hn⟩ := Option.isSome_iff_exists.mp (isSome_opLength_of_ctrl hctrl)
    have hne : n ≠ hdrN h := fun e => hne (e ▸ hn)
    exact decodeCtrl_of_headerRow_error hc (headerRow_of_length_ne ho hn hne) ops
  · exact decodeCtrl_of_headerRow_error hc (headerRow_of_reserved ho hl hres) ops

/-! ### Validity (R131, R303) -/

theorem nanReason_eq_none {op : Op} {vs : List V} (h : ∀ v ∈ vs, isNaN v = false) : nanReason op vs = none := by
  rw [nanReason, (firstNan_eq_none_iff vs).mpr h, Option.map_none]

theorem nanReason_of_isNaN {op : Op} {vs : List V} (h : ∃ v ∈ vs, isNaN v = true) :
    ∃ k, nanReason op vs = some (.nanOperand op k) := by
  cases hk : firstNan vs with
  | some k => exact ⟨k, by rw [nanReason, hk, Option.map_some]⟩
  | none =>
    obtain ⟨v, hv, hn⟩ := h
    simp [(firstNan_eq_none_iff vs).mp hk v hv] at hn

theorem gainReason_of_isNaN (op : Op) {g : V} (h : isNaN g = true) : gainReason op g = some (.nanOperand op 0) := by
  simp [gainReason, h]

theorem gainReason_of_isInf (op : Op) {g : V} (h : isInf g = true) : gainReason op g = some (.nonFiniteGain op) := by
  have hm : fMag g = infMag := by simpa [isInf_eq] using h
  simp [gainReason, isNaN_eq, isFinite_eq, hm]

/-- A gain that has no clamp: valid if finite, and why not (R131). -/
theorem gainReason_cases (op : Op) (g : V) : (gainReason op g = none ↔ isFinite g = true) ∧
    (isNaN g = true → ∃ k, gainReason op g = some (.nanOperand op k)) ∧
    (isInf g = true → gainReason op g = some (.nonFiniteGain op)) :=
  ⟨gainReason_eq_none_iff op g, fun h => ⟨0, gainReason_of_isNaN op h⟩, gainReason_of_isInf op⟩

/-- Settles O6: the index comes before the operands, and the operands are judged as a list or as a gain. -/
theorem validityOfMatchedPackets : Obligations.ValidityOfMatchedPackets := by
  refine ⟨fun index x => ⟨fun hi => if_pos hi, fun hi => ?_⟩, fun _ => rfl, gainReason_cases .modg,
    fun _ => gainReason_cases .setx, fun b d x => ⟨fun h => ?_, fun h => ?_⟩, fun f => ⟨fun h => ?_, fun h => ?_⟩,
    fun _ => rfl⟩
  · have hr : invalidReason (.modf index x) = nanReason .modf [x.frequency, x.gain, x.q] := if_neg (Nat.not_le.mpr hi)
    rw [hr]
    exact ⟨fun h => nanReason_eq_none (by simpa using h), fun h => nanReason_of_isNaN (by simpa using h)⟩
  · exact nanReason_eq_none (by simpa using h)
  · exact nanReason_of_isNaN (by simpa using h)
  · exact nanReason_eq_none (by simpa using h)
  · exact nanReason_of_isNaN (by simpa using h)

/-! ### The stream (R121, R130) -/

/-- Fuel for one packet a word is enough, and more changes nothing. -/
theorem decodeStreamFuel_congr {j k : Nat} {ws : List Word} (hj : ws.length ≤ j) (hk : ws.length ≤ k) :
    decodeStreamFuel j ws = decodeStreamFuel k ws := by
  induction j generalizing k ws with
  | zero =>
    rw [List.length_eq_zero_iff.mp (Nat.le_zero.mp hj)]
    cases k <;> rfl
  | succ j ih =>
    cases ws with
    | nil => cases k <;> rfl
    | cons h ws =>
      cases k with
      | zero => cases hk
      | succ k =>
        rw [decodeStreamFuel, decodeStreamFuel]
        cases hs : splitWords (hdrN h) ws with
        | none => rfl
        | some r =>
          obtain ⟨ops, rest⟩ := r
          obtain ⟨-, rfl⟩ := splitWords_inv hs
          simp only [List.length_cons, List.length_append] at hj hk
          simp only [ih (ws := rest) (k := k) (by omega) (by omega)]

/-- Settles O7: the header's count cuts off its operands, and the fuel left is enough for the rest. -/
theorem packetsAreFramedByTheirHeader : Obligations.PacketsAreFramedByTheirHeader := by
  intro h ops rest hlen
  have hrest : decodeStreamFuel (ops ++ rest).length rest = decodeStream rest :=
    decodeStreamFuel_congr (by simp) le_rfl
  simp only [decodeStream, List.cons_append, List.length_cons, decodeStreamFuel, ← hlen, splitWords_append, hrest]

/-! ### The step (R279, R280) -/

/-- Where the host has nothing to do or waits, the block applies the head of the queue. -/
theorem step_of_queue {s : State} (hp : strapsLegal s.par = true) {o : CtrlOutcome} {rest : List CtrlOutcome}
    (hq : s.cq = o :: rest) {later : List HostMove} (hh : s.host = [] ∧ later = [] ∨ s.host = .wait :: later) :
    step s = ctrlApply o { s with cq := rest, host := later } := by
  obtain ⟨hh, rfl⟩ | hh := hh
  · rw [step_of_no_move hp hh, blockMove_of_queue hq, ← hh]
  · rw [step_of_move hp hh]
    exact blockMove_of_queue (s := { s with host := later }) hq

/-- Settles O9: the head of the queue is the packet, or why it is ignored, and the step applies it. -/
theorem stepRunsTheDecodedPacket : Obligations.StepRunsTheDecodedPacket := by
  intro s h ops rest later hp hq hh s'
  have hstep : step s = ctrlApply (decodeCtrl h ops) s' := step_of_queue hp hq hh
  refine ⟨fun i hd hctrl => ?_, fun r hr => by rw [hstep, hr]; rfl⟩
  have hc : ctrlHeader h = true := (ctrlHeader_of_opOf (opOf_of_decode hd)).trans hctrl
  refine ⟨fun hv => ?_, fun r hr => ?_⟩
  · rw [hstep, decodeCtrl_of_valid hc hd hv]
    rfl
  · rw [hstep, decodeCtrl_of_invalid hc hd hr]
    rfl

/-! ### Words from the spec (R134) -/

/-- Settles O4: each sequence is decoded as R122 to R124 lay it out. -/
theorem specWordsDecode : Obligations.SpecWordsDecode := by
  unfold Obligations.SpecWordsDecode
  decide +kernel

end Sys2Proof.Machine


/-! PROOFS. The FilterBank's control packets (40_filterbank R150 to R152): what each writes and the events it raises. -/

namespace Sys2Proof.Machine

open Sys2Proof.Claims

/-! ### One section (R150, R158) -/

/-- The row a section is given is finite: the section is written and nothing is raised. -/
theorem withParams_of_rowOk {p : Params} {m : QualityMode} {i : Nat} {x : FilterParams}
    (h : rowOk (coef p (kindOf i) x.frequency (fMul x.q (qScale m)) x.gain) = true) (old : Section) :
    let row := coef p (kindOf i) x.frequency (fMul x.q (qScale m)) x.gain
    withParams p m i old x = { f := x.frequency, g := x.gain, q := x.q, row := row } ∧ coefEvent p m i x = [] :=
  ⟨if_pos h, if_pos h⟩

/-- It is not finite: the section stays as it was, and `NonFiniteCoef` is raised. -/
theorem withParams_of_not_rowOk {p : Params} {m : QualityMode} {i : Nat} {x : FilterParams}
    (h : rowOk (coef p (kindOf i) x.frequency (fMul x.q (qScale m)) x.gain) = false) (old : Section) :
    withParams p m i old x = old ∧ coefEvent p m i x = [.cmdIgnored (.nonFiniteCoef i)] := by
  simp [withParams, coefEvent, h]

/-! ### MODF (R150) -/

theorem execModf_of_invalid {index : BitVec 8} {x : FilterParams} {r : IgnoreReason}
    (h : invalidReason (.modf index x) = some r) (s : State) : execModf index x s = .next (ignore s r) := by
  simp only [execModf, applyModf, h]

theorem execModf_of_valid {index : BitVec 8} {x : FilterParams} (h : invalidReason (.modf index x) = none)
    (hi : index.toNat < Config.nBands) (s : State) :
    let y := clampFilter s.par x
    let sec := withParams s.par s.fb.qmode index.toNat s.fb.sections[index.toNat] y
    execModf index x s = .next (raise
      { s with fb := { s.fb with sections := s.fb.sections.set index.toNat sec } }
      (clampFilterEvents s.par x ++ coefEvent s.par s.fb.qmode index.toNat y)) := by
  simp only [execModf, applyModf, h, hi, dif_pos]

/-- Settles O26: a valid MODF writes its section or, the row not being finite, the section as it was. -/
theorem modfWritesOneSection : Obligations.ModfWritesOneSection := by
  intro index x s
  obtain ⟨hbad, hvalid⟩ := validityOfMatchedPackets.1 index x
  refine ⟨fun hi hf hg hq => ?_, fun hi => execModf_of_invalid (hbad hi) s, fun hi hn => ?_⟩
  · have hexec := execModf_of_valid ((hvalid hi).1 ⟨hf, hg, hq⟩) hi s
    refine ⟨fun hrow => ?_, fun hrow => ⟨clampFilterEvents s.par x, ?_⟩⟩
    · obtain ⟨hsec, hev⟩ := withParams_of_rowOk (x := clampFilter s.par x) hrow s.fb.sections[index.toNat]
      simp only [hsec, hev, List.append_nil] at hexec
      exact hexec
    · obtain ⟨hsec, hev⟩ := withParams_of_not_rowOk (x := clampFilter s.par x) hrow s.fb.sections[index.toNat]
      simp only [hsec, hev, Vector.set_getElem_self] at hexec
      exact hexec
  · obtain ⟨k, hk⟩ := (hvalid hi).2 hn
    exact ⟨k, execModf_of_invalid hk s⟩

/-! ### RSTF (R151) and SETQ (R152) -/

/-- Settles O27: each section is written by itself, from its reset parameters. -/
theorem rstfResetsEverySection : Obligations.RstfResetsEverySection :=
  fun _ => ⟨_, rfl, fun _ => Vector.getElem_ofFn _⟩

theorem modeOf_modeBits (m : QualityMode) : modeOf (modeBits m) = some m := by cases m <;> rfl

theorem execSetq_modeBits (m : QualityMode) (s : State) : execSetq (modeBits m) s = .next (raise
    { s with fb := { s.fb with
        qmode := m
        sections := Vector.ofFn fun i => withParams s.par m i.val s.fb.sections[i] (paramsOf s.fb.sections[i]) } }
    ((List.finRange Config.nBands).flatMap fun i => coefEvent s.par m i.val (paramsOf s.fb.sections[i]))) := by
  simp only [execSetq, applySetq, modeOf_modeBits]

/-- Settles O28: every row is derived from its section's own parameters under the new mode; 3 is no mode. -/
theorem setqDerivesEveryRow : Obligations.SetqDerivesEveryRow :=
  fun s => ⟨fun m => ⟨_, execSetq_modeBits m s, fun _ => Vector.getElem_ofFn _⟩, rfl⟩

end Sys2Proof.Machine


/-! PROOFS. The cascade (40_filterbank R160, R161): what its first sections give, leave in the channel's registers and
raise, each section by the recurrence. -/

namespace Sys2Proof.Machine

open Sys2Proof.Claims

/-! ### The first sections of the cascade (R160) -/

section

variable (sections : Vector Section Config.nBands) (hist : Vector Biquad Config.nBands) (c : Chan) (t : Nat) (x : V)

/-- The output of section `i` before its guard; a section is fed what the ones before it give. -/
def cascadeRaw (i : Nat) : V :=
  if h : i < Config.nBands then biquadRaw sections[i].row hist[i] (cascade sections hist c t x i).out else posZero

theorem cascadeRaw_of_lt {i : Nat} (h : i < Config.nBands) : cascadeRaw sections hist c t x i =
    biquadRaw sections[i].row hist[i] (cascade sections hist c t x i).out := dif_pos h

/-- One section more. -/
theorem cascade_succ {k : Nat} (hk : k < Config.nBands) :
    let o := cascade sections hist c t x k
    let y := sanV (cascadeRaw sections hist c t x k)
    cascade sections hist c t x (k + 1) =
      { out := y, st := o.st.set k (biquadShift hist[k] o.out y)
        ev := o.ev ++ sanEvent (.section_ k) (some c) t (cascadeRaw sections hist c t x k) } := by
  simp only [cascade, hk, dif_pos, cascadeRaw, biquadOut]

/-- Each section is fed the guarded output of the one before. -/
theorem cascade_out_succ {k : Nat} (hk : k < Config.nBands) :
    (cascade sections hist c t x (k + 1)).out = sanV (cascadeRaw sections hist c t x k) := by
  rw [cascade_succ _ _ _ _ _ hk]

theorem cascade_ev {k : Nat} (hk : k ≤ Config.nBands) : (cascade sections hist c t x k).ev =
    (List.range k).flatMap fun i => sanEvent (.section_ i) (some c) t (cascadeRaw sections hist c t x i) := by
  induction k with
  | zero => rfl
  | succ k ih =>
    rw [cascade_succ _ _ _ _ _ hk, ih (Nat.le_of_succ_le hk), List.range_succ, List.flatMap_append,
      List.flatMap_singleton]

/-- The sections passed have shifted their registers by one, the others hold what they held. -/
theorem cascade_st {k : Nat} (hk : k ≤ Config.nBands) {i : Nat} (hi : i < Config.nBands) :
    (cascade sections hist c t x k).st[i] =
      if i < k then biquadShift hist[i] (cascade sections hist c t x i).out (cascade sections hist c t x (i + 1)).out
      else hist[i] := by
  induction k with
  | zero => rfl
  | succ k ih =>
    simp only [cascade_succ _ _ _ _ _ hk, Vector.getElem_set]
    split
    · rename_i hik
      subst hik
      rw [if_pos (Nat.lt_succ_self k), cascade_out_succ _ _ _ _ _ hk]
    · rename_i hne
      rw [ih (Nat.le_of_succ_le hk)]
      exact if_congr (by omega) rfl rfl

end

/-! ### A sample through the FilterBank (R160, R161) -/

theorem chGet_chSet_of_ne {α : Type} (x : Stereo α) {c d : Chan} (h : d ≠ c) (v : α) :
    chGet (chSet x c v) d = chGet x d := by
  match c, d with
  | .c0, .c0 | .c1, .c1 => exact absurd rfl h
  | .c0, .c1 | .c1, .c0 => rfl

/-- The registers of the sample's own channel are the cascade's. -/
@[simp] theorem chGet_fbProcess (fb : FilterBank) (c : Chan) (t : Nat) (x : V) :
    chGet (fbProcess fb c t x).st.hist c = (cascade fb.sections (chGet fb.hist c) c t x Config.nBands).st :=
  chGet_chSet _ _ _

/-- Settles O35: the inputs and outputs are those of the cascade cut off after each section. -/
theorem cascadeFollowsTheRecurrence : Obligations.CascadeFollowsTheRecurrence := by
  intro fb c n x
  refine ⟨rfl, rfl, fun d hd => chGet_chSet_of_ne _ hd _,
    fun k => (cascade fb.sections (chGet fb.hist c) c n x k).out,
    cascadeRaw fb.sections (chGet fb.hist c) c n x, rfl, rfl, cascade_ev _ _ _ _ _ le_rfl, fun i => ⟨?_, ?_, ?_⟩⟩
  · exact cascadeRaw_of_lt _ _ _ _ _ i.isLt
  · exact cascade_out_succ _ _ _ _ _ i.isLt
  · rw [chGet_fbProcess]
    exact (cascade_st _ _ _ _ _ le_rfl i.isLt).trans (if_pos i.isLt)

/-- Settles O36: the cascade is given the sections and the registers of its own channel, and nothing else. -/
theorem channelsDoNotInterfere : Obligations.ChannelsDoNotInterfere := by
  intro fb fb' c n x hsec hhist
  rw [chGet_fbProcess, chGet_fbProcess]
  simp only [fbProcess, hsec, hhist, and_self]

end Sys2Proof.Machine


/-! PROOFS. Sums, products and quotients by the exact integer they round (00_scope R17), and IEEE equality (R18) as
equality of exact integers: what a flat section (40_filterbank R159, R163) rests on. -/

namespace Sys2Proof.Machine

open Sys2Proof.Claims

/-! ### The place of a rounded result in the order (R17, R18) -/

/-- The place in the order of `x / d` rounded. -/
def roundKey (x : Int) (d : Nat) : Int := if x < 0 then -(roundMag x.natAbs d : Int) else roundMag x.natAbs d

theorem roundMag_zero {d : Nat} (hd : 0 < d) : roundMag 0 d = 0 :=
  (roundMag_congr hd one_pos (by simp) : roundMag 0 d = roundMag 0 1).trans (by decide +kernel)

theorem fKey_fRound {neg : Bool} {n d : Nat} {x : Int} (hx : x = if neg then -(n : Int) else (n : Int)) (hd : 0 < d) :
    fKey (fRound neg n d) = roundKey x d := by
  have hz := roundMag_zero hd
  rw [fKey_eq, fSign_fRound, fMag_fRound, roundKey, show x.natAbs = n by subst hx; cases neg <;> simp]
  rcases Nat.eq_zero_or_pos n with rfl | hn
  · simp [hz]
  · cases neg <;> simp only [Bool.false_eq_true, if_false, if_true] at hx ⊢
    · rw [if_neg (by omega)]
    · rw [if_pos (by omega)]

theorem roundKey_neg {d : Nat} (hd : 0 < d) (x : Int) : roundKey (-x) d = -roundKey x d := by
  have hz := roundMag_zero hd
  rcases lt_trichotomy x 0 with h | rfl | h
  · rw [roundKey, roundKey, if_neg (by omega), if_pos h, Int.natAbs_neg, neg_neg]
  · simp [roundKey, hz]
  · rw [roundKey, roundKey, if_pos (by omega), if_neg (by omega), Int.natAbs_neg]

/-- Rounding keeps the order, on both sides of 0. -/
theorem roundKey_mono {d : Nat} (hd : 0 < d) {x y : Int} (h : x ≤ y) : roundKey x d ≤ roundKey y d := by
  have mono : ∀ {m n : Nat}, m ≤ n → roundMag m d ≤ roundMag n d := fun hmn =>
    roundMag_mono hd hd (Nat.mul_le_mul_right d hmn)
  unfold roundKey
  split <;> split
  · have := mono (show y.natAbs ≤ x.natAbs by omega)
    omega
  · omega
  · omega
  · have := mono (show x.natAbs ≤ y.natAbs by omega)
    omega

/-- A finite value is its own rounding. -/
theorem roundKey_fInt {a : V} (ha : isFinite a = true) : roundKey (fInt a) 1 = fKey a := by
  rw [← fKey_fRound (neg := fSign a) (n := fUnits a) (fInt_eq a) one_pos, fRound_self ha one_pos (by simp)]

theorem fKey_fAdd_eq {a b : V} (ha : isFinite a = true) (hb : isFinite b = true) :
    fKey (fAdd a b) = roundKey (fInt a + fInt b) 1 :=
  (fKey_fAdd ha hb).2.trans (fKey_fRound (natAbs_signed _) one_pos)

theorem fKey_fMul {a b : V} (ha : isFinite a = true) (hb : isFinite b = true) :
    fKey (fMul a b) = roundKey (fInt a * fInt b) (2 ^ 149) := by
  rw [fMul_of_finite ha hb]
  exact fKey_fRound (fInt_mul_natCast a b) (by positivity)

theorem fKey_fDiv {a b : V} (ha : isFinite a = true) (hb : isFinite b = true) (h0 : 0 < fInt b) :
    fKey (fDiv a b) = roundKey (fInt a * 2 ^ 149) (fUnits b) := by
  obtain ⟨hu, hd⟩ := fDiv_of_pos ha hb h0
  rw [hd]
  refine fKey_fRound ?_ (by omega)
  rw [fInt_eq]
  split <;> push_cast <;> ring

/-! ### IEEE equality on exact integers (R18) -/

theorem fKey_inj {a b : V} (ha : isFinite a = true) (hb : isFinite b = true) : fKey a = fKey b ↔ fInt a = fInt b := by
  have h1 := fKey_le_iff ha hb
  have h2 := fKey_le_iff hb ha
  omega

theorem fEq_iff {a b : V} (ha : isFinite a = true) (hb : isFinite b = true) : fEq a b = true ↔ fInt a = fInt b := by
  simp [fEq_eq, isNaN_of_isFinite ha, isNaN_of_isFinite hb, fKey_inj ha hb]

/-- Equal values have the same magnitude, the two zeros included. -/
theorem fMag_of_fEq {a b : V} (h : fEq a b = true) : fMag a = fMag b := by
  simp only [fEq_eq, Bool.and_eq_true, decide_eq_true_eq] at h
  have hk := h.2
  rw [fKey_eq, fKey_eq] at hk
  split at hk <;> split at hk <;> omega

theorem isFinite_of_fEq {a b : V} (h : fEq a b = true) (hb : isFinite b = true) : isFinite a = true := by
  rwa [isFinite_iff, fMag_of_fEq h, ← isFinite_iff]

theorem fEq_refl {a : V} (h : isFinite a = true) : fEq a a = true := (fEq_iff h h).mpr rfl

theorem fEq_comm (a b : V) : fEq a b = fEq b a := by simp only [fEq_eq, Bool.and_comm, eq_comm]

/-- A range with ends `-u` and `u` bounds the magnitude. -/
theorem fIn_fNeg_iff {u v : V} (hu : isFinite u = true) (hs : fSign u = false) :
    fIn (fNeg u) u v = true ↔ fMag v ≤ fMag u := by
  have hku : fKey u = fMag u := by simp [fKey_eq, hs]
  constructor
  · intro h
    simp only [fIn, fLe_eq, Bool.and_eq_true, decide_eq_true_eq, fKey_fNeg, hku] at h
    obtain ⟨⟨-, hlo⟩, -, hhi⟩ := h
    rw [fKey_eq] at hlo hhi
    split at hlo <;> simp_all
  · intro h
    have hv : isFinite v = true := (isFinite_iff v).mpr (lt_of_le_of_lt h ((isFinite_iff u).mp hu))
    have hkv := fKey_eq v
    simp only [fIn, fLe_eq, isNaN_fNeg, isNaN_of_isFinite hu, isNaN_of_isFinite hv, fKey_fNeg, hku, Bool.not_false,
      Bool.true_and, Bool.and_eq_true, decide_eq_true_eq]
    split at hkv <;> omega

/-! ### Zeros in sums and products (R17) -/

theorem fMag_mkV_zero (s : Bool) : fMag (mkV s 0) = 0 := fMag_mkV s 0 (by norm_num)

/-- Values that cancel sum to a zero. -/
theorem fMag_fAdd_of_cancel {a b : V} (ha : isFinite a = true) (hb : isFinite b = true) (h : fInt a + fInt b = 0) :
    fMag (fAdd a b) = 0 := by
  rw [fAdd_of_finite ha hb, if_pos h, fMag_mkV_zero]

theorem fMag_fSub_of_fEq {a b : V} (hb : isFinite b = true) (h : fEq a b = true) : fMag (fSub a b) = 0 := by
  have ha := isFinite_of_fEq h hb
  have hab := (fEq_iff ha hb).mp h
  rw [fSub_eq]
  exact fMag_fAdd_of_cancel ha (by simpa using hb) (by rw [fInt_fNeg]; omega)

theorem fMag_fMul_posZero {a : V} (ha : isFinite a = true) : fMag (fMul posZero a) = 0 := by
  rw [fMul_of_finite isFinite_posZero ha, fMag_fRound, show fUnits posZero = 0 by decide, Nat.zero_mul]
  exact roundMag_zero (by positivity)

theorem isFinite_of_fMag_zero {a : V} (h : fMag a = 0) : isFinite a = true := by
  rw [isFinite_iff, h, infMag_eq]
  norm_num

theorem fInt_eq_zero_iff {a : V} (ha : isFinite a = true) : fInt a = 0 ↔ fMag a = 0 := by
  rw [← fMag_eq_zero_iff ha, fInt_eq]
  split <;> omega

/-- The only zero besides `-0`. -/
theorem eq_posZero_of_fInt {a : V} (ha : isFinite a = true) (h0 : fInt a = 0) (hne : a ≠ negZero) : a = posZero := by
  have hm := (fInt_eq_zero_iff ha).mp h0
  cases hs : fSign a with
  | false => exact eq_of_sign_mag hs hm
  | true => exact absurd (eq_of_sign_mag hs hm) hne

/-- The exact integer of a finite value other than the zeros rounds to the value. -/
theorem fRound_fInt {a : V} (ha : isFinite a = true) (h0 : fInt a ≠ 0) :
    fRound (decide (fInt a < 0)) (fInt a).natAbs 1 = a := by
  have hs : decide (fInt a < 0) = fSign a ∧ (fInt a).natAbs = fUnits a := by
    rw [fInt_eq] at h0 ⊢
    cases hs : fSign a with
    | false => simp
    | true =>
      simp only [hs, if_true] at h0 ⊢
      simp
      omega
  rw [hs.1, hs.2]
  exact fRound_self ha one_pos (by simp)

/-- A value plus a zero is the value, up to the sign of a zero (R163). -/
theorem passes_fAdd_zero {a z : V} (ha : isFinite a = true) (hz : fMag z = 0) : passes a (fAdd a z) := by
  have hzf := isFinite_of_fMag_zero hz
  have hsum : fInt a + fInt z = fInt a := by rw [(fInt_eq_zero_iff hzf).mpr hz, add_zero]
  have hnan := (fKey_fAdd ha hzf).1
  refine ⟨?_, fun hne => ?_⟩
  · rw [fEq_eq, fKey_fAdd_eq ha hzf, hsum, roundKey_fInt ha, hnan, isNaN_of_isFinite ha]
    simp
  · rw [fAdd_of_finite ha hzf, hsum]
    split
    · rename_i h0
      rw [eq_posZero_of_fInt ha h0 hne, show fSign posZero = false by decide, Bool.false_and]
      rfl
    · rename_i h0
      exact fRound_fInt ha h0

/-- Factors with the same exact product give equal products. -/
theorem fEq_fMul {a a' b b' : V} (ha : isFinite a = true) (hb : isFinite b = true) (ha' : isFinite a' = true)
    (hb' : isFinite b' = true) (h : fInt a * fInt b = fInt a' * fInt b') : fEq (fMul a b) (fMul a' b') = true := by
  have notNaN : ∀ v w, isFinite v = true → isFinite w = true → isNaN (fMul v w) = false := fun v w hv hw => by
    rw [fMul_of_finite hv hw]
    exact isNaN_fRound _ _ _
  rw [fEq_eq, notNaN _ _ ha hb, notNaN _ _ ha' hb', fKey_fMul ha hb, fKey_fMul ha' hb', h]
  simp

/-- `+0` plus a value. -/
theorem fInt_posZero_fAdd {a : V} (ha : isFinite a = true) :
    isFinite (fAdd posZero a) = true ∧ fInt (fAdd posZero a) = fInt a := by
  have heq : fEq (fAdd posZero a) a = true := by
    rw [fEq_eq, fKey_fAdd_eq isFinite_posZero ha, fInt_posZero, zero_add, roundKey_fInt ha,
      (fKey_fAdd isFinite_posZero ha).1, isNaN_of_isFinite ha]
    simp
  have hf := isFinite_of_fEq heq ha
  exact ⟨hf, (fEq_iff hf ha).mp heq⟩

/-- Equal dividends give equal quotients. -/
theorem fEq_fDiv {a a' b : V} (ha : isFinite a = true) (hb : isFinite b = true) (h0 : 0 < fInt b)
    (haa : fEq a' a = true) : fEq (fDiv a' b) (fDiv a b) = true := by
  have ha' := isFinite_of_fEq haa ha
  have notNaN : ∀ v, isFinite v = true → isNaN (fDiv v b) = false := fun v hv => by
    rw [(fDiv_of_pos hv hb h0).2]
    exact isNaN_fRound _ _ _
  rw [fEq_iff ha' ha] at haa
  rw [fEq_eq, notNaN _ ha', notNaN _ ha, fKey_fDiv ha' hb h0, fKey_fDiv ha hb h0, haa]
  simp

end Sys2Proof.Machine


/-! PROOFS. Flat sections: a row at 0 dB is flat (40_filterbank R159), and flat sections with matched filter state pass
every sample (R163). -/

namespace Sys2Proof.Machine

open Sys2Proof.Claims

/-! ### A row at 0 dB (R159) -/

/-- A difference from a positive value is no greater in magnitude than the sum. -/
theorem fInt_fSub_le_fAdd {a s : V} (ha : isFinite a = true) (hs : isFinite s = true) (ha0 : 0 ≤ fInt a)
    (hs0 : 0 ≤ fInt s) (hsub : isFinite (fSub a s) = true) (hadd : isFinite (fAdd a s) = true) :
    -fInt (fAdd a s) ≤ fInt (fSub a s) ∧ fInt (fSub a s) ≤ fInt (fAdd a s) := by
  have hsn : isFinite (fNeg s) = true := by simpa using hs
  have hkadd := fKey_fAdd_eq ha hs
  have hksub : fKey (fSub a s) = roundKey (fInt a - fInt s) 1 := by
    rw [fSub_eq, fKey_fAdd_eq ha hsn, fInt_fNeg]
    rfl
  rw [← fInt_fNeg, ← fKey_le_iff (by simpa using hadd) hsub, ← fKey_le_iff hsub hadd, fKey_fNeg, hkadd, hksub,
    ← roundKey_neg one_pos]
  exact ⟨roundKey_mono one_pos (by omega), roundKey_mono one_pos (by omega)⟩

/-- A quotient of magnitude at most `u`: the dividend is at most `u` times the divisor. -/
theorem fIn_fDiv_of_le {a b u : V} (ha : isFinite a = true) (hb : isFinite b = true) (hu : isFinite u = true)
    (h0 : 0 < fInt b) (hlo : -(fInt u * fInt b) ≤ fInt a * 2 ^ 149) (hhi : fInt a * 2 ^ 149 ≤ fInt u * fInt b) :
    fIn (fNeg u) u (fDiv a b) = true := by
  have low := le_fDiv (c := fNeg u) ha hb (by simpa using hu) h0 (by rwa [fInt_fNeg, Int.neg_mul])
  simp only [fIn, low, fDiv_le ha hb hu h0 hhi, Bool.and_self]

section

variable {d s : V} (hd : fIn one two d = true) (hs : fIn posZero (toF 8) s = true)

include hd hs

/-- The divisor of a flat row is positive, and no smaller than its first summand. -/
theorem flatDivisor : isFinite (fAdd d s) = true ∧ 0 < fInt (fAdd d s) ∧ fInt d ≤ fInt (fAdd d s) := by
  have sumIn : fIn one sixteen (fAdd d s) = true := fIn_fAdd hd hs (by decide +kernel)
  obtain ⟨hdf, -, -⟩ := (fIn_iff isFinite_one (by decide +kernel)).mp hd
  obtain ⟨hsf, hs0, -⟩ := (fIn_iff isFinite_posZero (by decide +kernel)).mp hs
  obtain ⟨haf, ha1, -⟩ := (fIn_iff isFinite_one (by decide +kernel)).mp sumIn
  rw [fInt_one] at ha1
  rw [fInt_posZero] at hs0
  exact ⟨haf, by omega, (fLe_iff hdf haf).mp (le_fAdd hdf hsf hdf (by omega))⟩

/-- `b1` of a flat row. -/
theorem fIn_flat_b1 {e b1 : V} (he : isFinite e = true ∧ fInt e = 2 * fInt d) (hb1 : fIn (fNeg e) e b1 = true) :
    fIn (fNeg two) two (fDiv b1 (fAdd d s)) = true := by
  obtain ⟨haf, hpos, hda⟩ := flatDivisor hd hs
  obtain ⟨hef, hei⟩ := he
  obtain ⟨hf, hlo, hhi⟩ := (fIn_iff (by simpa using hef) hef).mp hb1
  rw [fInt_fNeg, hei] at hlo
  rw [hei] at hhi
  have itwo : fInt two = 2 * 2 ^ 149 := by decide +kernel
  exact fIn_fDiv_of_le hf haf (by decide +kernel) hpos (by rw [itwo]; nlinarith) (by rw [itwo]; nlinarith)

/-- `b2` of a flat row. -/
theorem fIn_flat_b2 : fIn (fNeg one) one (fDiv (fSub d s) (fAdd d s)) = true := by
  obtain ⟨haf, hpos, -⟩ := flatDivisor hd hs
  obtain ⟨hdf, hd1, -⟩ := (fIn_iff isFinite_one (by decide +kernel)).mp hd
  obtain ⟨hsf, hs0, -⟩ := (fIn_iff isFinite_posZero (by decide +kernel)).mp hs
  rw [fInt_one] at hd1
  rw [fInt_posZero] at hs0
  have diffIn : fIn (fNeg sixteen) sixteen (fSub d s) = true := fIn_fSub hd hs (by decide +kernel)
  have hf := isFinite_of_fIn diffIn (by decide +kernel) (by decide +kernel)
  obtain ⟨hlo, hhi⟩ := fInt_fSub_le_fAdd hdf hsf (by omega) hs0 hf haf
  exact fIn_fDiv_of_le hf haf isFinite_one hpos (by rw [fInt_one]; nlinarith) (by rw [fInt_one]; nlinarith)

/-- What R159 rests on: the row of raw coefficients `b0 = a0 = d + s`, `b2 = a2 = d - s` and equal `b1`, `a1` of
magnitude at most `e = 2 d` is flat and finite. -/
theorem flatRow_normalise {e b1 a1 : V} (he : isFinite e = true ∧ fInt e = 2 * fInt d)
    (hb1 : fIn (fNeg e) e b1 = true) (heq : fEq b1 a1 = true) :
    let row := normalise ⟨fAdd d s, b1, fSub d s, fAdd d s, a1, fSub d s⟩
    flatRow row = true ∧ rowOk row = true := by
  obtain ⟨haf, hpos, -⟩ := flatDivisor hd hs
  have hb0 : fDiv (fAdd d s) (fAdd d s) = one :=
    fDiv_self haf fun h => hpos.ne' ((fInt_eq_zero_iff haf).mpr h)
  have quot1 := fIn_flat_b1 hd hs he hb1
  have quot2 := fIn_flat_b2 hd hs
  have ftwo : isFinite two = true := by decide +kernel
  have fquot1 := isFinite_of_fIn quot1 (by decide +kernel) ftwo
  have fquot2 := isFinite_of_fIn quot2 (by decide +kernel) isFinite_one
  have quotEq : fEq (fDiv a1 (fAdd d s)) (fDiv b1 (fAdd d s)) = true :=
    fEq_fDiv (isFinite_of_fIn hb1 (by simpa using he.1) he.1) haf hpos ((fEq_comm _ _).trans heq)
  have m1 := (fIn_fNeg_iff ftwo (by decide +kernel)).mp quot1
  have m2 := (fIn_fNeg_iff isFinite_one (by decide +kernel)).mp quot2
  simp [normalise, flatRow, rowOk, hb0, (fEq_comm _ _).trans quotEq, fEq_refl fquot2, m1, m2, fquot1, fquot2,
    isFinite_of_fEq quotEq fquot1, isFinite_one]

end

/-- At `A = 1.0` a shelf's `b1` and `a1` are both `-2.0 ((A + 1.0) cos w0)`, up to the sign of a zero (R155, R156). -/
theorem flatShelf_mid {y : V} (hy : fIn negTwo two y = true) :
    fIn (fNeg (toF 4)) (toF 4) (fMul two (fSub posZero y)) = true ∧
      fIn (fNeg (toF 4)) (toF 4) (fMul negTwo (fAdd posZero y)) = true ∧
      fEq (fMul two (fSub posZero y)) (fMul negTwo (fAdd posZero y)) = true := by
  have zero : fIn posZero posZero posZero = true := by decide
  have hyf := isFinite_of_fIn hy (by decide +kernel) (by decide +kernel)
  have hnf : isFinite (fNeg y) = true := by simpa using hyf
  have diff : fIn negTwo two (fSub posZero y) = true := fIn_fSub zero hy (by decide +kernel)
  have sum : fIn negTwo two (fAdd posZero y) = true := fIn_fAdd zero hy (by decide +kernel)
  obtain ⟨hdiff, idiff⟩ := fInt_posZero_fAdd hnf
  obtain ⟨hsum, isum⟩ := fInt_posZero_fAdd hyf
  refine ⟨fIn_fMul (la := two) (ua := two) (by decide +kernel) diff (by decide +kernel),
    fIn_fMul (la := negTwo) (ua := negTwo) (by decide +kernel) sum (by decide +kernel),
    fEq_fMul (by decide +kernel) hdiff (by decide +kernel) hsum ?_⟩
  rw [fSub_eq, idiff, isum, fInt_fNeg, show fInt negTwo = -fInt two by decide +kernel, Int.neg_mul, Int.mul_neg]

/-- At `A = 1.0` the term `(A - 1.0) cos w0` of a shelf is a zero, which leaves `A + 1.0 = 2.0` (R155, R156). -/
theorem flatShelf_ends {cw : V} (hcw : isFinite cw = true) :
    fAdd two (fMul posZero cw) = two ∧ fSub two (fMul posZero cw) = two := by
  have hz := fMag_fMul_posZero hcw
  have keep : ∀ z, fMag z = 0 → fAdd two z = two := fun z hz =>
    (passes_fAdd_zero (by decide +kernel) hz).2 (by decide +kernel)
  exact ⟨keep _ hz, keep (fNeg _) ((fMag_fNeg _).trans hz)⟩

/-- The raw coefficients of the shelves at 0 dB: those of the high shelf are those of the low one with `b1` and `a1`
exchanged. -/
theorem shelfRaw_of_one {m : CoefMid} (hA : m.bigA = one) (hcw : isFinite m.cw = true)
    (hs : fIn posZero (toF 8) (fMul two m.alpha) = true) :
    let s := fMul two m.alpha
    let y := fMul two m.cw
    let u := fMul two (fSub posZero y)
    let w := fMul negTwo (fAdd posZero y)
    lowshelfRaw m = ⟨fAdd two s, u, fSub two s, fAdd two s, w, fSub two s⟩ ∧
      highshelfRaw m = ⟨fAdd two s, w, fSub two s, fAdd two s, u, fSub two s⟩ := by
  have twoIn : fIn two two two = true := by decide +kernel
  have sum : fIn one sixteen (fAdd two (fMul two m.alpha)) = true := fIn_fAdd twoIn hs (by decide +kernel)
  have diff : fIn (fNeg sixteen) sixteen (fSub two (fMul two m.alpha)) = true := fIn_fSub twoIn hs (by decide +kernel)
  have hsum := fMul_one_left (isFinite_of_fIn sum isFinite_one (by decide +kernel))
  have hdiff := fMul_one_left (isFinite_of_fIn diff (by decide +kernel) (by decide +kernel))
  obtain ⟨hp, hm⟩ := flatShelf_ends hcw
  have hap : fAdd one one = two := by decide +kernel
  have ham : fSub one one = posZero := by decide +kernel
  have hsq : fMul two (fSqrt one) = two := by decide +kernel
  have htwo : fMul two one = two := by decide +kernel
  have hneg : fMul negTwo one = negTwo := by decide +kernel
  constructor
  · simp only [lowshelfRaw, hA, hap, ham, hsq, htwo, hp, hm, hsum, hdiff]
  · simp only [highshelfRaw, hA, hap, ham, hsq, hneg, hp, hm, hsum, hdiff]

theorem fDiv_one {a : V} (ha : isFinite a = true) : fDiv a one = a := by
  rw [(fDiv_of_pos ha isFinite_one (by rw [fInt_one]; positivity)).2, fUnits_one]
  exact fRound_self ha (by positivity) rfl

/-- The raw coefficients of a peaking section at 0 dB. -/
theorem peakingRaw_of_one {m : CoefMid} (hA : m.bigA = one) (ha : isFinite m.alpha = true) : peakingRaw m =
    ⟨fAdd one m.alpha, fMul negTwo m.cw, fSub one m.alpha, fAdd one m.alpha, fMul negTwo m.cw, fSub one m.alpha⟩ := by
  simp only [peakingRaw, hA, fMul_one_right ha, fDiv_one ha]

/-- Settles O37: at `A = 1.0` numerator and denominator of each kind are `d ± s` with `d` 1.0 or 2.0, and equal middle
coefficients. -/
theorem zeroGainRowsAreFlat : Obligations.ZeroGainRowsAreFlat := by
  intro kind m hA halpha hcw
  have hcwf := isFinite_of_fIn hcw (by decide +kernel) isFinite_one
  have twoIn : fIn two two two = true := by decide +kernel
  have hs : fIn posZero (toF 8) (fMul two m.alpha) = true := fIn_fMul twoIn halpha (by decide +kernel)
  have hy : fIn negTwo two (fMul two m.cw) = true := fIn_fMul twoIn hcw (by decide +kernel)
  obtain ⟨hu, hw, huw⟩ := flatShelf_mid hy
  obtain ⟨hlow, hhigh⟩ := shelfRaw_of_one hA hcwf hs
  cases kind with
  | lowshelf =>
    rw [rawCoef, hlow]
    exact flatRow_normalise (by decide +kernel) hs (by decide +kernel) hu huw
  | highshelf =>
    rw [rawCoef, hhigh]
    exact flatRow_normalise (by decide +kernel) hs (by decide +kernel) hw ((fEq_comm _ _).trans huw)
  | peaking =>
    have mid : fIn (fNeg two) two (fMul negTwo m.cw) = true :=
      fIn_fMul (la := negTwo) (ua := negTwo) (by decide +kernel) hcw (by decide +kernel)
    rw [rawCoef, peakingRaw_of_one hA (isFinite_of_fIn halpha isFinite_posZero (by decide +kernel))]
    exact flatRow_normalise (by decide +kernel) (fIn_mono halpha (by decide +kernel) (by decide +kernel))
      (by decide +kernel) mid
      (fEq_refl (isFinite_of_fIn mid (by decide +kernel) (by decide +kernel)))

/-! ### Flat sections with matched state (R163) -/

theorem fIn_of_small {v : V} (h : small v = true) : fIn (fNeg (toF (2 ^ 126))) (toF (2 ^ 126)) v = true := by
  have hlt : fMag v < 0x7E800000 := by simpa [small] using h
  exact (fIn_fNeg_iff (by decide +kernel) (by decide +kernel)).mpr (hlt.le.trans (by decide +kernel))

theorem isFinite_of_small {v : V} (h : small v = true) : isFinite v = true :=
  isFinite_of_fIn (fIn_of_small h) (by decide +kernel) (by decide +kernel)

theorem small_of_passes {x y : V} (h : passes x y) (hx : small x = true) : small y = true := by
  rwa [small, fMag_of_fEq h.1]

theorem passes_refl {x : V} (h : isFinite x = true) : passes x x := ⟨fEq_refl h, fun _ => rfl⟩

theorem passes_trans {x y z : V} (hx : isFinite x = true) (hxy : passes x y) (hyz : passes y z) : passes x z := by
  have hy := isFinite_of_fEq hxy.1 hx
  have hz := isFinite_of_fEq hyz.1 hy
  refine ⟨(fEq_iff hz hx).mpr (((fEq_iff hz hy).mp hyz.1).trans ((fEq_iff hy hx).mp hxy.1)), fun hne => ?_⟩
  have hyx := hxy.2 hne
  rw [hyz.2 (hyx ▸ hne), hyx]

/-- Of a register and a coefficient on each side, equal in pairs, the products cancel: the factors are bounded, so
neither product overflows. -/
theorem fMag_fSub_products {b a x y : V} (hb : fMag b ≤ fMag two) (hba : fEq b a = true) (hx : small x = true)
    (hy : small y = true) (hxy : fEq x y = true) : fMag (fSub (fMul b x) (fMul a y)) = 0 := by
  have hbound : ∀ {k v}, fMag k ≤ fMag two → small v = true → isFinite k = true ∧ isFinite (fMul k v) = true := by
    intro k v hk hv
    have hkin := (fIn_fNeg_iff (by decide +kernel) (by decide +kernel)).mpr hk
    have hprod : fIn (fNeg (toF (2 ^ 127))) (toF (2 ^ 127)) (fMul k v) = true :=
      fIn_fMul hkin (fIn_of_small hv) (by decide +kernel)
    exact ⟨isFinite_of_fIn hkin (by decide +kernel) (by decide +kernel),
      isFinite_of_fIn hprod (by decide +kernel) (by decide +kernel)⟩
  obtain ⟨hbf, hbx⟩ := hbound hb hx
  obtain ⟨haf, hay⟩ := hbound (fMag_of_fEq hba ▸ hb) hy
  have hxf := isFinite_of_small hx
  have hyf := isFinite_of_small hy
  refine fMag_fSub_of_fEq hay (fEq_fMul hbf hxf haf hyf ?_)
  rw [(fEq_iff hbf haf).mp hba, (fEq_iff hxf hyf).mp hxy]

/-- A flat section with matched state passes a sample (R163). -/
theorem passes_biquadRaw {r : CoefRow} {b : Biquad} {v : V} (hr : flatRow r = true) (hb : matched b = true)
    (hv : small v = true) : passes v (biquadRaw r b v) := by
  simp only [flatRow, Bool.and_eq_true, beq_iff_eq, decide_eq_true_eq, and_assoc] at hr
  simp only [matched, Bool.and_eq_true, and_assoc] at hb
  obtain ⟨hb0, hb1, hb2, hm1, hm2⟩ := hr
  obtain ⟨h1, h2, hx1, hx2, hy1, hy2⟩ := hb
  have hvf := isFinite_of_small hv
  have hd1 := fMag_fSub_products hm1 hb1 hx1 hy1 h1
  have hd2 := fMag_fSub_products (hm2.trans (by decide +kernel)) hb2 hx2 hy2 h2
  rw [biquadRaw, hb0, fMul_one_left hvf]
  refine passes_fAdd_zero hvf (fMag_fAdd_of_cancel (isFinite_of_fMag_zero hd1) (isFinite_of_fMag_zero hd2) ?_)
  rw [(fInt_eq_zero_iff (isFinite_of_fMag_zero hd1)).mpr hd1, (fInt_eq_zero_iff (isFinite_of_fMag_zero hd2)).mpr hd2,
    add_zero]

/-- The registers of a section stay matched when it passes its sample. -/
theorem matched_biquadShift {b : Biquad} {v y : V} (hb : matched b = true) (hv : small v = true) (h : passes v y) :
    matched (biquadShift b v y) = true := by
  simp only [matched, Bool.and_eq_true, and_assoc] at hb
  obtain ⟨h1, -, hx1, -, hy1, -⟩ := hb
  simp [matched, biquadShift, (fEq_comm _ _).trans h.1, h1, hv, hx1, small_of_passes h hv, hy1]

section

variable {sections : Vector Section Config.nBands} {hist : Vector Biquad Config.nBands} {x : V}
  (hrow : ∀ (i : Nat) (h : i < Config.nBands), flatRow sections[i].row = true)
  (hhist : ∀ (i : Nat) (h : i < Config.nBands), matched hist[i] = true) (c : Chan) (t : Nat)

include hrow hhist

/-- A section of a flat cascade passes what it is fed, and its guard finds nothing to replace. -/
theorem passes_cascade_section {i : Nat} (hi : i < Config.nBands)
    (hv : small (cascade sections hist c t x i).out = true) : isFinite (cascadeRaw sections hist c t x i) = true ∧
      passes (cascade sections hist c t x i).out (cascade sections hist c t x (i + 1)).out := by
  have hraw := passes_biquadRaw (hrow i hi) (hhist i hi) hv
  rw [← cascadeRaw_of_lt _ _ c t x hi] at hraw
  have hf := isFinite_of_fEq hraw.1 (isFinite_of_small hv)
  rw [cascade_out_succ _ _ _ _ _ hi, sanV_of_isFinite hf]
  exact ⟨hf, hraw⟩

/-- The first sections of a flat cascade pass the sample. -/
theorem passes_cascade (hx : small x = true) {k : Nat} (hk : k ≤ Config.nBands) :
    passes x (cascade sections hist c t x k).out := by
  induction k with
  | zero => exact passes_refl (isFinite_of_small hx)
  | succ k ih =>
    have hv := ih (Nat.le_of_succ_le hk)
    exact passes_trans (isFinite_of_small hx) hv
      (passes_cascade_section hrow hhist c t hk (small_of_passes hv hx)).2

end

/-- Settles O38: the output passes section by section, so each section's registers shift by matched values. -/
theorem flatCascadeIsTheIdentity : Obligations.FlatCascadeIsTheIdentity := by
  intro fb c n x hflat hmatched hx
  have hrow : ∀ (i : Nat) (h : i < Config.nBands), flatRow fb.sections[i].row = true := by
    simpa only [Vector.all_toList, Vector.all_eq_true] using hflat
  have hhist : ∀ (i : Nat) (h : i < Config.nBands), matched (chGet fb.hist c)[i] = true := by
    simpa only [Vector.all_toList, Vector.all_eq_true] using hmatched
  have hsmall : ∀ i, i < Config.nBands → small (cascade fb.sections (chGet fb.hist c) c n x i).out = true :=
    fun i hi => small_of_passes (passes_cascade hrow hhist c n hx hi.le) hx
  refine ⟨passes_cascade hrow hhist c n hx le_rfl, ?_, ?_⟩
  · rw [chGet_fbProcess, Vector.all_toList, Vector.all_eq_true]
    intro i hi
    rw [cascade_st _ _ _ _ _ le_rfl hi, if_pos hi]
    exact matched_biquadShift (hhist i hi) (hsmall i hi) (passes_cascade_section hrow hhist c n hi (hsmall i hi)).2
  · refine (cascade_ev _ _ _ _ _ le_rfl).trans (List.flatMap_eq_nil_iff.mpr fun i hi => ?_)
    have hi := List.mem_range.mp hi
    exact if_pos (passes_cascade_section hrow hhist c n hi (hsmall i hi)).1

end Sys2Proof.Machine


/-! PROOFS. The DynamicsProcessor (41_dynamics R180 to R189): what SETL writes, the static curve, one frame through the
limiter, and the reduction meter. -/

namespace Sys2Proof.Machine

open Sys2Proof.Claims

/-! ### SETL (R180 to R182) -/

/-- The runtime state is cleared exactly where the limiter goes from disabled to enabled. -/
theorem setlDyn_eq (p : Params) (enabled : Bool) (det : DetectorMode) (x : LimiterParams) (d : Dynamics) :
    setlDyn p enabled det x d =
      if d.enabled = false ∧ enabled = true then dynClear (dynDerive p (setlConfig enabled det (clampLimiter x) d))
      else dynDerive p (setlConfig enabled det (clampLimiter x) d) :=
  if_congr (by simp [enableEdge]) rfl rfl

theorem execSetl_of_invalid {enabled : Bool} {det : DetectorMode} {x : LimiterParams} {r : IgnoreReason}
    (h : invalidReason (.setl enabled det x) = some r) (s : State) :
    execSetl enabled det x s = .next (ignore s r) := by
  simp only [execSetl, applySetl, h]

theorem execSetl_of_valid {enabled : Bool} {det : DetectorMode} {x : LimiterParams}
    (h : invalidReason (.setl enabled det x) = none) (s : State) :
    execSetl enabled det x s =
      .next (raise { s with dyn := setlDyn s.par enabled det x s.dyn } (clampLimiterEvents x)) := by
  simp only [execSetl, applySetl, h, setlDyn]

/-- Settles O30: a valid SETL writes the limiter `setlDyn` gives, one with a NaN operand is ignored. -/
theorem setlWritesTheLimiterOptions : Obligations.SetlWritesTheLimiterOptions := by
  intro enabled det x s
  obtain ⟨-, -, -, -, hvalidity, -⟩ := validityOfMatchedPackets
  obtain ⟨hvalid, hnan⟩ := hvalidity enabled det x
  refine ⟨fun hatt hth hkn hla hrms => ?_, fun hn => ?_⟩
  · have hexec := execSetl_of_valid (hvalid ⟨hatt, hth, hkn, hla, hrms⟩) s
    rw [setlDyn_eq] at hexec
    exact hexec
  · obtain ⟨k, hk⟩ := hnan hn
    exact ⟨k, execSetl_of_invalid hk s⟩

/-! ### The static curve (R183) -/

theorem fLt_self (a : V) : fLt a a = false := by simp [fLt_eq]

theorem fLt_asymm {a b : V} (h : fLt a b = true) : fLt b a = false := by
  simp only [fLt_eq, Bool.and_eq_true, decide_eq_true_eq] at h
  simp [fLt_eq, h.2.le]

/-- A finite value less itself is `+0` (R17). -/
theorem fSub_self {a : V} (ha : isFinite a = true) : fSub a a = posZero := by
  rw [fSub_eq, fAdd_of_finite ha (by simpa using ha), fInt_fNeg, if_pos (Int.add_right_neg _), fSign_fNeg,
    Bool.and_not_self]
  rfl

theorem targetGain_of_lt {lev thr : V} (h : fLt lev thr = true) : targetGain lev thr = one := if_pos h

theorem targetGain_of_not_lt {lev thr : V} (h : fLt lev thr = false) : targetGain lev thr =
    fDiv (fAdd thr (fDiv (fSub lev thr) (fAdd one (fSub lev thr)))) lev := by
  simp [targetGain, h]

/-- At the threshold the excess is `+0`, so the limited level is the level. -/
theorem targetGain_self {thr : V} (hf : isFinite thr = true) (hpos : fLt posZero thr = true) :
    targetGain thr thr = one := by
  have hint : 0 < fInt thr := fInt_posZero ▸ (fLt_iff isFinite_posZero hf).mp hpos
  have hmag : fMag thr ≠ 0 := mt (fInt_eq_zero_iff hf).mpr hint.ne'
  have hthr : thr ≠ negZero := fun h => hmag (h ▸ fMag_mkV_zero true)
  have hsum : fAdd thr posZero = thr := (passes_fAdd_zero hf (fMag_mkV_zero false)).2 hthr
  have hexcess : fDiv posZero (fAdd one posZero) = posZero := by decide +kernel
  rw [targetGain_of_not_lt (fLt_self thr), fSub_self hf, hexcess, hsum, fDiv_self hf hmag]

/-- Settles O41: the three cases of the level's order to the threshold. -/
theorem targetGainCurve : Obligations.TargetGainCurve := by
  intro lev thr hlev hthr hpos
  refine ⟨targetGain_of_lt, ?_, fun h => targetGain_of_not_lt (fLt_asymm h)⟩
  rintro rfl
  exact targetGain_self hthr hpos

/-! ### One frame (R184, R185) -/

section

variable (p : Params) (stereo : Bool) (t : Nat) (x : Stereo V) (d : Dynamics)

/-- The mean square moves in rms mode only. -/
theorem detectLevel_ms : (detectLevel stereo t x d).st.ms =
    if d.detectorMode = .rms then sanV (meanSquareRaw d (linkedMag stereo x)) else d.ms := by
  unfold detectLevel
  cases d.detectorMode <;> rfl

theorem detectLevel_out : (detectLevel stereo t x d).out =
    if d.detectorMode = .rms then fSqrt (detectLevel stereo t x d).st.ms else linkedMag stereo x := by
  unfold detectLevel
  cases d.detectorMode <;> rfl

theorem detectLevel_peak {d : Dynamics} (h : d.detectorMode = .peak) :
    detectLevel stereo t x d = ⟨linkedMag stereo x, d, []⟩ := by
  simp only [detectLevel, h]

theorem dynProcess_ms : (dynProcess p stereo t x d).st.ms = (detectLevel stereo t x d).st.ms := rfl

theorem dynProcess_g : (dynProcess p stereo t x d).st.g =
    sanV (gainRaw d (targetGain (detectLevel stereo t x d).out d.thresholdLinear)) := rfl

theorem dynProcess_minRed :
    (dynProcess p stereo t x d).st.minRed = fMin d.minRed (dynProcess p stereo t x d).st.g := rfl

theorem sameDynConfig_dynProcess : sameDynConfig d (dynProcess p stereo t x d).st ∧
    (dynProcess p stereo t x d).st.ratio = d.ratio ∧ (dynProcess p stereo t x d).st.releaseSec = d.releaseSec := by
  rw [dynProcess_st]
  exact ⟨⟨rfl, rfl, rfl, rfl, rfl, rfl, rfl, rfl, rfl, rfl, rfl⟩, rfl, rfl⟩

/-- A frame of one channel leaves the second delay line. -/
theorem memRead_delayWrite_ch1 (k : Nat) : memRead (delayWrite stereo x d).ch1 k =
    if stereo = true ∧ k = d.wr then x.ch1 else memRead d.dl.ch1 k := by
  cases stereo with
  | false => simp [delayWrite]
  | true => simpa [chGet] using memRead_delayWrite (c := .c1) (.inr rfl) x d k

end

/-- Settles O43: the level, the gain and the registers are those of the datapath, register by register. -/
theorem limiterFrame : Obligations.LimiterFrame := by
  intro p stereo n x d
  have hms := detectLevel_ms stereo n x d
  have hlev := detectLevel_out stereo n x d
  rw [hms] at hlev
  have hg := dynProcess_g p stereo n x d
  rw [hlev] at hg
  exact ⟨(dynProcess_ms p stereo n x d).trans hms, hg, dynProcess_wr p stereo n x d, dynProcess_minRed p stereo n x d,
    memRead_delayWrite (c := .c0) (.inl rfl) x d, memRead_delayWrite_ch1 stereo x d,
    dynProcess_out (c := .c0) p n x d (.inl rfl), fun hs => dynProcess_out (c := .c1) p n x d (.inr hs),
    sameDynConfig_dynProcess p stereo n x d⟩

/-! ### Below the threshold (R189) -/

theorem sanEvent_of_isFinite (site : Site) (c : Option Chan) (t : Nat) {v : V} (h : isFinite v = true) :
    sanEvent site c t v = [] := if_pos h

/-- A frame whose level, gain and products are finite raises nothing. -/
theorem dynProcess_ev_eq_nil {p : Params} {stereo : Bool} {t : Nat} {x : Stereo V} {d : Dynamics}
    (hlev : (detectLevel stereo t x d).ev = [])
    (hraw : isFinite (gainRaw d (targetGain (detectLevel stereo t x d).out d.thresholdLinear)) = true)
    (hprod : ∀ c, hasChannel stereo c → isFinite (fMul (memRead (chGet (delayWrite stereo x d) c) (readIndex p d))
      (dynProcess p stereo t x d).st.g) = true) : (dynProcess p stereo t x d).ev = [] := by
  simp only [dynProcess, List.append_eq_nil_iff]
  refine ⟨⟨⟨hlev, sanEvent_of_isFinite _ _ _ hraw⟩, sanEvent_of_isFinite _ _ _ (hprod .c0 (.inl rfl))⟩, ?_⟩
  split
  · exact sanEvent_of_isFinite _ _ _ (hprod .c1 (.inr ‹_›))
  · rfl

/-- A gain that stands at its target stays there. -/
theorem gainRaw_self {d : Dynamics} (hg : isFinite d.g = true) (hz : d.g ≠ negZero) (hk : isFinite d.kR = true) :
    gainRaw d d.g = d.g := by
  have hmove : fMag (fMul d.kR posZero) = 0 := by rw [fMul_comm]; exact fMag_fMul_posZero hk
  simp only [gainRaw, fLt_self, Bool.false_eq_true, if_false, fSub_self hg]
  exact (passes_fAdd_zero hg hmove).2 hz

/-- With no lookahead the element read is the one written. -/
theorem readIndex_of_no_delay {p : Params} {d : Dynamics} (hd : d.delay = 0) (hwr : d.wr < laCap p) :
    readIndex p d = d.wr := by
  rw [readIndex, hd, Nat.sub_zero, Nat.add_mod_right, Nat.mod_eq_of_lt hwr]

/-- Settles O42: the target is the gain, 1.0, so the gain stays, and the sample read is the one just written. -/
theorem limiterPassesBelowThreshold : Obligations.LimiterPassesBelowThreshold := by
  intro p stereo n x d hpeak hone hdelay hwr hk h0 h1 hbelow
  have hlev := detectLevel_peak stereo n x hpeak
  have hraw : gainRaw d (targetGain (detectLevel stereo n x d).out d.thresholdLinear) = one := by
    rw [hlev, targetGain_of_lt hbelow, ← hone]
    exact gainRaw_self (by rw [hone]; exact isFinite_one) (by rw [hone]; decide +kernel) hk
  have hg : (dynProcess p stereo n x d).st.g = one := by
    rw [dynProcess_g, hraw, sanV_of_isFinite isFinite_one]
  have hx : ∀ c, isFinite (chGet x c) = true := fun c => by cases c <;> assumption
  have hprod : ∀ c, hasChannel stereo c → fMul (memRead (chGet (delayWrite stereo x d) c) (readIndex p d))
      (dynProcess p stereo n x d).st.g = chGet x c := fun c hc => by
    rw [readIndex_of_no_delay hdelay hwr, memRead_delayWrite hc, if_pos rfl, hg, fMul_one_right (hx c)]
  have hout : ∀ c, hasChannel stereo c → chGet (dynProcess p stereo n x d).out c = chGet x c := fun c hc => by
    rw [dynProcess_out p n x d hc, dynProcess_dl, hprod c hc, sanV_of_isFinite (hx c)]
  exact ⟨hout .c0 (.inl rfl), fun hs => hout .c1 (.inr hs), hg,
    dynProcess_ev_eq_nil (by rw [hlev]) (by rw [hraw]; exact isFinite_one) fun c hc => by rw [hprod c hc]; exact hx c⟩

/-! ### The reduction meter (R188) -/

theorem reductionDb_eq (m : V) : reductionDb m =
    (let rd := fMul twenty (fLog10 m)
    if isNaN rd || fLt rd Config.redFloorDb then Config.redFloorDb else if fLt posZero rd then posZero else rd) := by
  have hfloor : fLt posZero Config.redFloorDb = false := by decide +kernel
  unfold reductionDb
  dsimp only
  split
  · simp [hfloor]
  · rfl

theorem fIn_reductionDb (m : V) : fIn Config.redFloorDb posZero (reductionDb m) = true := by
  rw [reductionDb_eq]
  dsimp only
  split
  · decide +kernel
  · rename_i hr
    simp only [Bool.or_eq_true, not_or, Bool.not_eq_true] at hr
    obtain ⟨hnan, hlow⟩ := hr
    exact fIn_capped (fLe_of_not_fLt hnan (by decide +kernel) hlow) (by decide +kernel)

/-- At full gain the reduction is `+0` (NP2). -/
theorem reductionDb_one : reductionDb one = posZero := by
  obtain ⟨hlog, -⟩ := fLog10_ok
  have hzero : fMul twenty posZero = posZero := by decide +kernel
  rw [reductionDb, hlog, hzero]
  decide +kernel

/-- Settles O45: the report is the reduction in decibels, cut at both ends of its range. -/
theorem meterReportsAndResets : Obligations.MeterReportsAndResets := fun d =>
  ⟨rfl, fIn_reductionDb d.minRed, reductionDb_eq d.minRed, fun h => by rw [readReduction, h, reductionDb_one]⟩

end Sys2Proof.Machine


/-! PROOFS. The HarmonicExciter (42_exciter R210 to R218): what SETX writes, the ramp, one sample through the synthesis
or past it, the noise it draws, and the detection on a frame's spectrum. -/

namespace Sys2Proof.Machine

open Sys2Proof.Claims

/-! ### SETX (R210) -/

theorem execSetx_of_invalid {enabled : Bool} {g : V} {r : IgnoreReason} (h : invalidReason (.setx enabled g) = some r)
    (s : State) : execSetx enabled g s = .next (ignore s r) := by
  simp only [execSetx, applySetx, h]

theorem execSetx_of_valid {enabled : Bool} {g : V} (h : invalidReason (.setx enabled g) = none) (s : State) :
    execSetx enabled g s = .next { s with exc := { s.exc with enabled := enabled, userGain := g } } := by
  simp only [execSetx, applySetx, h]

/-- Settles O29: a gain is valid exactly if it is finite, and each way not to be has its reason. -/
theorem setxWritesTheOptions : Obligations.SetxWritesTheOptions := by
  intro enabled g s
  obtain ⟨hvalid, hnan, hinf⟩ := gainReason_cases .setx g
  refine ⟨fun hf => execSetx_of_valid (hvalid.mpr hf) s, fun hn => ?_, fun hi => execSetx_of_invalid (hinf hi) s⟩
  obtain ⟨k, hk⟩ := hnan hn
  exact ⟨k, execSetx_of_invalid hk s⟩

/-! ### The activation ramp (R213) -/

theorem rampUp_iff (e : Exciter) : rampUp e = true ↔ e.enabled = true ∧ e.active = true := Bool.and_eq_true_iff

theorem rampUp_eq_false_iff (e : Exciter) : rampUp e = false ↔ e.enabled = false ∨ e.active = false :=
  Bool.and_eq_false_iff

theorem excRamp_of_rampUp (p : Params) {e : Exciter} (h : rampUp e = true) :
    excRamp p e = { e with actGain := fMin one (fAdd e.actGain (upStep p)) } := if_pos h

theorem excRamp_of_not_rampUp (p : Params) {e : Exciter} (h : rampUp e = false) :
    excRamp p e = { e with actGain := fMax posZero (fSub e.actGain (downStep p)) } := if_neg (Bool.eq_false_iff.mp h)

/-- Settles O48: the two directions exclude each other, and neither leaves the unit interval. -/
theorem rampStaysInUnit : Obligations.RampStaysInUnit := fun p e =>
  ⟨fun h => excRamp_of_rampUp p ((rampUp_iff e).mpr h),
    fun h => excRamp_of_not_rampUp p ((rampUp_eq_false_iff e).mpr h), fun hp => fIn_excRamp hp⟩

/-! ### One sample (R214, R215) -/

theorem excRuns_iff (e : Exciter) : excRuns e = true ↔ e.enabled = true ∧ fLt posZero e.actGain = true :=
  Bool.and_eq_true_iff

theorem excRuns_eq_false_iff (e : Exciter) : excRuns e = false ↔ e.enabled = false ∨ fLt posZero e.actGain = false :=
  Bool.and_eq_false_iff

theorem excProcess_of_not_excRuns {e : Exciter} (h : excRuns e = false) (c : Chan) (t : Nat) (x : V) :
    excProcess e c t x = { out := x, st := e, ev := [] } := if_neg (Bool.eq_false_iff.mp h)

theorem excProcess_of_excRuns {e : Exciter} (h : excRuns e = true) (c : Chan) (t : Nat) (x : V) :
    let nz := noiseOf (rngNext e.rng)
    let n := excChanNext (chGet e.ch c) x nz
    excProcess e c t x =
      { out := sanV (excOutRaw n x (makeup e)), st := { e with ch := chSet e.ch c n, rng := rngNext e.rng }
        ev := excEvents (chGet e.ch c) c t x nz (makeup e) } := if_pos h

/-- Settles O46: the exciter that does not run is the bypass. -/
theorem exciterBypass : Obligations.ExciterBypass := by
  intro e c n x h
  rw [excProcess_of_not_excRuns ((excRuns_eq_false_iff e).mpr h)]
  exact ⟨rfl, rfl, rfl⟩

/-- Settles O47: the sample's channel is written with the formulas of R214, the other one is not. -/
theorem exciterSynthesis : Obligations.ExciterSynthesis := by
  intro e c n x hen hgain
  dsimp only
  rw [excProcess_of_excRuns ((excRuns_iff e).mpr ⟨hen, hgain⟩)]
  exact ⟨rfl, rfl, chGet_chSet _ _ _, fun d hd => chGet_chSet_of_ne _ hd _, rfl⟩

/-! ### The noise (R216) -/

/-- The largest sample is that of 24 ones, 1.0 - 2^-23. -/
theorem fIn_noiseOf (r : Word) : fIn negOne (fSub one twoPowNeg23) (noiseOf r) = true := by
  have hr : r.toNat / 2 ^ 8 ≤ 2 ^ 24 - 1 := by
    have := r.isLt
    omega
  have scaled : fIn posZero (fSub two twoPowNeg23) (fMul (toF (r.toNat / 2 ^ 8)) twoPowNeg23) = true :=
    fIn_fMul (fIn_toF (Nat.zero_le _) hr) (lb := twoPowNeg23) (ub := twoPowNeg23) (by decide +kernel)
      (by decide +kernel)
  exact fIn_fSub scaled (lb := one) (ub := one) (by decide +kernel) (by decide +kernel)

/-- Settles O49: the generator is injective and fixes 0, so no other word reaches 0; the range is that of 24 bits. -/
theorem noiseGeneratorNeverStops : Obligations.NoiseGeneratorNeverStops :=
  ⟨fun _ => rngNext_ne_zero, fun _ _ h => rngNext_injective h, fIn_noiseOf⟩

/-! ### The detection (R217, R218) -/

/-- The energies summed from the left are those of the recursion over the number of bins. -/
theorem foldl_energy (w : Work) (lo n : Nat) :
    (List.range n).foldl (fun acc k => fAdd acc (energy (w.getD (lo + k) ⟨posZero, posZero⟩))) posZero =
      sumEnergy w lo n := by
  induction n with
  | zero => rfl
  | succ n ih =>
    rw [List.range_succ, List.foldl_append, ih]
    rfl

theorem bandMean_eq (p : Params) (w : Work) (loHz hiHz : Nat) :
    bandMean w (bandEdge p loHz) (bandEdge p hiHz) = meanEnergy p w loHz hiHz := by
  rw [bandMean, foldl_energy]
  rfl

/-- Which frames pass (R218). -/
theorem detectPass_iff (p : Params) (w : Work) : detectPass p w = true ↔
    binOfHz p 2000 < binOfHz p 4500 ∧ binOfHz p 8000 < binOfHz p 12000 ∧ binOfHz p 14000 < binOfHz p 18000 ∧
      fLt Config.noiseFloor (meanEnergy p w 2000 4500) = true ∧
      fLt (meanEnergy p w 14000 18000) (fMul Config.rHigh (meanEnergy p w 2000 4500)) = true ∧
      fLt (meanEnergy p w 8000 12000) (fMul Config.rCut (meanEnergy p w 2000 4500)) = true := by
  simp only [detectPass, bandMean_eq, Bool.and_eq_true, decide_eq_true_eq, and_assoc]
  rfl

theorem holdSamples_lt {p : Params} (h : strapsLegal p = true) : holdSamples p < 2 ^ 32 := by
  obtain ⟨-, hfs, -⟩ := (strapsLegal_iff p).mp h
  rw [holdSamples, Config.holdSec]
  omega

/-- A passing frame fills the hold, whose length fits its counter for legal straps (R310). -/
theorem holdUpdate_of_pass {p : Params} (h : strapsLegal p = true) (elapsed : Nat) (e : Exciter) :
    (holdUpdate p true elapsed e).active = true ∧ (holdUpdate p true elapsed e).hold.toNat = holdSamples p :=
  ⟨rfl, Nat.mod_eq_of_lt (holdSamples_lt h)⟩

/-- A failing frame runs the hold down and, at its end, takes the classification back. -/
theorem holdUpdate_of_fail (p : Params) (elapsed : Nat) (e : Exciter) :
    (holdUpdate p false elapsed e).hold.toNat = e.hold.toNat - elapsed ∧
      ((holdUpdate p false elapsed e).active = true ↔ e.active = true ∧ elapsed < e.hold.toNat) := by
  refine ⟨Nat.mod_eq_of_lt (lt_of_le_of_lt (Nat.sub_le _ _) e.hold.isLt), ?_⟩
  change (if e.hold.toNat - elapsed = 0 then false else e.active) = true ↔ _
  split
  · have : ¬ elapsed < e.hold.toNat := by omega
    simp [this]
  · have : elapsed < e.hold.toNat := by omega
    simp [this]

/-- Settles O50: the detection is the hold's update by the test's result. -/
theorem holdKeepsTheClassification : Obligations.HoldKeepsTheClassification := by
  intro p w elapsed e hp
  refine ⟨excDetect_st p w elapsed e, fun hpass => ?_, fun hfail => ?_⟩
  · rw [excDetect, (detectPass_iff p w).mpr hpass]
    exact holdUpdate_of_pass hp elapsed e
  · rw [excDetect, Bool.eq_false_iff.mpr (mt (detectPass_iff p w).mp hfail)]
    exact holdUpdate_of_fail p elapsed e

end Sys2Proof.Machine


/-! PROOFS. The SpectrumAnalyzer around the transform (43_spectrum R240 to R243, R250): what SETV writes, the window
after a block, the ticks between two emits, and an emit's writes. -/

namespace Sys2Proof.Machine

open Sys2Proof.Claims

/-! ### SETV (R240) -/

theorem execSetv_of_invalid {f : V} {r : IgnoreReason} (h : invalidReason (.setv f) = some r) (s : State) :
    execSetv f s = .next (ignore s r) := by
  simp only [execSetv, applySetv, h]

theorem execSetv_of_valid {x : V} (h : invalidReason (.setv x) = none) (s : State) :
    let f := clamp x Config.fpsMin Config.fpsMax
    execSetv x s = .next (raise { s with spec := { s.spec with fps := f, fpr := fDiv (fsf s.par) f } }
      (clampEvent .fps x Config.fpsMin Config.fpsMax)) := by
  simp only [execSetv, applySetv, h]

/-- Settles O31: a rate that is not a NaN is written with its interval, a NaN is ignored. -/
theorem setvWritesTheRate : Obligations.SetvWritesTheRate := by
  intro x s
  obtain ⟨-, -, -, -, -, hvalidity, -⟩ := validityOfMatchedPackets
  obtain ⟨hvalid, hnan⟩ := hvalidity x
  refine ⟨fun hx => execSetv_of_valid (hvalid hx) s, fun hn => ?_⟩
  obtain ⟨k, hk⟩ := hnan hn
  exact ⟨k, execSetv_of_invalid hk s⟩

/-! ### The window (R242) -/

/-- Settles O51: the store of the new samples covers the window's end, and below it the shifted window is read. -/
theorem windowSlides : Obligations.WindowSlides := by
  intro sb mix j hlen hj
  rw [specPush, memRead_memStore, memRead_memShift]
  by_cases hold : j < Config.fftSize - mix.length
  · rw [if_pos hold, if_neg fun hnew => Nat.not_le.mpr hold hnew.1]
  · rw [if_neg hold, if_pos ⟨Nat.not_lt.mp hold, by omega⟩]
    rfl

/-! ### The cadence (R243) -/

theorem specTick_of_fires {s : State} (h : tickFires (s.spec.acc + BitVec.ofNat 32 s.par.block) s.spec.fpr = true) :
    specTick s = emit (s.spec.acc + BitVec.ofNat 32 s.par.block).toNat { s with spec := { s.spec with acc := 0 } } :=
  if_pos h

theorem specTick_of_not_fires {s : State}
    (h : tickFires (s.spec.acc + BitVec.ofNat 32 s.par.block) s.spec.fpr = false) :
    specTick s = { s with spec := { s.spec with acc := s.spec.acc + BitVec.ofNat 32 s.par.block } } :=
  if_neg (Bool.eq_false_iff.mp h)

/-- The state with the frames of `k` blocks counted. -/
def counted (s : State) (k : Nat) : State :=
  { s with spec := { s.spec with acc := BitVec.ofNat 32 (k * s.par.block) } }

theorem counted_zero {s : State} (h : s.spec.acc = 0) : counted s 0 = s := by
  have hacc : BitVec.ofNat 32 (0 * s.par.block) = s.spec.acc := by rw [h, Nat.zero_mul]; rfl
  rw [counted, hacc]

theorem counted_acc_toNat {s : State} {k : Nat} (h : k * s.par.block < 2 ^ 32) :
    (counted s k).spec.acc.toNat = k * s.par.block := Nat.mod_eq_of_lt h

/-- The counter at the next tick is that of one block more. -/
theorem counted_acc_add (s : State) (k : Nat) :
    (counted s k).spec.acc + BitVec.ofNat 32 (counted s k).par.block = (counted s (k + 1)).spec.acc := by
  simp only [counted, Nat.succ_mul, BitVec.ofNat_add]

/-- The test at the next tick reads the frames of one block more. -/
theorem tickFires_counted {s : State} {k : Nat} (h : (k + 1) * s.par.block < 2 ^ 32) :
    tickFires ((counted s k).spec.acc + BitVec.ofNat 32 (counted s k).par.block) (counted s k).spec.fpr =
      fLe s.spec.fpr (toF ((k + 1) * s.par.block)) := by
  rw [counted_acc_add, tickFires, counted_acc_toNat h]
  rfl

theorem specTick_counted_of_not_fires {s : State} {k : Nat} (hlt : (k + 1) * s.par.block < 2 ^ 32)
    (h : fLe s.spec.fpr (toF ((k + 1) * s.par.block)) = false) : specTick (counted s k) = counted s (k + 1) := by
  rw [specTick_of_not_fires ((tickFires_counted hlt).trans h), counted_acc_add]
  rfl

/-- Ticks that do not fire count frames and do nothing else. -/
theorem ticks_eq_counted {s : State} {n : Nat} (h0 : s.spec.acc = 0) (hlt : n * s.par.block < 2 ^ 32)
    (hquiet : ∀ k, 0 < k → k ≤ n → fLe s.spec.fpr (toF (k * s.par.block)) = false) : ticks n s = counted s n := by
  induction n with
  | zero => exact (counted_zero h0).symm
  | succ n ih =>
    have hprev : n * s.par.block < 2 ^ 32 := lt_of_le_of_lt (Nat.mul_le_mul_right _ n.le_succ) hlt
    rw [ticks, ih hprev fun k hpos hk => hquiet k hpos (Nat.le_succ_of_le hk)]
    exact specTick_counted_of_not_fires hlt (hquiet (n + 1) n.succ_pos le_rfl)

/-- Settles O52: the ticks before the `n`-th count the frames, and the `n`-th is an emit with the counter cleared. -/
theorem emitAtTheFirstMultipleOfBlock : Obligations.EmitAtTheFirstMultipleOfBlock := by
  intro s n h0 hn hlt hquiet hfires
  have hcount : ∀ k, k < n → k * s.par.block < 2 ^ 32 ∧ ticks k s = counted s k := fun k hk => by
    have hk' : k * s.par.block < 2 ^ 32 := lt_of_le_of_lt (Nat.mul_le_mul_right _ hk.le) hlt
    exact ⟨hk', ticks_eq_counted h0 hk' fun i hi hik => hquiet i hi (lt_of_le_of_lt hik hk)⟩
  refine ⟨fun k hk => ?_, ?_⟩
  · obtain ⟨hk', hticks⟩ := hcount k hk
    rw [hticks]
    exact ⟨rfl, counted_acc_toNat hk'⟩
  · obtain ⟨m, rfl⟩ := Nat.exists_eq_succ_of_ne_zero hn.ne'
    rw [ticks, (hcount m m.lt_succ_self).2, specTick_of_fires ((tickFires_counted hlt).trans hfires)]
    exact ⟨rfl, rfl⟩

/-! ### The emit (R250) -/

/-- Bin `k` of the magnitudes stands at `TLM[k]` after an emit. -/
theorem memRead_tlmEmit {k : Nat} (hk : k < Config.fftSize / 2) (w : Work) (red : V) (sbr : Bool) (t : Telemetry) :
    memRead (tlmEmit (specMag w) red sbr t).mem k = binLevel (energy (workGet w k)) := by
  have hlen : (specMag w).length = Config.fftSize / 2 := by simp [specMag]
  have hbin : (specMag w).getD k memDefault = binLevel (energy (workGet w k)) := by
    simp [specMag, List.getD_eq_getElem?_getD, hk]
  rw [tlmEmit, memRead_memStore, if_pos ⟨k.zero_le, by omega⟩, Nat.sub_zero, hbin]

/-- The flag after a detection: whether the exciter is enabled is not the detection's. -/
theorem sbrFlag_excDetect (p : Params) (w : Work) (elapsed : Nat) (e : Exciter) :
    sbrFlag (excDetect p w elapsed e) = (e.enabled && (excDetect p w elapsed e).active) := by
  have henabled : (excDetect p w elapsed e).enabled = e.enabled := by rw [excDetect_st]
  rw [sbrFlag, henabled]

/-- Settles O53: every written register is the formula's, the levels by the store of the magnitudes. -/
theorem emitWritesTheTelemetry : Obligations.EmitWritesTheTelemetry := fun elapsed s =>
  ⟨rfl, rfl, fun _ hk => memRead_tlmEmit hk _ _ _ _, rfl, sbrFlag_excDetect s.par _ elapsed s.exc, rfl, rfl⟩

end Sys2Proof.Machine


/-! PROOFS. The transform (43_spectrum R247): one butterfly, the butterflies of one stage, whose pairs are disjoint, and
the run of the stages. -/

namespace Sys2Proof.Machine

open Sys2Proof.Claims

/-! ### One butterfly -/

theorem workGet_setIfInBounds_same {w : Work} {i : Nat} (hi : i < w.size) (z : Cplx) :
    workGet (w.setIfInBounds i z) i = z := by
  simp [workGet, Array.getD_eq_getD_getElem?, hi]

theorem workGet_setIfInBounds_of_ne {w : Work} {i j : Nat} (h : i ≠ j) (z : Cplx) :
    workGet (w.setIfInBounds i z) j = workGet w j := by
  simp [workGet, Array.getD_eq_getD_getElem?, h]

@[simp] theorem size_butterfly (w : Work) (a b k : Nat) : (butterfly w a b k).size = w.size := by simp [butterfly]

theorem butterflyAt_butterfly {w : Work} {a b : Nat} (hab : a ≠ b) (ha : a < w.size) (hb : b < w.size) (k : Nat) :
    butterflyAt w (butterfly w a b k) a b k :=
  ⟨workGet_setIfInBounds_same (by simpa using ha) _,
    (workGet_setIfInBounds_of_ne hab _).trans (workGet_setIfInBounds_same hb _)⟩

theorem workGet_butterfly_of_ne (w : Work) {a b i : Nat} (k : Nat) (ha : i ≠ a) (hb : i ≠ b) :
    workGet (butterfly w a b k) i = workGet w i :=
  (workGet_setIfInBounds_of_ne ha.symm _).trans (workGet_setIfInBounds_of_ne hb.symm _)

/-- What a butterfly makes depends on the array before it, and shows in the array after it, at its two indices only. -/
theorem butterflyAt_congr {w w' u u' : Work} {a b k : Nat} (h : butterflyAt w u a b k) (hwa : workGet w a = workGet w' a)
    (hwb : workGet w b = workGet w' b) (hua : workGet u' a = workGet u a) (hub : workGet u' b = workGet u b) :
    butterflyAt w' u' a b k := by
  unfold butterflyAt at h ⊢
  rwa [hua, hub, ← hwa, ← hwb]

/-! ### Butterflies on disjoint pairs -/

/-- A butterfly's two indices and its table index. -/
structure Fly where
  a : Nat
  b : Nat
  k : Nat

/-- Butterflies one after the other. -/
def flies (fs : List Fly) (w : Work) : Work := fs.foldl (fun w f => butterfly w f.a f.b f.k) w

/-- The butterfly names the element. -/
def Fly.Names (f : Fly) (i : Nat) : Prop := i = f.a ∨ i = f.b

/-- No element is named by both. -/
def Fly.Disjoint (f g : Fly) : Prop := ∀ i, f.Names i → ¬ g.Names i

/-- Two different indices in range. -/
def Fly.Fits (n : Nat) (f : Fly) : Prop := f.a ≠ f.b ∧ f.a < n ∧ f.b < n

@[simp] theorem size_flies (fs : List Fly) (w : Work) : (flies fs w).size = w.size := by
  induction fs generalizing w with
  | nil => rfl
  | cons f fs ih => exact (ih _).trans (size_butterfly _ _ _ _)

/-- An element no butterfly names is kept. -/
theorem workGet_flies_of_not_named {fs : List Fly} {i : Nat} (w : Work) (h : ∀ f ∈ fs, ¬ f.Names i) :
    workGet (flies fs w) i = workGet w i := by
  induction fs generalizing w with
  | nil => rfl
  | cons f fs ih =>
    obtain ⟨hf, hfs⟩ := List.forall_mem_cons.mp h
    obtain ⟨ha, hb⟩ := not_or.mp hf
    exact (ih _ hfs).trans (workGet_butterfly_of_ne w f.k ha hb)

/-- On disjoint pairs each butterfly reads the elements from before all of them, and what it writes stays. -/
theorem butterflyAt_flies {fs : List Fly} {w : Work} (hdisj : fs.Pairwise Fly.Disjoint) (hfit : ∀ f ∈ fs, f.Fits w.size)
    {f : Fly} (hf : f ∈ fs) : butterflyAt w (flies fs w) f.a f.b f.k := by
  induction fs generalizing w with
  | nil => cases hf
  | cons g fs ih =>
    obtain ⟨hg, hfs⟩ := List.pairwise_cons.mp hdisj
    obtain ⟨hgfit, hfsfit⟩ := List.forall_mem_cons.mp hfit
    rcases List.mem_cons.mp hf with rfl | hmem
    · obtain ⟨hne, ha, hb⟩ := hgfit
      have kept : ∀ i, f.Names i → workGet (flies (f :: fs) w) i = workGet (butterfly w f.a f.b f.k) i := fun i hi =>
        workGet_flies_of_not_named _ fun h hh => hg h hh i hi
      exact butterflyAt_congr (butterflyAt_butterfly hne ha hb f.k) rfl rfl (kept _ (.inl rfl)) (kept _ (.inr rfl))
    · have before : ∀ i, f.Names i → workGet (butterfly w g.a g.b g.k) i = workGet w i := fun i hi => by
        obtain ⟨ha, hb⟩ := not_or.mp fun hgi => hg f hmem i hgi hi
        exact workGet_butterfly_of_ne w g.k ha hb
      have hlater := ih (w := butterfly w g.a g.b g.k) hfs (by simpa using hfsfit) hmem
      exact butterflyAt_congr hlater (before _ (.inl rfl)) (before _ (.inr rfl)) rfl rfl

/-! ### One stage -/

/-- The butterfly of pair `j` in group `g` of the stage with groups of `m` elements (R247). -/
def stageFly (m : Nat) (x : Nat × Nat) : Fly :=
  { a := x.1 * m + x.2, b := x.1 * m + x.2 + m / 2, k := x.2 * (Config.fftSize / m) }

/-- The groups and pairs of a stage, in its order. -/
def stagePairs (n m : Nat) : List (Nat × Nat) := List.range (n / m) ×ˢ List.range (m / 2)

theorem fftStage_eq (lg : Nat) (w : Work) (s : Nat) :
    fftStage lg w s = flies ((stagePairs (2 ^ lg) (2 ^ s)).map (stageFly (2 ^ s))) w := by
  simp only [fftStage, flies, stagePairs, stageFly, SProd.sprod, List.product, List.foldl_map, List.foldl_flatMap]

theorem mem_stagePairs {n m : Nat} {x : Nat × Nat} : x ∈ stagePairs n m ↔ x.1 < n / m ∧ x.2 < m / 2 :=
  List.mem_product.trans (and_congr List.mem_range List.mem_range)

/-- The offset in the group of an element a butterfly names: the pair's own, or half a group further. -/
theorem names_stageFly {m i : Nat} {x : Nat × Nat} (hx : x.2 < m / 2) (h : (stageFly m x).Names i) :
    i / m = x.1 ∧ i % m % (m / 2) = x.2 := by
  have named : ∀ r, r < m → (x.1 * m + r) / m = x.1 ∧ (x.1 * m + r) % m = r := fun r hr => by
    rw [Nat.mul_comm, Nat.mul_add_div (by omega), Nat.div_eq_of_lt hr, Nat.mul_add_mod, Nat.mod_eq_of_lt hr]
    exact ⟨rfl, rfl⟩
  rcases h with rfl | rfl
  · obtain ⟨hd, hm⟩ := named x.2 (by omega)
    exact ⟨hd, by rw [stageFly, hm, Nat.mod_eq_of_lt hx]⟩
  · obtain ⟨hd, hm⟩ := named (x.2 + m / 2) (by omega)
    rw [stageFly, Nat.add_assoc]
    exact ⟨hd, by rw [hm, Nat.add_mod_right, Nat.mod_eq_of_lt hx]⟩

/-- The butterflies of one stage touch disjoint pairs (R247). -/
theorem stageFly_pairwise_disjoint (n m : Nat) : ((stagePairs n m).map (stageFly m)).Pairwise Fly.Disjoint := by
  have hnodup : (stagePairs n m).Nodup := List.nodup_range.product List.nodup_range
  refine List.pairwise_map.mpr (hnodup.pairwise_of_forall_ne fun x hx y hy hne i hxi hyi => hne ?_)
  obtain ⟨hx1, hx2⟩ := names_stageFly (mem_stagePairs.mp hx).2 hxi
  obtain ⟨hy1, hy2⟩ := names_stageFly (mem_stagePairs.mp hy).2 hyi
  exact Prod.ext (hx1.symm.trans hy1) (hx2.symm.trans hy2)

theorem fits_stageFly {n m : Nat} {x : Nat × Nat} (hx : x ∈ stagePairs n m) : (stageFly m x).Fits n := by
  obtain ⟨hg, hj⟩ := mem_stagePairs.mp hx
  have hgroup : (x.1 + 1) * m ≤ n := (Nat.le_div_iff_mul_le (by omega)).mp hg
  rw [Nat.add_mul, Nat.one_mul] at hgroup
  refine ⟨?_, ?_, ?_⟩ <;> simp only [stageFly] <;> omega

@[simp] theorem size_fftStage (lg : Nat) (w : Work) (s : Nat) : (fftStage lg w s).size = w.size := by
  rw [fftStage_eq, size_flies]

/-- A stage is a butterfly on every one of its pairs, from the elements before the stage (R247). -/
theorem butterflyAt_fftStage {lg s g j : Nat} {w : Work} (hw : w.size = 2 ^ lg) (hg : g < 2 ^ lg / 2 ^ s)
    (hj : j < 2 ^ s / 2) : butterflyAt w (fftStage lg w s) (g * 2 ^ s + j) (g * 2 ^ s + j + 2 ^ s / 2)
      (j * (Config.fftSize / 2 ^ s)) := by
  rw [fftStage_eq]
  refine butterflyAt_flies (f := stageFly (2 ^ s) (g, j)) (stageFly_pairwise_disjoint _ _) (fun f hf => ?_)
    (List.mem_map_of_mem (mem_stagePairs.mpr ⟨hg, hj⟩))
  obtain ⟨x, hx, rfl⟩ := List.mem_map.mp hf
  rw [hw]
  exact fits_stageFly hx

/-! ### The run of the stages -/

/-- The work array after the first `n` stages. -/
def afterStages (lg : Nat) (w : Work) (n : Nat) : Work := (List.range n).foldl (fun w s => fftStage lg w (s + 1)) w

theorem fftRun_eq_afterStages (lg : Nat) (w : Work) : fftRun lg w = afterStages lg w lg := rfl

theorem afterStages_succ (lg : Nat) (w : Work) (n : Nat) :
    afterStages lg w (n + 1) = fftStage lg (afterStages lg w n) (n + 1) := by
  rw [afterStages, List.range_succ, List.foldl_append]
  rfl

@[simp] theorem size_afterStages (lg : Nat) (w : Work) (n : Nat) : (afterStages lg w n).size = w.size := by
  induction n with
  | zero => rfl
  | succ n ih => rw [afterStages_succ, size_fftStage, ih]

@[simp] theorem size_workStores (f : Nat → Nat) (g : Nat → Cplx) (ns : List Nat) (w : Work) :
    (workStores f g ns w).size = w.size := by
  induction ns generalizing w with
  | nil => rfl
  | cons n ns ih => exact (ih _).trans Array.size_setIfInBounds

theorem size_fftLoad (lg : Nat) (x : Nat → V) : (fftLoad lg x).size = 2 ^ lg := by
  rw [fftLoad_eq, size_workStores, Array.size_replicate]

/-- Settles O56: one butterfly by its two writes, and the run through the arrays after each stage. -/
theorem butterflyWritesItsPair : Obligations.ButterflyWritesItsPair := by
  refine ⟨fun w a b k hab ha hb => ?_, fun w hw => ?_, fun sb => ⟨size_fftLoad Config.log2F _, rfl⟩⟩
  · exact ⟨butterflyAt_butterfly hab ha hb k, size_butterfly w a b k, fun i => workGet_butterfly_of_ne w k⟩
  · refine ⟨afterStages Config.log2F w, rfl, fftRun_eq_afterStages Config.log2F w, fun s hs _ => ?_⟩
    obtain ⟨n, rfl⟩ := Nat.exists_eq_add_of_le' hs
    refine ⟨(size_afterStages _ _ _).trans hw, fun g j hg hj => ?_⟩
    rw [afterStages_succ, Nat.add_sub_cancel]
    exact butterflyAt_fftStage (lg := Config.log2F) ((size_afterStages _ _ _).trans hw) hg hj

end Sys2Proof.Machine


/-! PROOFS. The level of a bin (43_spectrum R248, R249): the square root rounds the integer root with its sticky bit,
and each operation from the energy to the level keeps the order (00_scope R17). -/

namespace Sys2Proof.Machine

/-! ### The integer square root (R17) -/

/-- The search keeps its root from below, and `2 ^ k` more than it from above. -/
theorem isqrtFrom_spec {n : Nat} (k : Nat) {r : Nat} (hlow : r * r ≤ n) (hhigh : n < (r + 2 ^ k) * (r + 2 ^ k)) :
    Fp.isqrtFrom n k r * Fp.isqrtFrom n k r ≤ n ∧ n < (Fp.isqrtFrom n k r + 1) * (Fp.isqrtFrom n k r + 1) := by
  induction k generalizing r with
  | zero => exact ⟨hlow, hhigh⟩
  | succ k ih =>
    rw [Fp.isqrtFrom]
    split
    · rename_i hbit
      exact ih hbit (by rwa [Nat.add_assoc, ← Nat.two_mul, ← Nat.pow_succ'])
    · rename_i hbit
      exact ih hlow (Nat.not_le.mp hbit)

theorem isqrt_eq (n : Nat) : Fp.isqrt n = Nat.sqrt n := by
  have hn : n < 2 ^ (Nat.log2 n / 2 + 1) * 2 ^ (Nat.log2 n / 2 + 1) :=
    calc n < 2 ^ (Nat.log2 n + 1) := Nat.lt_log2_self
      _ ≤ 2 ^ (Nat.log2 n / 2 + 1 + (Nat.log2 n / 2 + 1)) := Nat.pow_le_pow_right (by norm_num) (by omega)
      _ = _ := Nat.pow_add _ _ _
  exact Nat.eq_sqrt.mpr (isqrtFrom_spec _ n.zero_le (by simpa using hn))

/-- Twice the integer root, with the sticky bit: what the rounded square root rounds. -/
def stickyRoot (n : Nat) : Nat := 2 * Fp.isqrt n + if Fp.isqrt n * Fp.isqrt n = n then 0 else 1

theorem stickyRoot_mono {m n : Nat} (h : m ≤ n) : stickyRoot m ≤ stickyRoot n := by
  have hroot := Nat.sqrt_le_sqrt h
  have hm := Nat.sqrt_le m
  simp only [stickyRoot, isqrt_eq]
  rcases hroot.lt_or_eq with hlt | heq
  · split <;> split <;> omega
  · rw [heq] at hm ⊢
    split <;> split <;> omega

/-! ### The rounded square root (R17) -/

theorem fSign_of_fInt_pos {a : V} (h : 0 < fInt a) : fSign a = false := by
  rw [fInt_eq] at h
  by_contra hs
  rw [Bool.not_eq_false] at hs
  rw [if_pos hs] at h
  omega

theorem natAbs_fInt (a : V) : (fInt a).natAbs = fUnits a := by
  rw [fInt_eq]
  split <;> simp

/-- The square root of a value not below 0, in the order: that of the sticky root rounded, the zeros included. -/
theorem fKey_fSqrt {a : V} (h : nonNeg a = true) :
    isNaN (fSqrt a) = false ∧ fKey (fSqrt a) = roundMag (stickyRoot (fUnits a * 2 ^ 149)) 2 := by
  obtain ⟨hf, h0⟩ := (nonNeg_iff a).mp h
  by_cases hz : fMag a = 0
  · have hroot : fSqrt a = a := by simp [fSqrt_eq, isNaN_of_isFinite hf, hz]
    rw [hroot, (fMag_eq_zero_iff hf).mpr hz, Nat.zero_mul, show stickyRoot 0 = 0 by decide, roundMag_zero two_pos,
      fKey_eq, hz]
    exact ⟨isNaN_of_isFinite hf, by simp⟩
  · have hs : fSign a = false := fSign_of_fInt_pos (lt_of_le_of_ne h0 (Ne.symm ((fInt_eq_zero_iff hf).not.mpr hz)))
    have hroot : fSqrt a = fRound false (stickyRoot (fUnits a * 2 ^ 149)) 2 := by
      simp [fSqrt_eq, stickyRoot, isNaN_of_isFinite hf, isInf_of_isFinite hf, hz, hs]
    rw [hroot, fKey_eq, fSign_fRound, fMag_fRound]
    exact ⟨isNaN_fRound _ _ _, rfl⟩

/-- A value above one that is not negative is not negative. -/
theorem nonNeg_of_fLe {a b : V} (ha : nonNeg a = true) (hb : isFinite b = true) (h : fLe a b = true) :
    nonNeg b = true := by
  simp only [nonNeg, Bool.and_eq_true] at ha ⊢
  exact ⟨hb, fLe_trans ha.2 h⟩

theorem fLe_fSqrt {a b : V} (ha : nonNeg a = true) (hb : isFinite b = true) (h : fLe a b = true) :
    fLe (fSqrt a) (fSqrt b) = true := by
  have hb0 := nonNeg_of_fLe ha hb h
  obtain ⟨hna, hka⟩ := fKey_fSqrt ha
  obtain ⟨hnb, hkb⟩ := fKey_fSqrt hb0
  obtain ⟨haf, ha'⟩ := (nonNeg_iff a).mp ha
  have hunits : fUnits a ≤ fUnits b := by
    have hab := (fLe_iff haf hb).mp h
    rw [← natAbs_fInt a, ← natAbs_fInt b]
    omega
  have hround := roundMag_mono two_pos two_pos
    (Nat.mul_le_mul_right 2 (stickyRoot_mono (Nat.mul_le_mul_right (2 ^ 149) hunits)))
  simp only [fLe_eq, hna, hnb, hka, hkb, Bool.not_false, Bool.true_and, decide_eq_true_eq]
  exact_mod_cast hround

/-- The greatest finite value. -/
def maxFinite : V := mkV false (infMag - 1)

theorem fLe_maxFinite {a : V} (h : isFinite a = true) : fLe a maxFinite = true := by
  have hm := (isFinite_iff a).mp h
  have hk : fKey maxFinite = infMag - 1 := by decide +kernel
  have hn : isNaN maxFinite = false := by decide +kernel
  simp only [fLe_eq, isNaN_of_isFinite h, hn, hk, Bool.not_false, Bool.true_and, decide_eq_true_eq]
  rw [fKey_eq]
  split <;> omega

theorem nonNeg_fSqrt {a : V} (h : nonNeg a = true) : nonNeg (fSqrt a) = true := by
  obtain ⟨hf, h0⟩ : isFinite a = true ∧ fLe posZero a = true := by simpa [nonNeg] using h
  have hlow : fLe posZero (fSqrt a) = true := fLe_fSqrt nonNeg_posZero hf h0
  have hhigh := fLe_fSqrt h (by decide +kernel) (fLe_maxFinite hf)
  simp only [nonNeg, hlow, isFinite_of_fLe_fLe isFinite_posZero (by decide +kernel) hlow hhigh, Bool.and_self]

/-! ### Operations that keep the order (R17, R23) -/

theorem fLe_fAdd_right {a b c : V} (ha : isFinite a = true) (hb : isFinite b = true) (hc : isFinite c = true)
    (h : fLe a b = true) : fLe (fAdd a c) (fAdd b c) = true := by
  have hab := (fLe_iff ha hb).mp h
  have hround := roundKey_mono one_pos (Int.add_le_add_right hab (fInt c))
  simpa [fLe_eq, (fKey_fAdd ha hc).1, (fKey_fAdd hb hc).1, fKey_fAdd_eq ha hc, fKey_fAdd_eq hb hc] using hround

theorem fLe_fDiv_right {a b c : V} (ha : isFinite a = true) (hb : isFinite b = true) (hc : isFinite c = true)
    (h0 : 0 < fInt c) (h : fLe a b = true) : fLe (fDiv a c) (fDiv b c) = true := by
  have hab := (fLe_iff ha hb).mp h
  have hpos : 0 < fUnits c := by
    have := (fDiv_of_pos ha hc h0).1
    omega
  have notNaN : ∀ v, isFinite v = true → isNaN (fDiv v c) = false := fun v hv => by
    rw [(fDiv_of_pos hv hc h0).2]
    exact isNaN_fRound _ _ _
  have hround := roundKey_mono hpos (Int.mul_le_mul_of_nonneg_right hab (by positivity : (0 : Int) ≤ 2 ^ 149))
  simpa [fLe_eq, notNaN a ha, notNaN b hb, fKey_fDiv ha hc h0, fKey_fDiv hb hc h0] using hround

/-- The infinities are the ends of the order. -/
theorem fKey_bounds {a : V} (h : isNaN a = false) : -(infMag : Int) ≤ fKey a ∧ fKey a ≤ infMag := by
  have hm : fMag a ≤ infMag := by simpa [isNaN_eq] using h
  rw [fKey_eq]
  split <;> omega

theorem fKey_of_isInf {a : V} (h : isInf a = true) : fKey a = infMag ∨ fKey a = -infMag := by
  have hm : fMag a = infMag := by simpa [isInf_eq] using h
  rw [fKey_eq, hm]
  split <;> simp

theorem fKey_bounds_of_isFinite {a : V} (h : isFinite a = true) : -(infMag : Int) < fKey a ∧ fKey a < infMag := by
  have hm := (isFinite_iff a).mp h
  rw [fKey_eq]
  split <;> omega

/-- A positive finite factor leaves an infinity as it is. -/
theorem fMul_of_isInf {a v : V} (ha : isFinite a = true) (h0 : 0 < fInt a) (hv : isInf v = true) : fMul a v = v := by
  have hm : fMag v = infMag := by simpa [isInf_eq] using hv
  have hn : isNaN v = false := by simp [isNaN_eq, hm]
  have ha0 : fMag a ≠ 0 := fun h => h0.ne' ((fInt_eq_zero_iff ha).mpr h)
  have hv0 : fMag v ≠ 0 := by
    rw [hm, infMag_eq]
    norm_num
  have hprod : fMul a v = mkV (fSign v) infMag := by
    simp [fMul_eq, isNaN_of_isFinite ha, hn, hv, ha0, hv0, fSign_of_fInt_pos h0]
  rw [hprod, ← hm, mkV_self]

/-- A positive finite factor keeps the order, the infinities included. -/
theorem fLe_fMul_left {a x y : V} (ha : isFinite a = true) (h0 : 0 < fInt a) (h : fLe x y = true) :
    fLe (fMul a x) (fMul a y) = true := by
  have notNaN : ∀ v, isNaN v = false → isNaN (fMul a v) = false := fun v hv => by
    by_cases hf : isFinite v = true
    · rw [fMul_of_finite ha hf]
      exact isNaN_fRound _ _ _
    · rwa [fMul_of_isInf ha h0 (isInf_of_not_isFinite (by simpa using hf) hv)]
  obtain ⟨hx, hy⟩ := isNaN_of_fLe h
  have hxy : fKey x ≤ fKey y := by simpa [fLe_eq, hx, hy] using h
  suffices hkey : fKey (fMul a x) ≤ fKey (fMul a y) by simpa [fLe_eq, notNaN x hx, notNaN y hy] using hkey
  by_cases hfx : isFinite x = true <;> by_cases hfy : isFinite y = true
  · rw [fKey_fMul ha hfx, fKey_fMul ha hfy]
    exact roundKey_mono (by positivity) (Int.mul_le_mul_of_nonneg_left ((fLe_iff hfx hfy).mp h) h0.le)
  · have hyi := isInf_of_not_isFinite (by simpa using hfy) hy
    have hle := (fKey_bounds (notNaN x hx)).2
    have hend := fKey_of_isInf hyi
    have hxin := fKey_bounds_of_isFinite hfx
    rw [fMul_of_isInf ha h0 hyi]
    omega
  · have hxi := isInf_of_not_isFinite (by simpa using hfx) hx
    have hge := (fKey_bounds (notNaN y hy)).1
    have hend := fKey_of_isInf hxi
    have hyin := fKey_bounds_of_isFinite hfy
    rw [fMul_of_isInf ha h0 hxi]
    omega
  · rwa [fMul_of_isInf ha h0 (isInf_of_not_isFinite (by simpa using hfx) hx),
      fMul_of_isInf ha h0 (isInf_of_not_isFinite (by simpa using hfy) hy)]

/-- The clamp's place in the order. -/
theorem fKey_clamp {v lo hi : V} (hv : isNaN v = false) (hr : fLe lo hi = true) :
    fKey (clamp v lo hi) = max (fKey lo) (min (fKey hi) (fKey v)) := by
  obtain ⟨hlo, hhi⟩ := isNaN_of_fLe hr
  simp only [fLe_eq, hlo, hhi, Bool.not_false, Bool.true_and, decide_eq_true_eq] at hr
  simp only [clamp, fLt_eq, hv, hlo, hhi, Bool.not_false, Bool.true_and, decide_eq_true_eq]
  split
  · omega
  · split <;> omega

theorem fLe_clamp {x y lo hi : V} (hr : fLe lo hi = true) (h : fLe x y = true) :
    fLe (clamp x lo hi) (clamp y lo hi) = true := by
  obtain ⟨hlo, hhi⟩ := isNaN_of_fLe hr
  obtain ⟨hx, hy⟩ := isNaN_of_fLe h
  have notNaN : ∀ v, isNaN v = false → isNaN (clamp v lo hi) = false := fun v hv => by
    have hin := fIn_clamp hv hlo hhi hr
    simp only [fIn, Bool.and_eq_true] at hin
    exact (isNaN_of_fLe hin.1).2
  have hkey : fKey (clamp x lo hi) ≤ fKey (clamp y lo hi) := by
    rw [fKey_clamp hx hr, fKey_clamp hy hr]
    exact max_le_max le_rfl (min_le_min le_rfl (by simpa [fLe_eq, hx, hy] using h))
  simpa [fLe_eq, notNaN x hx, notNaN y hy] using hkey

/-! ### The level (R248) -/

/-- The decibels of a bin's energy before their clamp. -/
def rawDb (e : V) : V := fMul twenty (fLog10 (fAdd (fSqrt e) Config.eps))

/-- The level of a number of decibels. -/
def levelOfDb (db : V) : V := fDiv (fAdd (clamp db Config.dbLo Config.dbHi) hundred) hundred

/-- Clamped decibels plus 100.0 are finite, within 0 and 100.0. -/
theorem fIn_dbSum {db : V} (h : isNaN db = false) :
    fIn Config.dbLo Config.dbHi (clamp db Config.dbLo Config.dbHi) = true ∧
      fIn posZero hundred (fAdd (clamp db Config.dbLo Config.dbHi) hundred) = true := by
  have hdb := fIn_clamp h (lo := Config.dbLo) (hi := Config.dbHi) (by decide +kernel) (by decide +kernel)
    (by decide +kernel)
  exact ⟨hdb, fIn_fAdd hdb (lb := hundred) (ub := hundred) (by decide +kernel) (by decide +kernel)⟩

theorem isNaN_levelOfDb (db : V) : isNaN (levelOfDb db) = isNaN db := by
  cases h : isNaN db with
  | true =>
    have hclamp : clamp db Config.dbLo Config.dbHi = db := by simp [clamp, fLt_eq, h]
    have hsum : fAdd db hundred = 0x7FC00000#32 := by simp [fAdd_eq, h]
    rw [levelOfDb, hclamp, hsum]
    decide +kernel
  | false =>
    have hin : fIn posZero one (levelOfDb db) = true :=
      fIn_fDiv (fIn_dbSum h).2 (lb := hundred) (ub := hundred) (by decide +kernel) (by decide +kernel)
    exact isNaN_of_isFinite (isFinite_of_fIn hin isFinite_posZero isFinite_one)

theorem binLevel_eq (e : V) : binLevel e = if isNaN (rawDb e) then posZero else levelOfDb (rawDb e) :=
  if_congr (Bool.eq_iff_iff.mp (isNaN_levelOfDb (rawDb e))) rfl rfl

/-- The level grows weakly with the decibels. -/
theorem fLe_levelOfDb {x y : V} (h : fLe x y = true) : fLe (levelOfDb x) (levelOfDb y) = true := by
  obtain ⟨hx, hy⟩ := isNaN_of_fLe h
  have hlo : isFinite Config.dbLo = true := by decide +kernel
  have hhi : isFinite Config.dbHi = true := by decide +kernel
  have hc : isFinite hundred = true := by decide +kernel
  have hdb := fLe_clamp (lo := Config.dbLo) (hi := Config.dbHi) (by decide +kernel) h
  have finite : ∀ v, isNaN v = false → isFinite (clamp v Config.dbLo Config.dbHi) = true ∧
      isFinite (fAdd (clamp v Config.dbLo Config.dbHi) hundred) = true := fun v hv =>
    ⟨isFinite_of_fIn (fIn_dbSum hv).1 hlo hhi, isFinite_of_fIn (fIn_dbSum hv).2 isFinite_posZero hc⟩
  exact fLe_fDiv_right (finite x hx).2 (finite y hy).2 hc (by decide +kernel)
    (fLe_fAdd_right (finite x hx).1 (finite y hy).1 hc hdb)

/-- From 0 dB on the level is 1.0. -/
theorem levelOfDb_of_nonNeg {db : V} (h : fLe posZero db = true) : levelOfDb db = one := by
  have hnan := (isNaN_of_fLe h).2
  have hf : isFinite (clamp db Config.dbLo Config.dbHi) = true :=
    isFinite_of_fIn (fIn_dbSum hnan).1 (by decide +kernel) (by decide +kernel)
  have hkey : fKey (clamp db Config.dbLo Config.dbHi) = fKey posZero := by
    have hdb : fKey posZero ≤ fKey db := by simpa [fLe_eq, hnan, isNaN_of_isFinite isFinite_posZero] using h
    rw [fKey_clamp hnan (by decide +kernel), show fKey Config.dbHi = fKey posZero by decide +kernel, min_eq_left hdb]
    decide +kernel
  have hzero := (fKey_inj hf isFinite_posZero).mp hkey
  rw [fInt_posZero] at hzero
  rw [levelOfDb]
  by_cases hneg : clamp db Config.dbLo Config.dbHi = negZero
  · rw [hneg]
    decide +kernel
  · rw [eq_posZero_of_fInt hf hzero hneg]
    decide +kernel

/-! ### From the energy to the decibels (R248) -/

/-- The operand of a finite energy's logarithm is finite and positive: `EPS` or more. -/
theorem logOperand_ok {e : V} (h : nonNeg e = true) :
    isFinite (fAdd (fSqrt e) Config.eps) = true ∧ fLt posZero (fAdd (fSqrt e) Config.eps) = true := by
  have heps : isFinite Config.eps = true := by decide +kernel
  have hmax : isFinite (fAdd (fSqrt maxFinite) Config.eps) = true := by decide +kernel
  obtain ⟨hf, h0⟩ := (nonNeg_iff _).mp (nonNeg_fSqrt h)
  have hlow : fLe Config.eps (fAdd (fSqrt e) Config.eps) = true := le_fAdd hf heps heps (by omega)
  have he : isFinite e = true := ((nonNeg_iff e).mp h).1
  have hhigh := fLe_fAdd_right hf (by decide +kernel) heps (fLe_fSqrt h (by decide +kernel) (fLe_maxFinite he))
  exact ⟨isFinite_of_fLe_fLe heps hmax hlow hhigh, fLt_of_fLt_of_fLe (by decide +kernel) hlow⟩

/-- The decibels grow weakly with the energy (NP5). -/
theorem fLe_rawDb {a b : V} (ha : nonNeg a = true) (hb : isFinite b = true) (h : fLe a b = true) :
    fLe (rawDb a) (rawDb b) = true := by
  obtain ⟨-, -, hlog, -⟩ := fLog10_ok
  have hb0 := nonNeg_of_fLe ha hb h
  have hsum := fLe_fAdd_right (c := Config.eps) ((nonNeg_iff _).mp (nonNeg_fSqrt ha)).1
    ((nonNeg_iff _).mp (nonNeg_fSqrt hb0)).1 (by decide +kernel) (fLe_fSqrt ha hb h)
  exact fLe_fMul_left (by decide +kernel) (by decide +kernel)
    (hlog _ (logOperand_ok ha).2 _ (logOperand_ok hb0).1 hsum)

/-- An energy of 1.0 gives `+0` decibels: adding `EPS` to 1.0 rounds back to it (NP2). -/
theorem rawDb_one : rawDb one = posZero := by
  obtain ⟨hlog, -⟩ := fLog10_ok
  have hsum : fAdd (fSqrt one) Config.eps = one := by decide +kernel
  rw [rawDb, hsum, hlog]
  decide +kernel

/-- Where the decibels are no NaN, the level is theirs. -/
theorem binLevel_of_not_isNaN {e : V} (h : isNaN (rawDb e) = false) : binLevel e = levelOfDb (rawDb e) := by
  rw [binLevel_eq, h]
  rfl

/-- Settles O54: every operation from the energy to the level keeps the order, and an energy of 1.0 is at 0 dB. -/
theorem magnitudesLieInUnit : Obligations.MagnitudesLieInUnit := by
  refine ⟨fun e => ⟨fIn_binLevel e, binLevel_eq e⟩, fun e e' h0 h hf => ?_, fun e h hf => ?_⟩
  · have he : nonNeg e = true := by
      rw [nonNeg, isFinite_of_fLe_fLe isFinite_posZero hf h0 h, h0, Bool.and_self]
    have hdb := fLe_rawDb he hf h
    obtain ⟨hn, hn'⟩ := isNaN_of_fLe hdb
    rw [binLevel_of_not_isNaN hn, binLevel_of_not_isNaN hn']
    exact fLe_levelOfDb hdb
  · have hdb := fLe_rawDb (by decide +kernel) hf h
    rw [binLevel_of_not_isNaN (isNaN_of_fLe hdb).2]
    exact levelOfDb_of_nonNeg (rawDb_one ▸ hdb)

end Sys2Proof.Machine


/-! PROOFS. Routing and control (44_orchestrator R270, R271): what MODG writes, and INIT as the sequence of the packets
it stands for, each with its own validity test. -/

namespace Sys2Proof.Machine

open Sys2Proof.Claims

/-! ### MODG (R270) -/

theorem execModg_of_invalid {g : V} {r : IgnoreReason} (h : invalidReason (.modg g) = some r) (s : State) :
    execModg g s = .next (ignore s r) := by
  simp only [execModg, applyModg, h]

theorem execModg_of_valid {g : V} (h : invalidReason (.modg g) = none) (s : State) :
    execModg g s = .next { s with gain := g } := by
  simp only [execModg, applyModg, h]

theorem encode_modg (g : V) : encode (.modg g) = [0x03000001, g] :=
  congrArg (· :: [g]) (by decide : mkHeader 0x03 0 1 = 0x03000001)

/-- Settles O25: a gain is valid exactly if it is finite, and each way not to be has its reason. -/
theorem modgWritesTheGain : Obligations.ModgWritesTheGain := by
  intro g s
  obtain ⟨hvalid, hnan, hinf⟩ := gainReason_cases .modg g
  refine ⟨encode_modg g, fun hf => execModg_of_valid (hvalid.mpr hf) s, fun hn => ?_,
    fun hi => execModg_of_invalid (hinf hi) s⟩
  obtain ⟨k, hk⟩ := hnan hn
  exact ⟨k, execModg_of_invalid hk s⟩

/-! ### Packets one after the other -/

theorem runPackets_cons {i : Instr} {s t : State} (h : exec i s = .next t) (is : List Instr) :
    runPackets (i :: is) s = runPackets is t := by
  simp only [runPackets, h]

theorem runPackets_append {is : List Instr} {s t : State} (h : runPackets is s = .next t) (js : List Instr) :
    runPackets (is ++ js) s = runPackets js t := by
  induction is generalizing s with
  | nil =>
    cases h
    rfl
  | cons i is ih =>
    cases hi : exec i s with
    | next u =>
      rw [runPackets_cons hi] at h
      rw [List.cons_append, runPackets_cons hi, ih h]
    | fault r => simp [runPackets, hi] at h
    | refused r => simp [runPackets, hi] at h

/-! ### INIT (R271) -/

/-- The MODF packets of a list of filters, the first for section `i`. -/
def modfParts (i : Nat) (xs : List FilterParams) : List Instr :=
  (xs.zipIdx i).map fun x => .modf (BitVec.ofNat 8 x.2) x.1

theorem initParts_eq (p : InitPacket) : initParts p =
    [.modg p.gain, .setq p.qualityMode] ++ modfParts 0 p.filters
      ++ [.setx p.sbrEnabled p.sbrGain, .setl p.limiterEnabled p.detectorMode p.limiter, .setv p.fps] := rfl

theorem length_initParts {p : InitPacket} (h : (Instr.init p).wellFormed = true) : (initParts p).length = 16 := by
  have hf : p.filters.length = Config.nBands := by simpa [Instr.wellFormed] using h
  simp [initParts_eq, modfParts, hf]

theorem runPackets_modfParts (i : Nat) (xs : List FilterParams) (s : State) :
    runPackets (modfParts i xs) s = .next (applyFilters i xs s) := by
  induction xs generalizing i s with
  | nil => rfl
  | cons x xs ih => exact ih (i + 1) (applyModf (BitVec.ofNat 8 i) x s)

/-- R271, for an INIT with any number of filters. -/
theorem runPackets_initParts (p : InitPacket) (s : State) : runPackets (initParts p) s = exec (.init p) s := by
  have hfilters : runPackets ([.modg p.gain, .setq p.qualityMode] ++ modfParts 0 p.filters) s =
      .next (applyFilters 0 p.filters (applySetq p.qualityMode (applyModg p.gain s))) :=
    runPackets_modfParts 0 p.filters _
  rw [initParts_eq, runPackets_append hfilters]
  rfl

/-- Settles O32: the parts run one after the other are the calls INIT makes. -/
theorem initIsItsSixteenParts : Obligations.InitIsItsSixteenParts := fun p s hw =>
  ⟨length_initParts hw, applyInit p s, rfl, runPackets_initParts p s⟩

/-! ### Packets that are not valid (R131) -/

/-- A packet that R131 finds invalid is ignored by its own meaning too. -/
theorem exec_of_invalid {i : Instr} {r : IgnoreReason} (h : invalidReason i = some r) (s : State) :
    exec i s = .next (ignore s r) := by
  cases i with
  | modf index x => exact execModf_of_invalid h s
  | modg g => exact execModg_of_invalid h s
  | setq mode =>
    obtain ⟨rfl, rfl⟩ : mode = 3 ∧ .badMode mode = r := by simpa [invalidReason] using h
    rfl
  | setx enabled g => exact execSetx_of_invalid h s
  | setl enabled det x => exact execSetl_of_invalid h s
  | setv f => exact execSetv_of_invalid h s
  | init p => cases h
  | rstf => cases h
  | proc p => cases h
  | aout p => cases h
  | tlm p => cases h

/-- Packets of which none is valid raise one event each and change nothing else. -/
theorem runPackets_of_invalid {is : List Instr} (h : ∀ i ∈ is, ∃ r, invalidReason i = some r) (s : State) :
    ∃ es : List Event, es.length = is.length ∧ (∀ e ∈ es, ∃ r, e = .cmdIgnored r) ∧
      runPackets is s = .next (withEvents s es) := by
  induction is generalizing s with
  | nil => exact ⟨[], rfl, by simp, by simp [runPackets, withEvents]⟩
  | cons i is ih =>
    rw [List.forall_mem_cons] at h
    obtain ⟨⟨r, hr⟩, his⟩ := h
    obtain ⟨es, hlen, hes, hrun⟩ := ih his (ignore s r)
    refine ⟨.cmdIgnored r :: es, congrArg (· + 1) hlen, List.forall_mem_cons.mpr ⟨⟨r, rfl⟩, hes⟩, ?_⟩
    rw [runPackets_cons (exec_of_invalid hr s), hrun]
    simp [withEvents, ignore, raise]

theorem invalidReason_modf_of_isNaN (index : BitVec 8) {x : FilterParams} (h : isNaN x.frequency = true) :
    ∃ r, invalidReason (.modf index x) = some r := by
  obtain ⟨hbad, hvalid⟩ := validityOfMatchedPackets.1 index x
  rcases Nat.lt_or_ge index.toNat Config.nBands with hi | hi
  · obtain ⟨k, hk⟩ := (hvalid hi).2 (.inl h)
    exact ⟨_, hk⟩
  · exact ⟨_, hbad hi⟩

/-- No part of an INIT with the mode 3 and NaN operands is valid. -/
theorem invalidReason_initParts {p : InitPacket} (hm : p.qualityMode = 3)
    (hn : (encodeOperands (.init p)).all isNaN = true) : ∀ i ∈ initParts p, ∃ r, invalidReason i = some r := by
  obtain ⟨-, -, -, -, hsetl, hsetv, -⟩ := validityOfMatchedPackets
  simp only [encodeOperands, encodeFilter, encodeLimiter, toWord_eq, List.all_append, List.all_cons, List.all_nil,
    List.all_flatMap, List.all_eq_true, Bool.and_eq_true, and_true, List.cons_append, List.nil_append] at hn
  obtain ⟨hgain, hfilters, hsbr, hatt, -, -, -, -, hfps⟩ := hn
  have hmodf : ∀ i ∈ modfParts 0 p.filters, ∃ r, invalidReason i = some r := fun i hi => by
    obtain ⟨⟨x, k⟩, hx, rfl⟩ := List.mem_map.mp hi
    obtain ⟨hf, -⟩ := hfilters x (List.fst_mem_of_mem_zipIdx hx)
    exact invalidReason_modf_of_isNaN _ hf
  obtain ⟨kl, hl⟩ := (hsetl p.limiterEnabled p.detectorMode p.limiter).2 (.inl hatt)
  obtain ⟨kv, hv⟩ := (hsetv p.fps).2 hfps
  simp only [initParts_eq, List.forall_mem_append, List.forall_mem_cons]
  exact ⟨⟨⟨⟨_, gainReason_of_isNaN .modg hgain⟩, ⟨_, if_pos hm⟩, by simp⟩, hmodf⟩,
    ⟨_, gainReason_of_isNaN .setx hsbr⟩, ⟨_, hl⟩, ⟨_, hv⟩, by simp⟩

/-- Settles O33: an INIT is its parts, none of which is valid, so each raises its event and does nothing else. -/
theorem initWithNothingValid : Obligations.InitWithNothingValid := by
  intro p s hw hm hn
  obtain ⟨es, hlen, hes, hrun⟩ := runPackets_of_invalid (invalidReason_initParts hm hn) s
  exact ⟨es, hlen.trans (length_initParts hw), hes, (runPackets_initParts p s).symm.trans hrun⟩

end Sys2Proof.Machine


/-! PROOFS. The samples of an audio block (44_orchestrator R273 to R277): what PROC answers is finite, and in the
neutral configuration it is what came in. -/

namespace Sys2Proof.Machine

open Sys2Proof.Claims

/-! ### The answer is finite (R277) -/

theorem exec_proc_of_fits {p : AudioPacket} {s : State} (h : audioFits s.par.block p.nch p.samples.length = true) :
    exec (.proc p) s = .next (procBlock p s) := if_pos h

theorem aout_procBlock (p : AudioPacket) (s : State) :
    (procBlock p s).aout = some { nch := p.nch, samples := planarSamples p.nch (blockFrames p s).1 } := rfl

/-- Every planar sample is a channel of a frame. -/
theorem mem_planarSamples {nch : BitVec 8} {out : List (Stereo V)} {v : V} (h : v ∈ planarSamples nch out) :
    ∃ x ∈ out, ∃ c, v = chGet x c := by
  rcases List.mem_append.mp h with hv | hv
  · obtain ⟨x, hx, rfl⟩ := List.mem_map.mp hv
    exact ⟨x, hx, .c0, rfl⟩
  · obtain ⟨-, hv⟩ := List.mem_ite_nil_right.mp hv
    obtain ⟨x, hx, rfl⟩ := List.mem_map.mp hv
    exact ⟨x, hx, .c1, rfl⟩

/-- Settles O59: each word is a channel of a frame, and the last guard of a frame leaves finite values. -/
theorem outputsAreFinite : Obligations.OutputsAreFinite := by
  intro p s hfit
  refine ⟨procBlock p s, exec_proc_of_fits hfit, List.all_eq_true.mpr fun v hv => ?_⟩
  obtain ⟨x, hx, c, rfl⟩ := mem_planarSamples hv
  obtain ⟨h0, h1⟩ := stereoFinite_frames _ _ _ _ x hx
  cases c
  · exact h0
  · exact h1

/-! ### Planar samples and frames (R128) -/

theorem map_range_getD {l : List V} {k n : Nat} (h : k + n ≤ l.length) (d : V) :
    (List.range n).map (fun t => l.getD (k + t) d) = (l.drop k).take n := by
  apply List.ext_getElem
  · rw [List.length_map, List.length_range, List.length_take, List.length_drop]
    omega
  · intro i hi _
    have hi : i < n := by simpa using hi
    simp [List.getElem?_eq_getElem (show k + i < l.length by omega)]

/-- A block that fits is the planar form of its frames. -/
theorem planarSamples_planarFrames {block : Nat} {nch : BitVec 8} {samples : List V}
    (h : audioFits block nch samples.length = true) :
    planarSamples nch (planarFrames block samples) = samples := by
  have hch0 : (planarFrames block samples).map Stereo.ch0 =
      (List.range block).map fun t => samples.getD (0 + t) posZero := by
    simp [planarFrames, planarFrame]
  have hch1 : (planarFrames block samples).map Stereo.ch1 =
      (List.range block).map fun t => samples.getD (block + t) posZero := by
    simp [planarFrames, planarFrame]
  rcases (audioFits_iff _ _ _).mp h with ⟨rfl, hlen⟩ | ⟨rfl, hlen⟩
  · rw [planarSamples, hch0, map_range_getD (by omega)]
    simp [isStereo, ← hlen]
  · have hstereo : isStereo 2 = true := rfl
    rw [planarSamples, if_pos hstereo, hch0, hch1, map_range_getD (by omega), map_range_getD (by omega), List.drop_zero,
      List.take_of_length_le (l := samples.drop block) (by rw [List.length_drop]; omega), List.take_append_drop]

/-! ### The neutral configuration (R275) -/

theorem neutral_iff (s : State) : neutral s = true ↔
    s.fb.sections.toList.all (fun x => flatRow x.row) = true ∧
      (∀ c, (chGet s.fb.hist c).toList.all matched = true) ∧ s.gain = one ∧ s.dyn.enabled = false ∧
      s.exc.enabled = false := by
  have hhist : (∀ c, (chGet s.fb.hist c).toList.all matched = true) ↔
      s.fb.hist.ch0.toList.all matched = true ∧ s.fb.hist.ch1.toList.all matched = true :=
    ⟨fun h => ⟨h .c0, h .c1⟩, fun h c => by cases c; exacts [h.1, h.2]⟩
  simp only [neutral, Bool.and_eq_true, Bool.not_eq_true', beq_iff_eq, hhist, and_assoc]

/-- What a frame may write leaves a neutral state neutral, if the filter state stays matched. -/
theorem FrameOnly.keeps_neutral {s t : State} (h : FrameOnly s t) (hs : neutral s = true)
    (hhist : ∀ c, (chGet t.fb.hist c).toList.all matched = true) : neutral t = true := by
  obtain ⟨hflat, -, hgain, hdyn, hexc⟩ := (neutral_iff s).mp hs
  exact (neutral_iff t).mpr ⟨h.sections ▸ hflat, hhist, h.gain.trans hgain, h.dynEnabled.trans hdyn,
    h.excEnabled.trans hexc⟩

/-- A sample passes a neutral state up to the limiter: the cascade is the identity, the gain is 1.0, the guards find
nothing to replace and the exciter is off. -/
theorem passes_channelStep {s : State} (hs : neutral s = true) (c : Chan) (t : Nat) {x : V} (hx : small x = true) :
    passes x (channelStep c t x s).1 ∧ neutral (channelStep c t x s).2 = true := by
  obtain ⟨hflat, hhist, hgain, -, hexc⟩ := (neutral_iff s).mp hs
  obtain ⟨hpass, hmatched, -⟩ := flatCascadeIsTheIdentity s.fb c t x hflat (hhist c) hx
  have hxs : sanV x = x := sanV_of_isFinite (isFinite_of_small hx)
  have hout := isFinite_of_small (small_of_passes hpass hx)
  have hexc : ∀ v, (excProcess s.exc c t v).out = v := fun v => (exciterBypass s.exc c t v (.inl hexc)).1
  refine ⟨?_, (channelStep_frameOnly c t x s).keeps_neutral hs fun d => ?_⟩
  · simp only [channelStep, hxs, hexc, hgain, fMul_one_right hout, sanV_of_isFinite hout]
    exact hpass
  · simp only [channelStep, raise_fb, hxs]
    by_cases hd : d = c
    · exact hd ▸ hmatched
    · exact (congrArg (fun h => h.toList.all matched) (chGet_chSet_of_ne s.fb.hist hd _)).trans (hhist d)

/-- A frame passes in each of its channels. -/
def passesFrame (stereo : Bool) (x y : Stereo V) : Prop := ∀ c, hasChannel stereo c → passes (chGet x c) (chGet y c)

theorem passesFrame_mono {x y : Stereo V} (h : passes x.ch0 y.ch0) : passesFrame false x y := by
  rintro c (rfl | hc)
  · exact h
  · cases hc

theorem passesFrame_stereo {x y : Stereo V} (h0 : passes x.ch0 y.ch0) (h1 : passes x.ch1 y.ch1) :
    passesFrame true x y := fun c _ => by
  cases c
  · exact h0
  · exact h1

theorem passes_channels {s : State} (hs : neutral s = true) (stereo : Bool) (t : Nat) {x : Stereo V}
    (hx : small x.ch0 = true ∧ small x.ch1 = true) :
    passesFrame stereo x (channels stereo t x s).1 ∧ neutral (channels stereo t x s).2 = true := by
  obtain ⟨h0, hs0⟩ := passes_channelStep hs .c0 t hx.1
  cases stereo with
  | false => exact ⟨passesFrame_mono h0, hs0⟩
  | true =>
    obtain ⟨h1, hs1⟩ := passes_channelStep hs0 .c1 t hx.2
    exact ⟨passesFrame_stereo h0 h1, hs1⟩

/-- So does a frame: the ramp moves nothing that is read, and the limiter is off. -/
theorem passes_frame {s : State} (hs : neutral s = true) (stereo : Bool) (t : Nat) {x : Stereo V}
    (hx : small x.ch0 = true ∧ small x.ch1 = true) :
    passesFrame stereo x (frame stereo t x s).1 ∧ neutral (frame stereo t x s).2 = true := by
  have hramp : neutral { s with exc := excRamp s.par s.exc } = true := by
    rw [excRamp_st]
    exact hs
  have hchannels := passes_channels hramp stereo t hx
  obtain ⟨-, -, -, hoff, -⟩ := (neutral_iff _).mp hchannels.2
  rw [frame, limiter_bypass _ _ _ _ hoff]
  exact hchannels

theorem passes_frames {s : State} (hs : neutral s = true) (stereo : Bool) (t : Nat) {xs : List (Stereo V)}
    (hx : ∀ x ∈ xs, small x.ch0 = true ∧ small x.ch1 = true) :
    List.Forall₂ (passesFrame stereo) xs (frames stereo t xs s).1 ∧ neutral (frames stereo t xs s).2 = true := by
  induction xs generalizing t s with
  | nil => exact ⟨.nil, hs⟩
  | cons x xs ih =>
    rw [List.forall_mem_cons] at hx
    obtain ⟨hframe, hs'⟩ := passes_frame hs stereo t hx.1
    obtain ⟨hrest, hend⟩ := ih hs' (t + 1) hx.2
    exact ⟨.cons hframe hrest, hend⟩

/-! ### The neutral block (R333) -/

/-- The frames of a block hold its samples, and `+0` where it has none. -/
theorem small_planarFrames (block : Nat) {samples : List V} (h : samples.all small = true) :
    ∀ x ∈ planarFrames block samples, small x.ch0 = true ∧ small x.ch1 = true := by
  have hget : ∀ k, small (samples.getD k posZero) = true := fun k => by
    rw [List.getD_eq_getElem?_getD]
    cases hk : samples[k]? with
    | none => decide
    | some v => exact List.all_eq_true.mp h v (List.mem_of_getElem? hk)
  intro x hx
  obtain ⟨t, -, rfl⟩ := List.mem_map.mp hx
  exact ⟨hget t, hget (block + t)⟩

/-- Frames that pass are planar samples that pass. -/
theorem passes_planarSamples {nch : BitVec 8} {xs ys : List (Stereo V)}
    (h : List.Forall₂ (passesFrame (isStereo nch)) xs ys) :
    List.Forall₂ passes (planarSamples nch xs) (planarSamples nch ys) := by
  have channel : ∀ c, hasChannel (isStereo nch) c →
      List.Forall₂ passes (xs.map (chGet · c)) (ys.map (chGet · c)) :=
    fun c hc => List.forall₂_map_left_iff.mpr (List.forall₂_map_right_iff.mpr (h.imp fun _ _ hxy => hxy c hc))
  refine List.rel_append (channel .c0 (.inl rfl)) ?_
  split
  · rename_i hstereo
    exact channel .c1 (.inr hstereo)
  · exact .nil

/-- The end of a block writes nothing of the configuration. -/
theorem BlockEnd.neutral_eq {s t : State} (h : BlockEnd s t) : neutral t = neutral s := by
  rw [h.rest]
  rfl

/-- Settles O39: frame by frame the samples pass and the state stays neutral, and the block's end leaves both. -/
theorem neutralBlockPassesAudio : Obligations.NeutralBlockPassesAudio := by
  intro s p hs hfit hsmall
  obtain ⟨hpass, hend⟩ := passes_frames hs (isStereo p.nch) 0 (small_planarFrames s.par.block hsmall)
  have hsamples := passes_planarSamples hpass
  rw [planarSamples_planarFrames hfit] at hsamples
  exact ⟨procBlock p s, _, exec_proc_of_fits hfit, aout_procBlock p s, hsamples,
    (procBlock_end p s).neutral_eq.trans hend⟩

end Sys2Proof.Machine


/-! PROOFS. Reset and illegal straps (70_reset_and_hazards R330 to R333): the reset signal, an instance whose straps are
out of range, and the reset values. -/

namespace Sys2Proof.Machine

open Sys2Proof.Claims

/-! ### The step of an instance whose straps are out of range (R331) -/

theorem step_of_illegal_reset {s : State} (hp : strapsLegal s.par = false) {p : Params} {later : List HostMove}
    (hh : s.host = .reset p :: later) : step s = .next (resetBlock { s with host := later } p) := by
  simp [step, stepBlock, hp, hh]

theorem step_of_illegal {s : State} (hp : strapsLegal s.par = false) (hh : ∀ p later, s.host ≠ .reset p :: later) :
    step s = .fault .illegalInstance := by
  rw [step, stepBlock, hp, if_neg Bool.false_ne_true]
  split
  · rename_i p later hr
    exact absurd hr (hh p later)
  · rfl

/-- Settles O12: the reset is the host's move where the straps are legal, and the only step left where they are not. -/
theorem resetSignalResetsTheBlock : Obligations.ResetSignalResetsTheBlock := by
  intro s p later hh
  cases hp : strapsLegal s.par with
  | true => exact step_of_move hp hh
  | false => exact step_of_illegal_reset hp hh

/-- Settles O13: without a reset from the host, illegal straps leave the fault alone. -/
theorem illegalInstanceHasNoStep : Obligations.IllegalInstanceHasNoStep := fun _ => step_of_illegal

/-! ### The components at reset (R332) -/

theorem fbReset_section (p : Params) (i : Fin Config.nBands) :
    (fbReset p).sections[i] = flatSection p .quality i := Vector.getElem_ofFn i.isLt

/-- The filter state at reset, in either channel. -/
theorem fbReset_hist (p : Params) (c : Chan) :
    chGet (fbReset p).hist c = Vector.replicate Config.nBands ⟨posZero, posZero, posZero, posZero⟩ := by
  cases c <;> rfl

theorem excReset_ch (c : Chan) : chGet excReset.ch c = excChanReset := by cases c <;> rfl

/-- A value between the zeros rounds to 0. -/
theorem rnd_of_fIn_posZero {v : V} (h : fIn posZero posZero v = true) : rnd v = 0 := by
  obtain ⟨hf, hlo, hhi⟩ := (fIn_iff isFinite_posZero isFinite_posZero).mp h
  have hmag := (fInt_eq_zero_iff hf).mp (le_antisymm (fInt_posZero ▸ hhi) (fInt_posZero ▸ hlo))
  rw [rnd_eq, fUnits_eq, hmag]
  decide

/-- A time of 0 ms is no frame (R181). -/
theorem rnd_msFrames_posZero {p : Params} (h : strapsLegal p = true) : rnd (msFrames p posZero) = 0 := by
  have prod : fIn posZero posZero (fMul posZero (fsf p)) = true :=
    fIn_fMul (la := posZero) (ua := posZero) (by decide +kernel) (fIn_fsf h) (by decide +kernel)
  exact rnd_of_fIn_posZero (fIn_fDiv prod (lb := thousand) (ub := thousand) (by decide +kernel) (by decide +kernel))

/-- The limiter's reset lookahead of 0 ms gives no delay (R332). -/
theorem dynReset_delay {p : Params} (h : strapsLegal p = true) : (dynReset p).delay = 0 := by
  have hdelay : (dynReset p).delay = min (rnd (msFrames p posZero)) (dMax p) := rfl
  rw [hdelay, rnd_msFrames_posZero h, Nat.zero_min]

theorem dynReset_eq {p : Params} (h : strapsLegal p = true) : dynReset p = { dynReset p with delay := 0 } := by
  rw [← dynReset_delay h]

/-- Settles O17: each component's reset value is the table's as written, but for the limiter's delay, derived from a
lookahead of 0 ms. -/
theorem resetValues : Obligations.ResetValues := by
  intro p hp
  refine ⟨rfl, fbReset_section p, rfl, fun c i => ?_, rfl, dynReset_eq hp, rfl, rfl, excReset_ch, rfl, rfl, rfl, rfl,
    rfl, rfl, rfl, fun _ => rfl, rfl, rfl, rfl, fun _ => rfl, rfl, rfl, rfl, rfl⟩
  rw [resetWith_fb, fbReset_hist]
  exact Vector.getElem_replicate i.isLt

/-! ### The neutral configuration at reset (R333) -/

/-- The row of a section at its reset parameters is flat (R159, R332). -/
theorem flatRow_flatSection {p : Params} (hp : strapsLegal p = true) (i : Fin Config.nBands) :
    flatRow (flatSection p .quality i).row = true := by
  have hf : fIn Config.fLo (fHi p) (clamp Config.center[i] Config.fLo (fHi p)) = true :=
    fIn_clamp (isNaN_center i) (by decide +kernel) (isNaN_of_isFinite (isFinite_fHi hp)) (fLe_fLo_fHi hp)
  have mid := coefMid_flat hp hf
  exact (zeroGainRowsAreFlat _ _ mid.bigA (fIn_mono mid.alpha (by decide +kernel) (by decide +kernel)) mid.cw).1

/-- Settles O40: the sections are flat at 0 dB, the filter state is zero, the gain 1.0, limiter and exciter off. -/
theorem resetIsNeutral : Obligations.ResetIsNeutral := by
  intro p hp
  refine (neutral_iff _).mpr ⟨?_, fun c => ?_, rfl, rfl, rfl⟩
  · rw [Vector.all_toList, Vector.all_eq_true]
    intro i hi
    have hsec : (fbReset p).sections[i] = flatSection p .quality ⟨i, hi⟩ := fbReset_section p ⟨i, hi⟩
    rw [resetWith_fb, hsec]
    exact flatRow_flatSection hp ⟨i, hi⟩
  · rw [resetWith_fb, fbReset_hist]
    decide +kernel

end Sys2Proof.Machine
